-- ==== Sys2Proof/Word.lean ====
section
/-! DEFINITION. The bit strings of the machine (00_scope.md R7): bit 0 is the least significant bit. -/

namespace Sys2Proof

/-- A byte of memory or of an instruction (R30, R50). -/
abbrev Byte := BitVec 8

/-- A linear address, an effective address or a general register (R14, R30, R61). -/
abbrev Addr := BitVec 64

/-- The contents of an MMX register (10_state.md R10). -/
abbrev MmWord := BitVec 64

/-- The contents of an XMM register (10_state.md R11). -/
abbrev XmmWord := BitVec 128

/-- All `VLMAX` = 256 bits of a vector register (00_scope.md R4, 10_state.md R12). -/
abbrev YmmWord := BitVec 256

end Sys2Proof
end

