-- ==== Sys2Proof/Config.lean ====
section
/-! DEFINITION. What an implementation fixes, and the values the spec leaves open (free values: opaque, no value of
theirs can be proved). -/

namespace Sys2Proof

/-- 00_scope.md R6: the two operating modes in scope. -/
inductive Mode where
  | mode64
  | mode32
deriving DecidableEq, Repr

/-- 00_scope.md R5: the CPUID feature flags, one per value of the page's column. -/
inductive Feature where
  | mmx
  | sse2
  | avx
  | avx2
deriving DecidableEq, Repr

/-- 00_scope.md R5, 10_state.md R18: the configuration record `cfg`. -/
structure Features where
  mmx  : Bool
  sse2 : Bool
  avx  : Bool
  avx2 : Bool
deriving DecidableEq, Repr

/-- The flag of `cfg` that a row of the opcode table needs. -/
def Features.has (c : Features) : Feature → Bool
  | .mmx  => c.mmx
  | .sse2 => c.sse2
  | .avx  => c.avx
  | .avx2 => c.avx2

/-- The registers in which CPUID reports a flag (10_state.md R19). -/
inductive CpuidReg where
  | ebx
  | ecx
  | edx
deriving DecidableEq, Repr

/-- 10_state.md R19: where a feature flag is reported (leaf, register, bit). -/
structure CpuidBit where
  leaf : Nat
  reg  : CpuidReg
  bit  : Nat
deriving DecidableEq, Repr

/-- 10_state.md R19: the table of CPUID leaves and bits (all of subleaf 0). -/
def Feature.cpuid : Feature → CpuidBit
  | .mmx  => ⟨0x01, .edx, 23⟩
  | .sse2 => ⟨0x01, .edx, 26⟩
  | .avx  => ⟨0x01, .ecx, 28⟩
  | .avx2 => ⟨0x07, .ebx, 5⟩

/-- 00_scope.md R4 (D1): the width of the widest vector register. -/
abbrev Config.VLMAX : Nat := 256

/-- 30_encoding.md R63, U10 (log 10), FREE VALUE: whether SS (true) or DS (false) is the default segment of the base
register with this number. The model applies it to the numbers 12 and 13 alone. -/
opaque Config.extBaseIsSS : BitVec 4 → Bool

/-- 60_exceptions.md R126, U11 (log 9), FREE VALUE: which of the failing bytes of an operand (its linear address, its
number of failing bytes) a page fault reports; taken modulo the number of failing bytes. -/
opaque Config.pageFaultPick : Addr → Nat → Nat

/-- 20_memory.md R35, D23 (log 11), FREE VALUE: the byte that device memory answers, from the number of device reads
recorded so far and the linear address. -/
opaque Config.deviceByte : Nat → Addr → Byte

end Sys2Proof
end

