-- ==== Sys2Proof/Syntax.lean ====
section
/-! DEFINITION. Instructions: the sixteen rows of the opcode table (30_encoding.md R66) with their operands, and the
parts of an encoding that select no operand (prefix bytes, the REX and VEX bits) and that length, addressing and #UD
conditions depend on. -/

namespace Sys2Proof

/-- 30_encoding.md R50, R63: the segment registers. -/
inductive SegReg where
  | es
  | cs
  | ss
  | ds
  | fs
  | gs
deriving DecidableEq, Repr

/-- 30_encoding.md R50: the legacy prefix bytes. -/
inductive Pfx where
  /-- `26 2E 36 3E 64 65`: a segment override. -/
  | seg (r : SegReg)
  /-- `66`: operand size, the mandatory prefix of the XMM rows. -/
  | opSize
  /-- `67`: address size. -/
  | addrSize
  /-- `F0`. -/
  | lock
  /-- `F2`. -/
  | repne
  /-- `F3`. -/
  | rep
deriving DecidableEq, Repr

/-- 30_encoding.md R54: the REX prefix `0100WRXB`. -/
structure Rex where
  w : Bool
  r : Bool
  x : Bool
  b : Bool
deriving DecidableEq, Repr

/-- The bytes in front of `0F` in the legacy layout (30_encoding.md R50): the prefixes in their order, and REX. -/
structure LegacyEnc where
  pfx : List Pfx
  rex : Option Rex
deriving DecidableEq, Repr

/-- The VEX prefix and the bytes in front of it (30_encoding.md R50, R55). `three` is the `C4` form. `r`, `x`, `b` are
un-inverted. `rex` is a REX byte in front of the VEX prefix, which makes the instruction #UD (R71). `vvvv` and L are not
here: the first is an operand, the second selects the row. -/
structure VexEnc where
  pfx   : List Pfx
  rex   : Option Rex
  three : Bool
  r     : Bool
  x     : Bool
  b     : Bool
  w     : Bool
deriving DecidableEq, Repr

/-- 30_encoding.md R61: the displacement that ModRM.mod asks for. -/
inductive Disp where
  | none
  | d8  (d : BitVec 8)
  | d32 (d : BitVec 32)
deriving DecidableEq, Repr

/-- 30_encoding.md R61, R62: a memory operand. Register numbers are assembled (B:r/m, B:base, X:index). -/
inductive MemForm where
  /-- `GPR[B:r/m]` plus displacement. -/
  | base (b : BitVec 4) (d : Disp)
  /-- SIB form with a base register. -/
  | sib (scale : BitVec 2) (index : BitVec 4) (b : BitVec 4) (d : Disp)
  /-- SIB form with SIB.base = 101 and mod = 00: no base register, a disp32. -/
  | sibNoBase (scale : BitVec 2) (index : BitVec 4) (d : BitVec 32)
  /-- mod = 00, r/m = 101: RIP-relative in Mode64, absolute in Mode32. -/
  | disp32 (d : BitVec 32)
deriving DecidableEq, Repr

/-- An operand that is a register (of a number of `w` bits) or a memory operand, chosen by ModRM.mod (R9, R53). -/
inductive RegMem (w : Nat) where
  | reg (r : BitVec w)
  | mem (m : MemForm)
deriving DecidableEq, Repr

/-- `mm/m64` (30_encoding.md R60: MMX numbers are three bits). -/
abbrev MmRm := RegMem 3

/-- `xmm/m128`. -/
abbrev XmmRm := RegMem 4

/-- The sixteen rows of 30_encoding.md R66, in the order of opcode_table.json. Vector register numbers are the 4-bit
numbers of R60; in Mode32 the machine takes them modulo 8 (D24). -/
inductive Instr where
  /-- Row 1, `0F E1 /r`, PSRAW mm, mm/m64 (R100). -/
  | psrawMm (e : LegacyEnc) (dst : BitVec 3) (count : MmRm)
  /-- Row 2, `66 0F E1 /r`, PSRAW xmm1, xmm2/m128 (R101). -/
  | psrawXmm (e : LegacyEnc) (dst : BitVec 4) (count : XmmRm)
  /-- Row 3, `0F 71 /4 ib`, PSRAW mm, imm8 (R102). -/
  | psrawMmImm (e : LegacyEnc) (dst : BitVec 3) (imm : BitVec 8)
  /-- Row 4, `66 0F 71 /4 ib`, PSRAW xmm1, imm8 (R103). -/
  | psrawXmmImm (e : LegacyEnc) (dst : BitVec 4) (imm : BitVec 8)
  /-- Row 5, `VEX.NDS.128.66.0F.WIG E1 /r`, VPSRAW xmm1, xmm2, xmm3/m128 (R104). -/
  | vpsrawXmm (e : VexEnc) (dst : BitVec 4) (src : BitVec 4) (count : XmmRm)
  /-- Row 6, `VEX.NDD.128.66.0F.WIG 71 /4 ib`, VPSRAW xmm1, xmm2, imm8 (R105). -/
  | vpsrawXmmImm (e : VexEnc) (dst : BitVec 4) (src : BitVec 4) (imm : BitVec 8)
  /-- Row 7, `VEX.NDS.256.66.0F.WIG E1 /r`, VPSRAW ymm1, ymm2, xmm3/m128 (R106). -/
  | vpsrawYmm (e : VexEnc) (dst : BitVec 4) (src : BitVec 4) (count : XmmRm)
  /-- Row 8, `VEX.NDD.256.66.0F.WIG 71 /4 ib`, VPSRAW ymm1, ymm2, imm8 (R107). -/
  | vpsrawYmmImm (e : VexEnc) (dst : BitVec 4) (src : BitVec 4) (imm : BitVec 8)
  /-- Row 9, `0F E2 /r`, PSRAD mm, mm/m64 (R110). -/
  | psradMm (e : LegacyEnc) (dst : BitVec 3) (count : MmRm)
  /-- Row 10, `66 0F E2 /r`, PSRAD xmm1, xmm2/m128 (R111). -/
  | psradXmm (e : LegacyEnc) (dst : BitVec 4) (count : XmmRm)
  /-- Row 11, `0F 72 /4 ib`, PSRAD mm, imm8 (R112). -/
  | psradMmImm (e : LegacyEnc) (dst : BitVec 3) (imm : BitVec 8)
  /-- Row 12, `66 0F 72 /4 ib`, PSRAD xmm1, imm8 (R113). -/
  | psradXmmImm (e : LegacyEnc) (dst : BitVec 4) (imm : BitVec 8)
  /-- Row 13, `VEX.NDS.128.66.0F.WIG E2 /r`, VPSRAD xmm1, xmm2, xmm3/m128 (R114). -/
  | vpsradXmm (e : VexEnc) (dst : BitVec 4) (src : BitVec 4) (count : XmmRm)
  /-- Row 14, `VEX.NDD.128.66.0F.WIG 72 /4 ib`, VPSRAD xmm1, xmm2, imm8 (R115). -/
  | vpsradXmmImm (e : VexEnc) (dst : BitVec 4) (src : BitVec 4) (imm : BitVec 8)
  /-- Row 15, `VEX.NDS.256.66.0F.WIG E2 /r`, VPSRAD ymm1, ymm2, xmm3/m128 (R116). -/
  | vpsradYmm (e : VexEnc) (dst : BitVec 4) (src : BitVec 4) (count : XmmRm)
  /-- Row 16, `VEX.NDD.256.66.0F.WIG 72 /4 ib`, VPSRAD ymm1, ymm2, imm8 (R117). -/
  | vpsradYmmImm (e : VexEnc) (dst : BitVec 4) (src : BitVec 4) (imm : BitVec 8)
deriving DecidableEq, Repr

/-- The opcode byte after `0F` (30_encoding.md R50): `E1`, `E2`, `71`, `72`. -/
inductive Op where
  | e1
  | e2
  | o71
  | o72
deriving DecidableEq, Repr

/-- 10_state.md R13, 30_encoding.md R68: the class of a row, which fixes its registers and its upper-bits rule. -/
inductive RowClass where
  | mmx
  | sse2
  | vex128
  | vex256
deriving DecidableEq, Repr

/-- 30_encoding.md R56 to R59: the operand-encoding form. -/
inductive OpEn where
  | rm
  | mi
  | rvm
  | vmi
deriving DecidableEq, Repr

/-- 60_exceptions.md R128: the exception class the page, or this spec's reading (D19), assigns to a row. -/
inductive ExcClass where
  | type4
  | type7
  | mmxTable
deriving DecidableEq, Repr

/-- One row of the opcode table (30_encoding.md R66, R74): its number, mnemonic, operand text, opcode byte, class,
operand-encoding form, CPUID feature flag and exception class. -/
structure Row where
  num      : Nat
  mnemonic : String
  operands : String
  op       : Op
  cls      : RowClass
  opEn     : OpEn
  needs    : Feature
  excClass : ExcClass
deriving DecidableEq, Repr

/-- A byte sequence the spec gives no meaning (30_encoding.md R73, R71, R61). -/
inductive DecodeRefusal where
  /-- R73: the bytes match no row; the processor may define another instruction there. -/
  | noRow
  /-- R71, U4: `F2` or `F3` on a legacy row. -/
  | reservedPfx
  /-- R71: a REX byte that another prefix follows. -/
  | rexNotLast
  /-- R61, D20: 16-bit addressing (`67` in Mode32 with a memory operand). -/
  | addressing16
deriving DecidableEq, Repr

end Sys2Proof
end

