-- ==== Sys2Proof/Decode.lean ====
section
/-! DEFINITION. The opcode table as data (30_encoding.md R66), decoding of any bytes (R75) and, after it, the encoder.
Both are written from the layouts of R50 to R65. -/

namespace Sys2Proof

/-! ## Rows and lengths -/

/-- The row of an instruction: 30_encoding.md R66, with the exception class of 60_exceptions.md R128. -/
def Instr.row : Instr → Row
  | .psrawMm ..      => ⟨1, "PSRAW", "mm, mm/m64", .e1, .mmx, .rm, .mmx, .mmxTable⟩
  | .psrawXmm ..     => ⟨2, "PSRAW", "xmm1, xmm2/m128", .e1, .sse2, .rm, .sse2, .type4⟩
  | .psrawMmImm ..   => ⟨3, "PSRAW", "mm, imm8", .o71, .mmx, .mi, .mmx, .mmxTable⟩
  | .psrawXmmImm ..  => ⟨4, "PSRAW", "xmm1, imm8", .o71, .sse2, .mi, .sse2, .type7⟩
  | .vpsrawXmm ..    => ⟨5, "VPSRAW", "xmm1, xmm2, xmm3/m128", .e1, .vex128, .rvm, .avx, .type4⟩
  | .vpsrawXmmImm .. => ⟨6, "VPSRAW", "xmm1, xmm2, imm8", .o71, .vex128, .vmi, .avx, .type7⟩
  | .vpsrawYmm ..    => ⟨7, "VPSRAW", "ymm1, ymm2, xmm3/m128", .e1, .vex256, .rvm, .avx2, .type4⟩
  | .vpsrawYmmImm .. => ⟨8, "VPSRAW", "ymm1, ymm2, imm8", .o71, .vex256, .vmi, .avx2, .type7⟩
  | .psradMm ..      => ⟨9, "PSRAD", "mm, mm/m64", .e2, .mmx, .rm, .mmx, .mmxTable⟩
  | .psradXmm ..     => ⟨10, "PSRAD", "xmm1, xmm2/m128", .e2, .sse2, .rm, .sse2, .type4⟩
  | .psradMmImm ..   => ⟨11, "PSRAD", "mm, imm8", .o72, .mmx, .mi, .mmx, .mmxTable⟩
  | .psradXmmImm ..  => ⟨12, "PSRAD", "xmm1, imm8", .o72, .sse2, .mi, .sse2, .type7⟩
  | .vpsradXmm ..    => ⟨13, "VPSRAD", "xmm1, xmm2, xmm3/m128", .e2, .vex128, .rvm, .avx, .type4⟩
  | .vpsradXmmImm .. => ⟨14, "VPSRAD", "xmm1, xmm2, imm8", .o72, .vex128, .vmi, .avx, .type7⟩
  | .vpsradYmm ..    => ⟨15, "VPSRAD", "ymm1, ymm2, xmm3/m128", .e2, .vex256, .rvm, .avx2, .type4⟩
  | .vpsradYmmImm .. => ⟨16, "VPSRAD", "ymm1, ymm2, imm8", .o72, .vex256, .vmi, .avx2, .type7⟩

/-- The prefix bytes in front of the instruction, in their order (R50). -/
def Instr.pfx : Instr → List Pfx
  | .psrawMm e _ _ | .psrawXmm e _ _ | .psrawMmImm e _ _ | .psrawXmmImm e _ _ => e.pfx
  | .psradMm e _ _ | .psradXmm e _ _ | .psradMmImm e _ _ | .psradXmmImm e _ _ => e.pfx
  | .vpsrawXmm e _ _ _ | .vpsrawXmmImm e _ _ _ | .vpsrawYmm e _ _ _ | .vpsrawYmmImm e _ _ _ => e.pfx
  | .vpsradXmm e _ _ _ | .vpsradXmmImm e _ _ _ | .vpsradYmm e _ _ _ | .vpsradYmmImm e _ _ _ => e.pfx

/-- The REX byte of a legacy row, or the one in front of a VEX prefix (R54, R71). -/
def Instr.rex : Instr → Option Rex
  | .psrawMm e _ _ | .psrawXmm e _ _ | .psrawMmImm e _ _ | .psrawXmmImm e _ _ => e.rex
  | .psradMm e _ _ | .psradXmm e _ _ | .psradMmImm e _ _ | .psradXmmImm e _ _ => e.rex
  | .vpsrawXmm e _ _ _ | .vpsrawXmmImm e _ _ _ | .vpsrawYmm e _ _ _ | .vpsrawYmmImm e _ _ _ => e.rex
  | .vpsradXmm e _ _ _ | .vpsradXmmImm e _ _ _ | .vpsradYmm e _ _ _ | .vpsradYmmImm e _ _ _ => e.rex

/-- 30_encoding.md R71, U4: `F2` or `F3`, and no LOCK, on a legacy row: no meaning (decoding gives no such instruction;
log 22). -/
def Instr.reservedPfx (i : Instr) : Bool :=
  match i.row.cls with
  | .mmx | .sse2 => !i.pfx.contains .lock && (i.pfx.contains .repne || i.pfx.contains .rep)
  | .vex128 | .vex256 => false

/-- Displacement bytes (R61, R72). -/
def Disp.len : Disp → Nat
  | .none  => 0
  | .d8 _  => 1
  | .d32 _ => 4

/-- SIB and displacement bytes after ModRM (R61, R62, R72). -/
def MemForm.len : MemForm → Nat
  | .base _ d      => d.len
  | .sib _ _ _ d   => 1 + d.len
  | .sibNoBase ..  => 5
  | .disp32 _      => 4

/-- Bytes after ModRM that a register-or-memory operand takes. -/
def RegMem.len {w : Nat} : RegMem w → Nat
  | .reg _ => 0
  | .mem m => m.len

/-- R72: prefixes, REX, `0F op`, ModRM. -/
def LegacyEnc.len (e : LegacyEnc) : Nat :=
  e.pfx.length + (if e.rex.isSome then 1 else 0) + 3

/-- R72: prefixes, `C5 v1 op` or `C4 v1 v2 op`, ModRM. -/
def VexEnc.len (e : VexEnc) : Nat :=
  e.pfx.length + (if e.rex.isSome then 1 else 0) + (if e.three then 4 else 3) + 1

/-- 30_encoding.md R72: the length of the instruction in bytes. -/
def Instr.len : Instr → Nat
  | .psrawMm e _ c | .psradMm e _ c => e.len + c.len
  | .psrawXmm e _ c | .psradXmm e _ c => e.len + c.len
  | .psrawMmImm e _ _ | .psradMmImm e _ _ => e.len + 1
  | .psrawXmmImm e _ _ | .psradXmmImm e _ _ => e.len + 1
  | .vpsrawXmm e _ _ c | .vpsrawYmm e _ _ c | .vpsradXmm e _ _ c | .vpsradYmm e _ _ c => e.len + c.len
  | .vpsrawXmmImm e _ _ _ | .vpsrawYmmImm e _ _ _ | .vpsradXmmImm e _ _ _ | .vpsradYmmImm e _ _ _ => e.len + 1

/-! ## Fields of the encoding -/

/-- The byte of a prefix (30_encoding.md R50). -/
def Pfx.byte : Pfx → Byte
  | .seg .es  => 0x26#8
  | .seg .cs  => 0x2E#8
  | .seg .ss  => 0x36#8
  | .seg .ds  => 0x3E#8
  | .seg .fs  => 0x64#8
  | .seg .gs  => 0x65#8
  | .opSize   => 0x66#8
  | .addrSize => 0x67#8
  | .lock     => 0xF0#8
  | .repne    => 0xF2#8
  | .rep      => 0xF3#8

/-- Every prefix. -/
def Pfx.all : List Pfx :=
  [.seg .es, .seg .cs, .seg .ss, .seg .ds, .seg .fs, .seg .gs, .opSize, .addrSize, .lock, .repne, .rep]

/-- The prefix a byte is, if it is one. -/
def Pfx.ofByte (b : Byte) : Option Pfx :=
  Pfx.all.find? (fun p => p.byte == b)

/-- 30_encoding.md R54: the byte `0100WRXB`. -/
def Rex.byte (r : Rex) : Byte :=
  4#4 ++ BitVec.ofBool r.w ++ BitVec.ofBool r.r ++ BitVec.ofBool r.x ++ BitVec.ofBool r.b

/-- R54: the four bits of a REX byte. -/
def Rex.ofByte (b : Byte) : Rex :=
  ⟨b.getLsbD 3, b.getLsbD 2, b.getLsbD 1, b.getLsbD 0⟩

/-- REX.R, 0 when there is no REX (R60). -/
def LegacyEnc.r (e : LegacyEnc) : Bool :=
  match e.rex with
  | some r => r.r
  | none   => false

/-- REX.X, 0 when there is no REX. -/
def LegacyEnc.x (e : LegacyEnc) : Bool :=
  match e.rex with
  | some r => r.x
  | none   => false

/-- REX.B, 0 when there is no REX. -/
def LegacyEnc.b (e : LegacyEnc) : Bool :=
  match e.rex with
  | some r => r.b
  | none   => false

/-- 30_encoding.md R60: a register number of four bits from its extension bit and its 3-bit field. -/
def regNum (ext : Bool) (field : BitVec 3) : BitVec 4 := BitVec.ofBool ext ++ field

/-- The 3-bit field of a register number. -/
def regField (r : BitVec 4) : BitVec 3 := r.extractLsb' 0 3

/-- R53: ModRM.mod. -/
def modrmMod (b : Byte) : BitVec 2 := b.extractLsb' 6 2

/-- R53: ModRM.reg. -/
def modrmReg (b : Byte) : BitVec 3 := b.extractLsb' 3 3

/-- R53: ModRM.r/m. -/
def modrmRm (b : Byte) : BitVec 3 := b.extractLsb' 0 3

/-- R53, R62: a byte of a 2-bit and two 3-bit fields (ModRM, SIB). -/
def byte233 (a : BitVec 2) (b c : BitVec 3) : Byte := a ++ b ++ c

/-- The opcode byte. -/
def Op.byte : Op → Byte
  | .e1  => 0xE1#8
  | .e2  => 0xE2#8
  | .o71 => 0x71#8
  | .o72 => 0x72#8

/-- Every opcode byte in scope. -/
def Op.all : List Op := [.e1, .e2, .o71, .o72]

/-- The opcode a byte is, if it is one of those in scope. -/
def Op.ofByte (b : Byte) : Option Op :=
  Op.all.find? (fun o => o.byte == b)

/-! ## Decoding -/

/-- What a byte string decodes to (30_encoding.md R75). -/
inductive Decoded where
  /-- A row with its fields, and the bytes after the instruction. -/
  | instr (i : Instr) (rest : List Byte)
  /-- #UD. -/
  | ud
  /-- No meaning. -/
  | refused (r : DecodeRefusal)
  /-- The bytes end before the instruction does. -/
  | short
deriving DecidableEq, Repr

/-- R75 step 1: the legacy prefixes, and what follows them. -/
def takePfx : List Byte → List Pfx × List Byte
  | [] => ([], [])
  | b :: bs =>
    match Pfx.ofByte b with
    | some p => let t := takePfx bs; (p :: t.1, t.2)
    | none   => ([], b :: bs)

/-- R75 step 2: a REX byte, in Mode64 only. -/
def takeRex (m : Mode) : List Byte → Option Rex × List Byte
  | [] => (none, [])
  | b :: bs =>
    match m with
    | .mode64 => if b.extractLsb' 4 4 = 4#4 then (some (Rex.ofByte b), bs) else (none, b :: bs)
    | .mode32 => (none, b :: bs)

/-- R61: a 32-bit displacement, little-endian. -/
def take32 : List Byte → Option (BitVec 32 × List Byte)
  | b0 :: b1 :: b2 :: b3 :: bs => some (b3 ++ b2 ++ b1 ++ b0, bs)
  | _ => none

/-- R61: the displacement that mod asks for (mod = 11 takes none). -/
def takeDisp (mod : BitVec 2) (bs : List Byte) : Option (Disp × List Byte) :=
  if mod = 1#2 then
    match bs with
    | d :: bs => some (.d8 d, bs)
    | [] => none
  else if mod = 2#2 then
    match take32 bs with
    | some (d, bs) => some (.d32 d, bs)
    | none => none
  else some (.none, bs)

/-- R61, R62: the memory operand of ModRM.mod (not 11) and r/m, with the extension bits X and B. -/
def takeMem (x b : Bool) (mod : BitVec 2) (rm : BitVec 3) (bs : List Byte) : Option (MemForm × List Byte) :=
  if rm = 4#3 then
    match bs with
    | [] => none
    | sib :: bs =>
      let scale := modrmMod sib
      let index := regNum x (modrmReg sib)
      let base := modrmRm sib
      if base = 5#3 ∧ mod = 0#2 then
        match take32 bs with
        | some (d, bs) => some (.sibNoBase scale index d, bs)
        | none => none
      else
        match takeDisp mod bs with
        | some (d, bs) => some (.sib scale index (regNum b base) d, bs)
        | none => none
  else if rm = 5#3 ∧ mod = 0#2 then
    match take32 bs with
    | some (d, bs) => some (.disp32 d, bs)
    | none => none
  else
    match takeDisp mod bs with
    | some (d, bs) => some (.base (regNum b rm) d, bs)
    | none => none

/-- R61, D20: a memory operand whose address would be a 16-bit one. -/
def addr16 (m : Mode) (pfx : List Pfx) : Bool :=
  match m with
  | .mode64 => false
  | .mode32 => pfx.contains .addrSize

/-- The displacement bytes of a 16-bit address form (mod not 11), which decide only how long the instruction is. R61 and R72
give no length for these forms: the family's, PRESUMED (log 29). -/
def disp16Len (mod : BitVec 2) (rm : BitVec 3) : Nat :=
  if mod = 1#2 then 1 else if mod = 2#2 ∨ rm = 6#3 then 2 else 0

/-- The bytes after the SIB and displacement of a memory operand of either address size, if they hold it (R61, R72). -/
def afterMem (m : Mode) (pfx : List Pfx) (x b : Bool) (mod : BitVec 2) (rm : BitVec 3) (bs : List Byte) :
    Option (List Byte) :=
  if addr16 m pfx then
    if disp16Len mod rm ≤ bs.length then some (bs.drop (disp16Len mod rm)) else none
  else (takeMem x b mod rm bs).map Prod.snd

/-- The rows with a count in a register or in memory (RM, RVM): from ModRM on. `number` turns a register number into
the operand (three bits on the MMX rows, four elsewhere). -/
def decodeRm {w : Nat} (m : Mode) (pfx : List Pfx) (x b : Bool) (number : BitVec 3 → BitVec w)
    (build : BitVec 3 → RegMem w → Instr) : List Byte → Decoded
  | [] => .short
  | modrm :: bs =>
    if modrmMod modrm = 3#2 then
      .instr (build (modrmReg modrm) (.reg (number (modrmRm modrm)))) bs
    else if addr16 m pfx then
      match afterMem m pfx x b (modrmMod modrm) (modrmRm modrm) bs with
      | some _ => .refused .addressing16
      | none => .short
    else
      match takeMem x b (modrmMod modrm) (modrmRm modrm) bs with
      | some (mf, bs) => .instr (build (modrmReg modrm) (.mem mf)) bs
      | none => .short

/-- The rows with an immediate count (MI, VMI): from ModRM on. A ModRM.reg other than 100 is another instruction (R73);
mod not 11 is #UD (R67), once the bytes hold the whole instruction (R129: a length above 15 comes first; the length of a
16-bit address form is the model's choice, log 29). -/
def decodeImm (m : Mode) (pfx : List Pfx) (x b : Bool) (build : BitVec 3 → BitVec 8 → Instr) : List Byte → Decoded
  | [] => .short
  | modrm :: bs =>
    if modrmReg modrm ≠ 4#3 then .refused .noRow
    else if modrmMod modrm = 3#2 then
      match bs with
      | imm :: bs => .instr (build (modrmRm modrm) imm) bs
      | [] => .short
    else
      match afterMem m pfx x b (modrmMod modrm) (modrmRm modrm) bs with
      | some (_ :: _) => .ud
      | _ => .short

/-- #UD for a VEX prefix that R71 forbids, once the bytes hold the whole instruction (R129: a length above 15 comes first),
whatever the opcode (R55; log 13). -/
def Decoded.orUd : Decoded → Decoded
  | .short => .short
  | _      => .ud

/-- #UD for LOCK on a legacy row (R71), once the bytes hold the whole instruction; bytes of no row are refused (R73; log
13). -/
def Decoded.lockUd : Decoded → Decoded
  | .short => .short
  | .refused .noRow => .refused .noRow
  | _      => .ud

/-- R75 step 3, after the opcode byte: the row by opcode and the `66` prefix. -/
def decodeLegacyOp (m : Mode) (e : LegacyEnc) (op : Op) (bs : List Byte) : Decoded :=
  if e.pfx.contains .opSize then
    match op with
    | .e1  => decodeRm m e.pfx e.x e.b (regNum e.b) (fun reg c => .psrawXmm e (regNum e.r reg) c) bs
    | .e2  => decodeRm m e.pfx e.x e.b (regNum e.b) (fun reg c => .psradXmm e (regNum e.r reg) c) bs
    | .o71 => decodeImm m e.pfx e.x e.b (fun rm imm => .psrawXmmImm e (regNum e.b rm) imm) bs
    | .o72 => decodeImm m e.pfx e.x e.b (fun rm imm => .psradXmmImm e (regNum e.b rm) imm) bs
  else
    match op with
    | .e1  => decodeRm m e.pfx e.x e.b id (fun reg c => .psrawMm e reg c) bs
    | .e2  => decodeRm m e.pfx e.x e.b id (fun reg c => .psradMm e reg c) bs
    | .o71 => decodeImm m e.pfx e.x e.b (fun rm imm => .psrawMmImm e rm imm) bs
    | .o72 => decodeImm m e.pfx e.x e.b (fun rm imm => .psradMmImm e rm imm) bs

/-- R75 step 3: the legacy rows, from the byte after `0F`. -/
def decodeLegacy (m : Mode) (e : LegacyEnc) : List Byte → Decoded
  | [] => .short
  | b :: bs =>
    match Op.ofByte b with
    | none => .refused .noRow
    | some op =>
      if e.pfx.contains .lock then (decodeLegacyOp m e op bs).lockUd
      else if e.pfx.contains .repne || e.pfx.contains .rep then .refused .reservedPfx
      else decodeLegacyOp m e op bs

/-- R71: what may not stand in front of a VEX prefix. -/
def badVexPfx (pfx : List Pfx) (rex : Option Rex) : Bool :=
  rex.isSome || pfx.contains .opSize || pfx.contains .repne || pfx.contains .rep || pfx.contains .lock

/-- R75 step 4, after the VEX prefix: the row by opcode and VEX.L. -/
def decodeVexOp (m : Mode) (e : VexEnc) (vvvv : BitVec 4) (l : Bool) : List Byte → Decoded
  | [] => .short
  | b :: bs =>
    match Op.ofByte b, l with
    | none, _ => .refused .noRow
    | some .e1, false =>
      decodeRm m e.pfx e.x e.b (regNum e.b) (fun reg c => .vpsrawXmm e (regNum e.r reg) vvvv c) bs
    | some .e1, true =>
      decodeRm m e.pfx e.x e.b (regNum e.b) (fun reg c => .vpsrawYmm e (regNum e.r reg) vvvv c) bs
    | some .e2, false =>
      decodeRm m e.pfx e.x e.b (regNum e.b) (fun reg c => .vpsradXmm e (regNum e.r reg) vvvv c) bs
    | some .e2, true =>
      decodeRm m e.pfx e.x e.b (regNum e.b) (fun reg c => .vpsradYmm e (regNum e.r reg) vvvv c) bs
    | some .o71, false =>
      decodeImm m e.pfx e.x e.b (fun rm imm => .vpsrawXmmImm e vvvv (regNum e.b rm) imm) bs
    | some .o71, true =>
      decodeImm m e.pfx e.x e.b (fun rm imm => .vpsrawYmmImm e vvvv (regNum e.b rm) imm) bs
    | some .o72, false =>
      decodeImm m e.pfx e.x e.b (fun rm imm => .vpsradXmmImm e vvvv (regNum e.b rm) imm) bs
    | some .o72, true =>
      decodeImm m e.pfx e.x e.b (fun rm imm => .vpsradYmmImm e vvvv (regNum e.b rm) imm) bs

/-- R55: `vvvv` of the last VEX byte, un-inverted. -/
def vexVvvv (v : Byte) : BitVec 4 := ~~~ v.extractLsb' 3 4

/-- R55: in Mode32 `C4` and `C5` are a VEX prefix only if bits 7:6 of the next byte are 11. -/
def vexAllowed (m : Mode) (v1 : Byte) : Bool :=
  match m with
  | .mode64 => true
  | .mode32 => v1.extractLsb' 6 2 == 3#2

/-- R75 step 4, the 2-byte form, from the byte after `C5`. -/
def decodeVex2 (m : Mode) (pfx : List Pfx) (rex : Option Rex) : List Byte → Decoded
  | [] => .short
  | v1 :: bs =>
    if !vexAllowed m v1 then .refused .noRow
    else
      let d :=
        if v1.extractLsb' 0 2 = 1#2 then
          decodeVexOp m ⟨pfx, rex, false, !v1.getLsbD 7, false, false, false⟩ (vexVvvv v1) (v1.getLsbD 2) bs
        else .refused .noRow
      if badVexPfx pfx rex then d.orUd else d

/-- R75 step 4, the 3-byte form, from the byte after `C4`. -/
def decodeVex3 (m : Mode) (pfx : List Pfx) (rex : Option Rex) : List Byte → Decoded
  | v1 :: v2 :: bs =>
    if !vexAllowed m v1 then .refused .noRow
    else
      let d :=
        if v1.extractLsb' 0 5 = 1#5 ∧ v2.extractLsb' 0 2 = 1#2 then
          decodeVexOp m ⟨pfx, rex, true, !v1.getLsbD 7, !v1.getLsbD 6, !v1.getLsbD 5, v2.getLsbD 7⟩ (vexVvvv v2)
            (v2.getLsbD 2) bs
        else .refused .noRow
      if badVexPfx pfx rex then d.orUd else d
  | [v1] => if !vexAllowed m v1 then .refused .noRow else .short
  | [] => .short

/-- R75 steps 3 to 5, after the prefixes and REX. -/
def decodeOpcode (m : Mode) (pfx : List Pfx) (rex : Option Rex) : List Byte → Decoded
  | [] => .short
  | b :: bs =>
    if b = 0x0F#8 then decodeLegacy m ⟨pfx, rex⟩ bs
    else if b = 0xC5#8 then decodeVex2 m pfx rex bs
    else if b = 0xC4#8 then decodeVex3 m pfx rex bs
    else if rex.isSome && (Pfx.ofByte b).isSome then .refused .rexNotLast
    else .refused .noRow

/-- 30_encoding.md R75: the total function from a byte string and the mode. -/
def decode (m : Mode) (bs : List Byte) : Decoded :=
  let p := takePfx bs
  let r := takeRex m p.2
  decodeOpcode m p.1 r.1 r.2

/-! ## Encoding -/

/-- A 32-bit displacement, little-endian (R61). -/
def bytes32 (d : BitVec 32) : List Byte :=
  [d.extractLsb' 0 8, d.extractLsb' 8 8, d.extractLsb' 16 8, d.extractLsb' 24 8]

/-- ModRM.mod of a displacement (R61). -/
def Disp.mod : Disp → BitVec 2
  | .none  => 0#2
  | .d8 _  => 1#2
  | .d32 _ => 2#2

/-- The bytes of a displacement. -/
def Disp.bytes : Disp → List Byte
  | .none  => []
  | .d8 d  => [d]
  | .d32 d => bytes32 d

/-- ModRM (with this reg field), SIB and displacement of a memory operand (R61, R62). -/
def MemForm.bytes (reg : BitVec 3) : MemForm → List Byte
  | .base b d => byte233 d.mod reg (regField b) :: d.bytes
  | .sib scale index b d => byte233 d.mod reg 4#3 :: byte233 scale (regField index) (regField b) :: d.bytes
  | .sibNoBase scale index d => byte233 0#2 reg 4#3 :: byte233 scale (regField index) 5#3 :: bytes32 d
  | .disp32 d => byte233 0#2 reg 5#3 :: bytes32 d

/-- ModRM and what follows it, of an MMX register-or-memory operand. -/
def mmRmBytes (reg : BitVec 3) : MmRm → List Byte
  | .reg r => [byte233 3#2 reg r]
  | .mem m => m.bytes reg

/-- ModRM and what follows it, of an XMM register-or-memory operand. -/
def xmmRmBytes (reg : BitVec 3) : XmmRm → List Byte
  | .reg r => [byte233 3#2 reg (regField r)]
  | .mem m => m.bytes reg

/-- The REX byte, if there is one. -/
def rexBytes : Option Rex → List Byte
  | some r => [r.byte]
  | none   => []

/-- R50: prefixes, REX, `0F op`. -/
def LegacyEnc.bytes (e : LegacyEnc) (op : Op) : List Byte :=
  e.pfx.map Pfx.byte ++ (rexBytes e.rex ++ [0x0F#8, op.byte])

/-- R50, R55: prefixes, the VEX prefix with `vvvv` and L, the opcode. -/
def VexEnc.bytes (e : VexEnc) (vvvv : BitVec 4) (l : Bool) (op : Op) : List Byte :=
  e.pfx.map Pfx.byte ++ (rexBytes e.rex ++
    (if e.three then
      [0xC4#8, BitVec.ofBool (!e.r) ++ BitVec.ofBool (!e.x) ++ BitVec.ofBool (!e.b) ++ 1#5,
        BitVec.ofBool e.w ++ ~~~ vvvv ++ BitVec.ofBool l ++ 1#2, op.byte]
    else
      [0xC5#8, BitVec.ofBool (!e.r) ++ ~~~ vvvv ++ BitVec.ofBool l ++ 1#2, op.byte]))

/-- The bytes of a well-formed instruction: 30_encoding.md R56 to R60, R65, R66. -/
def encode : Instr → List Byte
  | .psrawMm e dst c        => e.bytes .e1 ++ mmRmBytes dst c
  | .psrawXmm e dst c       => e.bytes .e1 ++ xmmRmBytes (regField dst) c
  | .psrawMmImm e dst i     => e.bytes .o71 ++ [byte233 3#2 4#3 dst, i]
  | .psrawXmmImm e dst i    => e.bytes .o71 ++ [byte233 3#2 4#3 (regField dst), i]
  | .vpsrawXmm e dst s c    => e.bytes s false .e1 ++ xmmRmBytes (regField dst) c
  | .vpsrawXmmImm e dst s i => e.bytes dst false .o71 ++ [byte233 3#2 4#3 (regField s), i]
  | .vpsrawYmm e dst s c    => e.bytes s true .e1 ++ xmmRmBytes (regField dst) c
  | .vpsrawYmmImm e dst s i => e.bytes dst true .o71 ++ [byte233 3#2 4#3 (regField s), i]
  | .psradMm e dst c        => e.bytes .e2 ++ mmRmBytes dst c
  | .psradXmm e dst c       => e.bytes .e2 ++ xmmRmBytes (regField dst) c
  | .psradMmImm e dst i     => e.bytes .o72 ++ [byte233 3#2 4#3 dst, i]
  | .psradXmmImm e dst i    => e.bytes .o72 ++ [byte233 3#2 4#3 (regField dst), i]
  | .vpsradXmm e dst s c    => e.bytes s false .e2 ++ xmmRmBytes (regField dst) c
  | .vpsradXmmImm e dst s i => e.bytes dst false .o72 ++ [byte233 3#2 4#3 (regField s), i]
  | .vpsradYmm e dst s c    => e.bytes s true .e2 ++ xmmRmBytes (regField dst) c
  | .vpsradYmmImm e dst s i => e.bytes dst true .o72 ++ [byte233 3#2 4#3 (regField s), i]

/-! ## Words of the opcode table -/

/-- The longest instruction in bytes (30_encoding.md R50, R72). -/
def maxLen : Nat := 15

/-- The bytes of an instruction whose bits are `w`, the first byte least significant, every bit above `nbits` 0, up to
the longest instruction. -/
def tableBytes (nbits w : Nat) : List Byte :=
  (List.range maxLen).map fun k => if k < nbits / 8 then BitVec.ofNat 8 (w >>> (8 * k)) else 0#8

/-- The instruction this decoder reads, in Mode64, from bytes numbered as the opcode table numbers them (log 24). -/
def decodeTableWord (nbits w : Nat) : Option Instr :=
  match decode .mode64 (tableBytes nbits w) with
  | .instr i _ => some i
  | _ => none

end Sys2Proof
end

