-- ==== Sys2Proof/Machine/State.lean ====
section
/-! DEFINITION. The state of the machine as plain data (10_state.md R10 to R24, 30_encoding.md R63 and R64, 20_memory.md
R30, R35 and R37), the launch state, and the reasons a step can stop. -/

namespace Sys2Proof.Machine

/-- A segment register as far as R64, R124 and R125 use it: base, limit and whether it holds a null selector. Limit and
null selector are used in Mode32 only. -/
structure Segment where
  base  : Addr
  limit : BitVec 32
  null  : Bool
deriving DecidableEq, Repr

/-- The six segment registers (R63). -/
structure Segments where
  es : Segment
  cs : Segment
  ss : Segment
  ds : Segment
  fs : Segment
  gs : Segment
deriving DecidableEq, Repr

/-- 10_state.md R20: the enable state, written by no instruction in scope. `env.AC` of R20 is computed from `AM`, EFLAGS.AC
and `CPL`; `env.x87_pending` is the ES bit of the x87 status word. -/
structure Env where
  /-- CR0 bit 2. -/
  EM       : Bool
  /-- CR0 bit 3. -/
  TS       : Bool
  /-- CR0 bit 18. -/
  AM       : Bool
  /-- CR4 bit 9. -/
  OSFXSR   : Bool
  /-- CR4 bit 18. -/
  OSXSAVE  : Bool
  /-- XCR0 bit 1. -/
  XCR0_SSE : Bool
  /-- XCR0 bit 2. -/
  XCR0_AVX : Bool
  /-- Current privilege level. -/
  CPL      : BitVec 2
  /-- The segment registers: `env.segbase` of R64, the limits and null selectors of R124 and R125. -/
  segs     : Segments
deriving DecidableEq, Repr

/-- The x87 state that the MMX rows touch (10_state.md R22): the status word, the tag word and bits 79:64 of the eight
physical registers; bits 63:0 of those are the MMX registers. -/
structure X87 where
  sw : BitVec 16
  tw : BitVec 16
  hi : Vector (BitVec 16) 8
deriving DecidableEq, Repr

/-- 60_exceptions.md R126: what translation says of a page. -/
inductive PageStatus where
  | notPresent
  | present (supervisor : Bool) (reservedBit : Bool)
deriving DecidableEq, Repr

/-- The linear addresses `first` to `last`, inclusive, and their status (20_memory.md R37). -/
structure PageRange where
  first  : Nat
  last   : Nat
  status : PageStatus
deriving DecidableEq, Repr

/-- The linear addresses `first` to `last`, inclusive, of a device (20_memory.md R35). -/
structure AddrRange where
  first : Nat
  last  : Nat
deriving DecidableEq, Repr

/-- A recorded read of device memory (20_memory.md R35): its linear address and its width in bytes. -/
structure DeviceRead where
  addr  : Addr
  bytes : Nat
deriving DecidableEq, Repr

/-- 20_memory.md R30: the launch memory, bytes at linear addresses, addresses strictly rising. An address that is not
listed is not backed by memory. -/
abbrev Memory := List Host.Cell

/-- Everything the spec gives the machine (INVENTORY.md, State). -/
structure State where
  /-- R6. -/
  mode        : Mode
  /-- R5, R18. -/
  cfg         : Features
  /-- R10: MM0 to MM7. -/
  mm          : Vector MmWord 8
  /-- R11, R12: V0 to V15. -/
  v           : Vector YmmWord 16
  /-- R14: RAX, RCX, RDX, RBX, RSP, RBP, RSI, RDI, R8 to R15. -/
  gpr         : Vector Addr 16
  /-- R15: the offset of the current instruction in the code segment. -/
  pc          : Addr
  /-- R16, R20: EFLAGS/RFLAGS. -/
  rflags      : BitVec 64
  /-- R17. -/
  mxcsr       : BitVec 32
  /-- R22. -/
  x87         : X87
  /-- R20, R64. -/
  env         : Env
  /-- R120: the register in which a page fault's address is recorded. -/
  cr2         : Addr
  /-- R37, R126: the data of Translate; the first range that holds an address gives its status, an address in no range is
  admitted. -/
  pages       : List PageRange
  /-- R35. -/
  devices     : List AddrRange
  /-- R35: the recorded reads, oldest first. -/
  deviceReads : List DeviceRead
  /-- R30, R37. -/
  mem         : Memory
deriving DecidableEq, Repr

/-- 60_exceptions.md R120: the exceptions, with what R130 reports of each. -/
inductive Exc where
  | ud
  | nm
  | ss
  | gp
  | pf (code : BitVec 32) (addr : Addr)
  | mf
  | ac
deriving DecidableEq, Repr

/-- Why the machine stops with a fault. -/
inductive Fault where
  /-- R130: the outcome Fault(vector, code, address?) of an exception. Raised by every instruction and by fetching and
  decoding. Safe: terminal, and no state is claimed after it. -/
  | exception (vector : Nat) (code : Option (BitVec 32)) (address : Option Addr)
  /-- R37, U17: a memory operand has a byte (its linear address) outside the launch memory that Translate does not fault:
  no step. Raised by the rows with a memory operand. Safe: the model stops. -/
  | stuckRead (addr : Addr)
  /-- The bytes at pc cannot be fetched up to the end of an instruction, from this linear address on (log 8): no step.
  Raised by fetching. Safe: the model stops. -/
  | stuckFetch (addr : Addr)
deriving DecidableEq, Repr

/-- Why a step has no meaning. -/
inductive Refusal where
  /-- An instruction whose meaning is not written. Raised by no arm of exec. Safe. -/
  | notModelled (mnemonic : String)
  /-- R73, R71, R61: the bytes have no meaning in this spec. Raised by decoding, and by an instruction that only a
  hand-made term could hold (log 22). Safe: the model stops. -/
  | encoding (r : DecodeRefusal)
  /-- R15, D15: `pc + len` wraps past the top of the address space. Raised by every instruction and by fetching. Safe: the
  model stops. -/
  | pcWraps
deriving DecidableEq, Repr

/-- 30_encoding.md R64: the flat segment of base 0, its limit the whole 32-bit space. -/
def Segment.flat : Segment := ⟨0#64, 0xFFFFFFFF#32, false⟩

/-- R64: flat memory. -/
def Segments.flat : Segments := ⟨.flat, .flat, .flat, .flat, .flat, .flat⟩

/-- 10_state.md R20: the values of "the page's semantics alone" (`env0` of 95_test_vectors.md), flat segments, CPL 0
(log 1, log 7, log 26). -/
def Env.launch : Env := ⟨false, false, false, true, true, true, true, 0#2, .flat⟩

/-- 70_reset_and_hazards.md R151: the enable state right after a hardware reset, CR0 = 0x60000010, CR4 = 0, XCR0 = 1; used in
statements only. R151 gives no privilege level and no segment registers: CPL 0 and six flat segments are the model's choice
(DESIGN CHOICE, log 26, log 7), and no statement rests on them. -/
def Env.hardwareReset : Env := ⟨false, false, false, false, false, false, false, 0#2, .flat⟩

/-- 10_state.md R22, 70_reset_and_hazards.md R151: +0.0 in every register, all tags empty (log 2). -/
def X87.reset : X87 := ⟨0#16, 0xFFFF#16, Vector.replicate 8 0#16⟩

/-- The launch state that stands in for reset (70_reset_and_hazards.md R150; log 1): the standing launch state of
95_test_vectors.md, every register it leaves open zero but for those of log 2. -/
def State.reset : State where
  mode        := .mode64
  cfg         := ⟨true, true, true, true⟩
  mm          := Vector.replicate 8 0#64
  v           := Vector.replicate 16 0#256
  gpr         := Vector.replicate 16 0#64
  pc          := 0x1000#64
  rflags      := 2#64
  mxcsr       := 0x1F80#32
  x87         := .reset
  env         := .launch
  cr2         := 0#64
  pages       := []
  devices     := []
  deviceReads := []
  mem         := []

end Sys2Proof.Machine
end

