-- ==== Sys2Proof/Machine/Flags.lean ====
section
/-! DEFINITION. Flags. No instruction in scope reads or writes a status flag or MXCSR (10_state.md R16, R17); what
remains is alignment checking, which R20 defines from EFLAGS.AC, and the x87 status and tag words (R20, R22). -/

namespace Sys2Proof.Machine

/-- 10_state.md R20, `env.AC`: CR0.AM = 1, EFLAGS.AC (bit 18) = 1 and CPL = 3. -/
def State.alignCheck (s : State) : Bool :=
  s.env.AM && s.rflags.getLsbD 18 && s.env.CPL == 3#2

/-- The ES bit of the x87 status word; its position, bit 7, is the family's (log 3). -/
def X87.es (x : X87) : Bool := x.sw.getLsbD 7

/-- The top-of-stack field of the x87 status word; its position, bits 13:11, is the family's (log 3). -/
def X87.top (x : X87) : BitVec 3 := x.sw.extractLsb' 11 3

/-- 10_state.md R20, `env.x87_pending`: an unmasked x87 exception is pending. -/
def State.x87Pending (s : State) : Bool := s.x87.es

/-- 10_state.md R22: what every MMX instruction does to the x87 unit on completion: top-of-stack 0, every tag valid. -/
def X87.afterMmx (x : X87) : X87 :=
  { x with sw := x.sw &&& 0xC7FF#16, tw := 0#16 }

end Sys2Proof.Machine
end

