-- ==== Sys2Proof/Machine/Ops.lean ====
section
/-! DEFINITION. The named operations over registers and memory, raising an exception, the checks before an instruction,
and completing it. -/

namespace Sys2Proof.Machine

/-- The outcome of a step of this machine. -/
abbrev Result := Host.Outcome State Fault Refusal

/-! ## Registers -/

/-- 30_encoding.md R60, D24; 10_state.md R11, R14: outside Mode64 only the numbers 0 to 7 exist; a number is taken
modulo 8. -/
def effNum (m : Mode) (r : BitVec 4) : BitVec 4 :=
  match m with
  | .mode64 => r
  | .mode32 => r &&& 7#4

/-- R8: `MM[i]`. -/
def State.mmAt (s : State) (i : BitVec 3) : MmWord := s.mm.get i.toFin

/-- R8: all bits of vector register `i`, `YMM[i]`. -/
def State.ymmAt (s : State) (i : BitVec 4) : YmmWord := s.v.get (effNum s.mode i).toFin

/-- R8: `XMM[i]`, bits 127:0 of vector register `i`. -/
def State.xmmAt (s : State) (i : BitVec 4) : XmmWord := (s.ymmAt i).extractLsb' 0 128

/-- R8, R14: `GPR[i]` as an address uses it; in Mode32 its low 32 bits. -/
def State.gprAt (s : State) (i : BitVec 4) : Addr :=
  match s.mode with
  | .mode64 => s.gpr.get i.toFin
  | .mode32 => ((s.gpr.get (effNum .mode32 i).toFin).setWidth 32).setWidth 64

/-- R8, R22: `MM[i] <- x`, which sets bits 79:64 of the aliased x87 register to ones. -/
def State.setMm (s : State) (i : BitVec 3) (x : MmWord) : State :=
  { s with
    mm := s.mm.set i.toNat x i.isLt
    x87 := { s.x87 with hi := s.x87.hi.set i.toNat 0xFFFF#16 i.isLt } }

/-- R8: `YMM[i] <- x`. -/
def State.setYmm (s : State) (i : BitVec 4) (x : YmmWord) : State :=
  { s with v := s.v.set (effNum s.mode i).toNat x (effNum s.mode i).isLt }

/-- 10_state.md R13, legacy SSE2: bits 127:0 written, the bits above unchanged. -/
def State.setXmmKeep (s : State) (i : BitVec 4) (x : XmmWord) : State :=
  s.setYmm i ((s.ymmAt i).extractLsb' 128 128 ++ x)

/-- 10_state.md R13, VEX.128: bits 127:0 written, the bits above zeroed. -/
def State.setXmmZero (s : State) (i : BitVec 4) (x : XmmWord) : State :=
  s.setYmm i (0#128 ++ x)

/-! ## Memory -/

/-- The byte at an address, if the memory lists one. -/
def Memory.read (m : Memory) (a : Nat) : Option Byte :=
  (m.find? (fun c => c.1 == a)).map Prod.snd

/-- One byte written, the addresses kept strictly rising. -/
def Memory.write : Memory → Nat → Byte → Memory
  | [], a, b => [(a, b)]
  | c :: m, a, b =>
    if a < c.1 then (a, b) :: c :: m
    else if a = c.1 then (a, b) :: m
    else c :: Memory.write m a b

/-- Bytes written from an address up. -/
def Memory.writeBytes (m : Memory) (a : Nat) : List Byte → Memory
  | [] => m
  | b :: bs => Memory.writeBytes (m.write a b) (a + 1) bs

/-- The canonical form: addresses strictly rising (an unlisted address holds nothing, so no byte is a default). -/
def Memory.wf : Memory → Bool
  | [] => true
  | [_] => true
  | c :: d :: m => decide (c.1 < d.1) && Memory.wf (d :: m)

/-- 20_memory.md R31: the value of bytes in little-endian order, the first byte the least significant. -/
def assemble (n : Nat) : List Byte → BitVec n
  | [] => 0#n
  | b :: bs => (assemble n bs <<< 8) ||| b.setWidth n

/-! ## Exceptions -/

/-- 60_exceptions.md R120: the vector numbers. -/
def Exc.vector : Exc → Nat
  | .ud     => 6
  | .nm     => 7
  | .ss     => 12
  | .gp     => 13
  | .pf _ _ => 14
  | .mf     => 16
  | .ac     => 17

/-- R120: the error codes; their width of 32 bits is the model's choice (PRESUMED, log 31). -/
def Exc.code : Exc → Option (BitVec 32)
  | .ud | .nm | .mf => none
  | .ss | .gp | .ac => some 0#32
  | .pf code _ => some code

/-- R120: a page fault records a linear address. -/
def Exc.address : Exc → Option Addr
  | .pf _ a => some a
  | _ => none

/-- TAKING AN EXCEPTION (60_exceptions.md R130, R131): the step ends in Fault(vector, code, address?), nothing is written,
pc stays at the instruction. -/
def raise (e : Exc) : Result := .fault (.exception e.vector e.code e.address)

/-- 60_exceptions.md R121: the #UD conditions of a row, on its feature flag, the enable state and its prefixes. A VEX row
needs `cfg.AVX`, a VEX.256 row beside its own flag (70_reset_and_hazards.md R152; log 30). (mod not
11 on the MI and VMI rows is #UD when decoding, R67; VEX.L = 1 without AVX2 is the feature flag of the VEX.256 rows, R68.) -/
def State.udCond (s : State) (i : Instr) : Bool :=
  !s.cfg.has i.row.needs ||
  match i.row.cls with
  | .mmx => s.env.EM || i.pfx.contains .lock
  | .sse2 => s.env.EM || !s.env.OSFXSR || i.pfx.contains .lock
  | .vex128 | .vex256 =>
    !s.cfg.avx || !s.env.OSXSAVE || !(s.env.XCR0_SSE && s.env.XCR0_AVX) || badVexPfx i.pfx i.rex

/-- 60_exceptions.md R128: `Precheck(row)`: #UD (R121), else #NM (R122), else on the MMX rows #MF (R123). -/
def State.precheck (s : State) (i : Instr) : Option Exc :=
  if s.udCond i then some .ud
  else if s.env.TS then some .nm
  else if i.row.cls = .mmx ∧ s.x87Pending then some .mf
  else none

/-- `Precheck`, then the rest of the instruction; `F2` and `F3` on a legacy row have no meaning (R71; log 22). -/
def State.checked (s : State) (i : Instr) (k : Result) : Result :=
  if i.reservedPfx then .refused (.encoding .reservedPfx)
  else
    match s.precheck i with
    | some e => raise e
    | none => k

/-! ## Completion -/

/-- 10_state.md R15: one more than the largest pc of the mode. -/
def pcTop : Mode → Nat
  | .mode64 => 2 ^ 64
  | .mode32 => 2 ^ 32

/-- R15: pc as the mode reads it. -/
def State.ip (s : State) : Nat := s.pc.toNat % pcTop s.mode

/-- R15: `pc <- pc + len`, and the end of the instruction; a wrap past the top is refused (D15). -/
def State.complete (s : State) (i : Instr) : Result :=
  if s.ip + i.len < pcTop s.mode then .next { s with pc := BitVec.ofNat 64 (s.ip + i.len) }
  else .refused .pcWraps

/-- Completion of an MMX row: the x87 side effects of R22, then as every row. -/
def State.completeMmx (s : State) (i : Instr) : Result :=
  State.complete { s with x87 := s.x87.afterMmx } i

end Sys2Proof.Machine
end

