-- ==== Sys2Proof/Machine/Operands.lean ====
section
/-! DEFINITION. Operands: the address of a memory operand (30_encoding.md R61 to R64), reading it with every check of
60_exceptions.md R124 to R127 in the order of R129, and the count (40_shift_core.md R93). -/

namespace Sys2Proof.Machine

/-! ## Addresses -/

/-- 30_encoding.md R63: the segment of a memory operand; `dsOrSs` is the case R63 leaves open (base register 12 or 13). -/
inductive SegSel where
  | seg (r : SegReg)
  | dsOrSs (base : BitVec 4)
deriving DecidableEq, Repr

/-- A memory operand with its address computed: segment, effective address, and whether the effective address is 64 bits
wide (else 32). -/
structure Access where
  seg  : SegSel
  ea   : Addr
  wide : Bool
deriving DecidableEq, Repr

/-- 30_encoding.md R61: the address size: 64 bits in Mode64 without `67`, else 32. -/
def wideAddr (m : Mode) (pfx : List Pfx) : Bool :=
  match m with
  | .mode64 => !pfx.contains .addrSize
  | .mode32 => false

/-- A value of the address size: all of it, or its low 32 bits zero-extended (R61). -/
def trunc (wide : Bool) (a : Addr) : Addr :=
  if wide then a else (a.setWidth 32).setWidth 64

/-- R61: the displacement, sign-extended. -/
def Disp.value : Disp → Addr
  | .none  => 0#64
  | .d8 d  => d.signExtend 64
  | .d32 d => d.signExtend 64

/-- 30_encoding.md R62: no index register when `X:index` is number 4. -/
def State.indexValue (s : State) (index : BitVec 4) : Addr :=
  if index = 4#4 then 0#64 else s.gprAt index

/-- 30_encoding.md R61, R62: the effective address modulo `2^64`, before truncation to the address size; `len` is the
length of the instruction. -/
def State.ea64 (s : State) (len : Nat) : MemForm → Addr
  | .base b d => s.gprAt b + Disp.value d
  | .sib scale index b d => s.gprAt b + (s.indexValue index <<< scale.toNat) + Disp.value d
  | .sibNoBase scale index d => (s.indexValue index <<< scale.toNat) + d.signExtend 64
  | .disp32 d =>
    match s.mode with
    | .mode64 => s.pc + BitVec.ofNat 64 len + d.signExtend 64
    | .mode32 => d.signExtend 64

/-- R63: the last segment override. -/
def lastOverride : List Pfx → Option SegReg
  | [] => none
  | p :: ps =>
    match lastOverride ps, p with
    | some r, _ => some r
    | none, .seg r => some r
    | none, _ => none

/-- R63: the default segment of a base register. -/
def baseSeg (m : Mode) (b : BitVec 4) : SegSel :=
  let n := effNum m b
  if n = 4#4 ∨ n = 5#4 then .seg .ss
  else if n = 12#4 ∨ n = 13#4 then .dsOrSs n
  else .seg .ds

/-- R63: the default segment of a memory operand. -/
def defaultSeg (m : Mode) : MemForm → SegSel
  | .base b _ => baseSeg m b
  | .sib _ _ b _ => baseSeg m b
  | .sibNoBase .. => .seg .ds
  | .disp32 _ => .seg .ds

/-- R63: the segment of a memory operand. -/
def operandSeg (m : Mode) (pfx : List Pfx) (f : MemForm) : SegSel :=
  match lastOverride pfx with
  | some r => .seg r
  | none => defaultSeg m f

/-- The memory operand of an instruction, resolved (R61 to R63). -/
def State.access (s : State) (i : Instr) (f : MemForm) : Access :=
  let wide := wideAddr s.mode i.pfx
  ⟨operandSeg s.mode i.pfx f, trunc wide (s.ea64 i.len f), wide⟩

/-- The segment register of a name. -/
def Segments.get (g : Segments) : SegReg → Segment
  | .es => g.es
  | .cs => g.cs
  | .ss => g.ss
  | .ds => g.ds
  | .fs => g.fs
  | .gs => g.gs

/-- The segment register of a selection; where R63 leaves SS or DS open (Mode64 only), DS: R64 gives both base 0 there. -/
def State.segOf (s : State) : SegSel → Segment
  | .seg r => Segments.get s.env.segs r
  | .dsOrSs _ => s.env.segs.ds

/-- 30_encoding.md R64: `env.segbase`; in Mode64 it is 0 but for FS and GS. -/
def State.segBase (s : State) (g : SegSel) : Addr :=
  match s.mode with
  | .mode32 => (s.segOf g).base
  | .mode64 =>
    match g with
    | .seg .fs => s.env.segs.fs.base
    | .seg .gs => s.env.segs.gs.base
    | _ => 0#64

/-- R64: the linear address of an offset in a segment, truncated to the linear-address width (R30). -/
def State.linear (s : State) (g : SegSel) (off : Addr) : Addr :=
  trunc (s.mode == .mode64) (s.segBase g + off)

/-- 20_memory.md R32: the offset of byte `k`, in the width of the effective address. -/
def Access.offset (a : Access) (k : Nat) : Addr := trunc a.wide (a.ea + BitVec.ofNat 64 k)

/-- The linear address of byte `k` of an operand (R32, R64). -/
def State.byteAddr (s : State) (a : Access) (k : Nat) : Addr := s.linear a.seg (a.offset k)

/-! ## Checks -/

/-- 20_memory.md R30: bits 63:47 are all equal. -/
def canonical (a : Addr) : Bool := a.extractLsb' 47 17 == 0#17 || a.extractLsb' 47 17 == BitVec.allOnes 17

/-- 60_exceptions.md R124, R125 (b), (c): an offset a segment admits: canonical in Mode64; in Mode32 inside the limit, the
selector not null (a condition R125 states for the segments other than SS). -/
def State.segOk (s : State) (g : SegSel) (off : Addr) : Bool :=
  match s.mode with
  | .mode64 => canonical (s.linear g off)
  | .mode32 => decide (off.toNat ≤ (s.segOf g).limit.toNat) && (!(s.segOf g).null || g == .seg .ss)

/-- R124, R125: the exception for a segment that does not admit a byte (the open case is the free value of log 10). -/
def segFault : SegSel → Exc
  | .seg .ss => .ss
  | .seg _ => .gp
  | .dsOrSs b => if Config.extBaseIsSS b then .ss else .gp

/-- 20_memory.md R37: what the data of Translate says of a linear address. -/
def State.pageStatus (s : State) (a : Addr) : PageStatus :=
  match s.pages.find? (fun r => decide (r.first ≤ a.toNat ∧ a.toNat ≤ r.last)) with
  | some r => r.status
  | none => .present false false

/-- 60_exceptions.md R120, R126: the page-fault code of a read of a byte (P bit 0, U/S bit 2, RSVD bit 3), if translation
fails. The width of 32 bits, and 0 in bits 31:5, are the model's choice (PRESUMED, log 31). -/
def State.pageFault (s : State) (a : Addr) : Option (BitVec 32) :=
  let user := s.env.CPL == 3#2
  let us := if user then 4#32 else 0#32
  match s.pageStatus a with
  | .notPresent => some us
  | .present supervisor reservedBit =>
    if reservedBit then some (us ||| 9#32)
    else if supervisor && user then some (us ||| 1#32)
    else none

/-- The bytes of an operand whose translation fails, in the order of the operand (R126). -/
def State.failing (s : State) (a : Access) (n : Nat) : List Exc :=
  (List.range n).filterMap fun k =>
    (s.pageFault (s.byteAddr a k)).map fun code => .pf code (s.byteAddr a k)

/-- 20_memory.md R34: the alignment rule of a row. -/
inductive AlignRule where
  /-- VEX rows. -/
  | none
  /-- Legacy SSE2 rows: 16 bytes, #GP(0). -/
  | sse16
  /-- MMX rows: 8 bytes when alignment checking is on, #AC(0). -/
  | mmx8
deriving DecidableEq, Repr

/-! ## Reading -/

/-- 20_memory.md R35: the address belongs to a device. -/
def State.isDevice (s : State) (a : Addr) : Bool :=
  s.devices.any fun r => decide (r.first ≤ a.toNat ∧ a.toNat ≤ r.last)

/-- What the memory oracle answers for a linear address (R32, R35): a device's byte is a free value (log 11). -/
def State.byteAt (s : State) (a : Addr) : Option Byte :=
  if s.isDevice a then some (Config.deviceByte s.deviceReads.length a) else Memory.read s.mem a.toNat

/-- The bytes `k`, `k + 1`, … of an operand, `n` of them, or the first address outside the launch memory. -/
def State.load (s : State) (a : Access) (k : Nat) : Nat → Except Addr (List Byte)
  | 0 => .ok []
  | n + 1 =>
    match s.byteAt (s.byteAddr a k), s.load a (k + 1) n with
    | some b, .ok bs => .ok (b :: bs)
    | none, _ => .error (s.byteAddr a k)
    | some _, .error e => .error e

/-- 20_memory.md R32, R34, 60_exceptions.md R129: `MemRead(linear, n)`: every check, in order, then the value; else the
outcome of the step. -/
def State.memRead (s : State) (a : Access) (n : Nat) (align : AlignRule) : Except Result (List Byte) :=
  if (List.range n).any (fun k => !s.segOk a.seg (a.offset k)) then .error (raise (segFault a.seg))
  else if align = .sse16 ∧ (s.byteAddr a 0).toNat % 16 ≠ 0 then .error (raise .gp)
  else
    match s.failing a n with
    | e :: es =>
      .error (raise ((e :: es).getD (Config.pageFaultPick (s.byteAddr a 0) (es.length + 1) % (es.length + 1)) e))
    | [] =>
      if align = .mmx8 ∧ s.alignCheck ∧ (s.byteAddr a 0).toNat % 8 ≠ 0 then .error (raise .ac)
      else
        match s.load a 0 n with
        | .ok bs => .ok bs
        | .error b => .error (.fault (.stuckRead b))

/-- 20_memory.md R35: a read that touches a device is recorded. -/
def State.noteRead (s : State) (a : Access) (n : Nat) : State :=
  if (List.range n).any (fun k => s.isDevice (s.byteAddr a k)) then
    { s with deviceReads := s.deviceReads ++ [⟨s.byteAddr a 0, n⟩] }
  else s

/-- A memory operand read: the rest of the instruction runs on its bytes and the state after the read. 16-bit addressing is
refused (R61, D20). -/
def State.withMem (s : State) (i : Instr) (f : MemForm) (n : Nat) (align : AlignRule)
    (k : List Byte → State → Result) : Result :=
  if addr16 s.mode i.pfx then .refused (.encoding .addressing16)
  else
    match s.memRead (s.access i f) n align with
    | .ok bs => k bs (s.noteRead (s.access i f) n)
    | .error r => r

/-! ## The count -/

/-- 40_shift_core.md R93: `count_of` an `mm/m64` operand: all 64 bits. -/
def State.withCountMm (s : State) (i : Instr) (c : MmRm) (k : Nat → State → Result) : Result :=
  match c with
  | .reg r => k (s.mmAt r).toNat s
  | .mem f => s.withMem i f 8 .mmx8 fun bs t => k (assemble 64 bs).toNat t

/-- R93: `count_of` an `xmm/m128` operand: bits 63:0; all 16 bytes are read. -/
def State.withCountXmm (s : State) (i : Instr) (align : AlignRule) (c : XmmRm) (k : Nat → State → Result) : Result :=
  match c with
  | .reg r => k ((s.xmmAt r).extractLsb' 0 64).toNat s
  | .mem f => s.withMem i f 16 align fun bs t => k ((assemble 128 bs).extractLsb' 0 64).toNat t

end Sys2Proof.Machine
end

