-- ==== Sys2Proof/Machine/Shift.lean ====
section
/-! DEFINITION. The shift shared by all sixteen rows (40_shift_core.md R90 to R96). -/

namespace Sys2Proof.Machine

/-- 40_shift_core.md R90: one word; a count above 15 is taken as 16, as in the page's pseudocode. -/
def sra16 (x : BitVec 16) (c : Nat) : BitVec 16 := x.sshiftRight (if c > 15 then 16 else c)

/-- 40_shift_core.md R91: one doubleword; a count above 31 is taken as 32. -/
def sra32 (x : BitVec 32) (c : Nat) : BitVec 32 := x.sshiftRight (if c > 31 then 32 else c)

/-- `f` on each of the `k` lowest elements of `w` bits of `x`, each result in the place of its element. -/
def mapLanes {n : Nat} (w : Nat) (f : BitVec w → BitVec w) (x : BitVec n) : Nat → BitVec n
  | 0     => 0#n
  | k + 1 => mapLanes w f x k ||| ((f (x.extractLsb' (w * k) w)).setWidth n <<< (w * k))

/-- 40_shift_core.md R94: `SRA_WORDS_n(src, c)`. -/
def sraWords {n : Nat} (src : BitVec n) (c : Nat) : BitVec n :=
  mapLanes 16 (fun x => sra16 x c) src (n / 16)

/-- 40_shift_core.md R95: `SRA_DWORDS_n(src, c)`. -/
def sraDwords {n : Nat} (src : BitVec n) (c : Nat) : BitVec n :=
  mapLanes 32 (fun x => sra32 x c) src (n / 32)

end Sys2Proof.Machine
end

