-- ==== Sys2Proof/Machine/Psrad.lean ====
section
/-! DEFINITION. PSRAD and VPSRAD: packed doublewords shifted right arithmetically (42_psrad.md, rules R110 to R117). -/

namespace Sys2Proof.Machine

/-- Row 9, PSRAD mm, mm/m64 (R110). -/
def execPsradMm (e : LegacyEnc) (dst : BitVec 3) (count : MmRm) (s : State) : Result :=
  let i : Instr := .psradMm e dst count
  s.checked i <| s.withCountMm i count fun c t =>
    State.completeMmx (t.setMm dst (sraDwords (s.mmAt dst) c)) i

/-- Row 10, PSRAD xmm1, xmm2/m128 (R111): bits 255:128 unchanged; a memory count 16-byte aligned. -/
def execPsradXmm (e : LegacyEnc) (dst : BitVec 4) (count : XmmRm) (s : State) : Result :=
  let i : Instr := .psradXmm e dst count
  s.checked i <| s.withCountXmm i .sse16 count fun c t =>
    State.complete (t.setXmmKeep dst (sraDwords (s.xmmAt dst) c)) i

/-- Row 11, PSRAD mm, imm8 (R112). -/
def execPsradMmImm (e : LegacyEnc) (dst : BitVec 3) (imm : BitVec 8) (s : State) : Result :=
  let i : Instr := .psradMmImm e dst imm
  s.checked i <| State.completeMmx (s.setMm dst (sraDwords (s.mmAt dst) imm.toNat)) i

/-- Row 12, PSRAD xmm1, imm8 (R113): bits 255:128 unchanged. -/
def execPsradXmmImm (e : LegacyEnc) (dst : BitVec 4) (imm : BitVec 8) (s : State) : Result :=
  let i : Instr := .psradXmmImm e dst imm
  s.checked i <| State.complete (s.setXmmKeep dst (sraDwords (s.xmmAt dst) imm.toNat)) i

/-- Row 13, VPSRAD xmm1, xmm2, xmm3/m128 (R114): bits 255:128 zeroed; no alignment requirement. -/
def execVpsradXmm (e : VexEnc) (dst src : BitVec 4) (count : XmmRm) (s : State) : Result :=
  let i : Instr := .vpsradXmm e dst src count
  s.checked i <| s.withCountXmm i .none count fun c t =>
    State.complete (t.setXmmZero dst (sraDwords (s.xmmAt src) c)) i

/-- Row 14, VPSRAD xmm1, xmm2, imm8 (R115): bits 255:128 zeroed. -/
def execVpsradXmmImm (e : VexEnc) (dst src : BitVec 4) (imm : BitVec 8) (s : State) : Result :=
  let i : Instr := .vpsradXmmImm e dst src imm
  s.checked i <| State.complete (s.setXmmZero dst (sraDwords (s.xmmAt src) imm.toNat)) i

/-- Row 15, VPSRAD ymm1, ymm2, xmm3/m128 (R116): one count for both halves; no alignment requirement. -/
def execVpsradYmm (e : VexEnc) (dst src : BitVec 4) (count : XmmRm) (s : State) : Result :=
  let i : Instr := .vpsradYmm e dst src count
  s.checked i <| s.withCountXmm i .none count fun c t =>
    State.complete (t.setYmm dst (sraDwords (s.ymmAt src) c)) i

/-- Row 16, VPSRAD ymm1, ymm2, imm8 (R117). -/
def execVpsradYmmImm (e : VexEnc) (dst src : BitVec 4) (imm : BitVec 8) (s : State) : Result :=
  let i : Instr := .vpsradYmmImm e dst src imm
  s.checked i <| State.complete (s.setYmm dst (sraDwords (s.ymmAt src) imm.toNat)) i

end Sys2Proof.Machine
end

