-- ==== Sys2Proof/Machine/Psraw.lean ====
section
/-! DEFINITION. PSRAW and VPSRAW: packed words shifted right arithmetically (41_psraw.md, rules R100 to R107). -/

namespace Sys2Proof.Machine

/-- Row 1, PSRAW mm, mm/m64 (R100). -/
def execPsrawMm (e : LegacyEnc) (dst : BitVec 3) (count : MmRm) (s : State) : Result :=
  let i : Instr := .psrawMm e dst count
  s.checked i <| s.withCountMm i count fun c t =>
    State.completeMmx (t.setMm dst (sraWords (s.mmAt dst) c)) i

/-- Row 2, PSRAW xmm1, xmm2/m128 (R101): bits 255:128 unchanged; a memory count 16-byte aligned. -/
def execPsrawXmm (e : LegacyEnc) (dst : BitVec 4) (count : XmmRm) (s : State) : Result :=
  let i : Instr := .psrawXmm e dst count
  s.checked i <| s.withCountXmm i .sse16 count fun c t =>
    State.complete (t.setXmmKeep dst (sraWords (s.xmmAt dst) c)) i

/-- Row 3, PSRAW mm, imm8 (R102). -/
def execPsrawMmImm (e : LegacyEnc) (dst : BitVec 3) (imm : BitVec 8) (s : State) : Result :=
  let i : Instr := .psrawMmImm e dst imm
  s.checked i <| State.completeMmx (s.setMm dst (sraWords (s.mmAt dst) imm.toNat)) i

/-- Row 4, PSRAW xmm1, imm8 (R103): bits 255:128 unchanged. -/
def execPsrawXmmImm (e : LegacyEnc) (dst : BitVec 4) (imm : BitVec 8) (s : State) : Result :=
  let i : Instr := .psrawXmmImm e dst imm
  s.checked i <| State.complete (s.setXmmKeep dst (sraWords (s.xmmAt dst) imm.toNat)) i

/-- Row 5, VPSRAW xmm1, xmm2, xmm3/m128 (R104): bits 255:128 zeroed; no alignment requirement. -/
def execVpsrawXmm (e : VexEnc) (dst src : BitVec 4) (count : XmmRm) (s : State) : Result :=
  let i : Instr := .vpsrawXmm e dst src count
  s.checked i <| s.withCountXmm i .none count fun c t =>
    State.complete (t.setXmmZero dst (sraWords (s.xmmAt src) c)) i

/-- Row 6, VPSRAW xmm1, xmm2, imm8 (R105): bits 255:128 zeroed. -/
def execVpsrawXmmImm (e : VexEnc) (dst src : BitVec 4) (imm : BitVec 8) (s : State) : Result :=
  let i : Instr := .vpsrawXmmImm e dst src imm
  s.checked i <| State.complete (s.setXmmZero dst (sraWords (s.xmmAt src) imm.toNat)) i

/-- Row 7, VPSRAW ymm1, ymm2, xmm3/m128 (R106): one count for both halves; no alignment requirement. -/
def execVpsrawYmm (e : VexEnc) (dst src : BitVec 4) (count : XmmRm) (s : State) : Result :=
  let i : Instr := .vpsrawYmm e dst src count
  s.checked i <| s.withCountXmm i .none count fun c t =>
    State.complete (t.setYmm dst (sraWords (s.ymmAt src) c)) i

/-- Row 8, VPSRAW ymm1, ymm2, imm8 (R107). -/
def execVpsrawYmmImm (e : VexEnc) (dst src : BitVec 4) (imm : BitVec 8) (s : State) : Result :=
  let i : Instr := .vpsrawYmmImm e dst src imm
  s.checked i <| State.complete (s.setYmm dst (sraWords (s.ymmAt src) imm.toNat)) i

end Sys2Proof.Machine
end

