-- ==== Sys2Proof/Machine/Dispatch.lean ====
section
/-! DEFINITION. One arm per row of the opcode table. -/

namespace Sys2Proof.Machine

def exec (i : Instr) (s : State) : Host.Outcome State Fault Refusal :=
  match i with
  | .psrawMm e dst count => Sys2Proof.Machine.execPsrawMm e dst count s
  | .psrawXmm e dst count => Sys2Proof.Machine.execPsrawXmm e dst count s
  | .psrawMmImm e dst imm => Sys2Proof.Machine.execPsrawMmImm e dst imm s
  | .psrawXmmImm e dst imm => Sys2Proof.Machine.execPsrawXmmImm e dst imm s
  | .vpsrawXmm e dst src count => Sys2Proof.Machine.execVpsrawXmm e dst src count s
  | .vpsrawXmmImm e dst src imm => Sys2Proof.Machine.execVpsrawXmmImm e dst src imm s
  | .vpsrawYmm e dst src count => Sys2Proof.Machine.execVpsrawYmm e dst src count s
  | .vpsrawYmmImm e dst src imm => Sys2Proof.Machine.execVpsrawYmmImm e dst src imm s
  | .psradMm e dst count => Sys2Proof.Machine.execPsradMm e dst count s
  | .psradXmm e dst count => Sys2Proof.Machine.execPsradXmm e dst count s
  | .psradMmImm e dst imm => Sys2Proof.Machine.execPsradMmImm e dst imm s
  | .psradXmmImm e dst imm => Sys2Proof.Machine.execPsradXmmImm e dst imm s
  | .vpsradXmm e dst src count => Sys2Proof.Machine.execVpsradXmm e dst src count s
  | .vpsradXmmImm e dst src imm => Sys2Proof.Machine.execVpsradXmmImm e dst src imm s
  | .vpsradYmm e dst src count => Sys2Proof.Machine.execVpsradYmm e dst src count s
  | .vpsradYmmImm e dst src imm => Sys2Proof.Machine.execVpsradYmmImm e dst src imm s

end Sys2Proof.Machine
end

