-- ==== Sys2Proof/Machine/Fetch.lean ====
section
/-! DEFINITION. Fetching the instruction at pc (10_state.md R15, R21; 30_encoding.md R72, R75). -/

namespace Sys2Proof.Machine

/-- 10_state.md R15, R21: the byte at offset `off` of the code segment, if it can be fetched: inside the segment, on a page
that translation admits, in ordinary memory that holds a byte (log 8). -/
def State.codeByte (s : State) (off : Addr) : Option Byte :=
  let a := s.linear (.seg .cs) off
  if s.segOk (.seg .cs) off && (s.pageFault a).isNone && !s.isDevice a then Memory.read s.mem a.toNat else none

/-- The bytes from offset `off`, at most `n`, up to the first that cannot be fetched or the top of the address space. -/
def State.codeBytes (s : State) (off : Nat) : Nat → List Byte
  | 0 => []
  | n + 1 =>
    if off < pcTop s.mode then
      match s.codeByte (BitVec.ofNat 64 off) with
      | some b => b :: s.codeBytes (off + 1) n
      | none => []
    else []

/-- The bytes at pc, as many as the longest instruction has. -/
def State.window (s : State) : List Byte := s.codeBytes s.ip maxLen

/-- What a fetch gives: an instruction to execute, or the outcome of the step. -/
inductive Fetched where
  | run (i : Instr)
  | stop (r : Result)

/-- What a decoded window means for the step: an instruction runs; #UD (R75); no meaning (R73); bytes that do not hold a
whole instruction are #GP(0) if they are 15 (R72, R125), a refused wrap at the top of the address space (D15), else stuck
(log 8, log 14). -/
def State.fetched (s : State) (window : List Byte) : Fetched :=
  match decode s.mode window with
  | .instr i _ => .run i
  | .ud => .stop (raise .ud)
  | .refused r => .stop (.refused (.encoding r))
  | .short =>
    if window.length = maxLen then .stop (raise .gp)
    else if s.ip + window.length < pcTop s.mode then
      .stop (.fault (.stuckFetch (s.linear (.seg .cs) (BitVec.ofNat 64 (s.ip + window.length)))))
    else .stop (.refused .pcWraps)

/-- The bytes `bs` placed at offset `off` of the code segment, byte by byte. -/
def State.placeCode (s : State) (off : Nat) : List Byte → Memory → Memory
  | [], m => m
  | b :: bs, m =>
    s.placeCode (off + 1) bs (Memory.write m (s.linear (.seg .cs) (BitVec.ofNat 64 off)).toNat b)

end Sys2Proof.Machine
end

