-- ==== Sys2Proof/Machine/Step.lean ====
section
/-! DEFINITION. One step: fetch at pc, decode, execute. -/

namespace Sys2Proof.Machine

/-- One step of the machine (10_state.md R15): the instruction at pc runs, or the fetch ends the step. -/
def step (s : State) : Host.Outcome State Fault Refusal :=
  match s.fetched s.window with
  | .run i => exec i s
  | .stop r => r

/-- The state with the instruction whose bits are `w` (numbered as the opcode table numbers them, every bit above `nbits`
0) in memory at pc, 15 bytes in all: it stands for the load of a program (log 20). -/
def State.withFetchWord (s : State) (nbits w : Nat) : State :=
  { s with mem := s.placeCode s.ip (tableBytes nbits w) s.mem }

end Sys2Proof.Machine
end

