-- ==== Sys2Proof/WellFormed.lean ====
section
/-! DEFINITION. Well-formed instructions: those some byte string encodes in a mode (30_encoding.md R50 to R72) and that
no rule on prefixes makes #UD or refuses (R71). -/

namespace Sys2Proof

/-- The number agrees with the extension bit that carries its bit 3 (R60). -/
def numOk (ext : Bool) (r : BitVec 4) : Bool := r.msb == ext

/-- R61, R62: the memory operand is one that ModRM, SIB and the extension bits X and B can name. -/
def MemForm.wf (x b : Bool) : MemForm → Bool
  | .base r d => numOk b r && regField r != 4#3 && (d != .none || regField r != 5#3)
  | .sib _ index r d => numOk x index && numOk b r && (d != .none || regField r != 5#3)
  | .sibNoBase _ index _ => numOk x index
  | .disp32 _ => true

/-- The operand of the MMX rows: any register, or a memory operand with an address of 32 or 64 bits (D20). -/
def mmRmWf (m : Mode) (pfx : List Pfx) (x b : Bool) : MmRm → Bool
  | .reg _ => true
  | .mem f => !addr16 m pfx && f.wf x b

/-- The operand of the XMM rows. -/
def xmmRmWf (m : Mode) (pfx : List Pfx) (x b : Bool) : XmmRm → Bool
  | .reg r => numOk b r
  | .mem f => !addr16 m pfx && f.wf x b

/-- R50, R71: a REX only in Mode64, no LOCK, no `F2`, no `F3`; `66` on the XMM rows and only there. -/
def LegacyEnc.wf (m : Mode) (xmm : Bool) (e : LegacyEnc) : Bool :=
  (e.rex.isNone || m == .mode64) && !e.pfx.contains .lock && !e.pfx.contains .repne && !e.pfx.contains .rep
    && e.pfx.contains .opSize == xmm

/-- R55, R71: nothing in front of VEX but segment overrides and `67`; the 2-byte form implies X = B = W = 0; in Mode32
bits 7:6 of the byte after `C4` or `C5` are 11. -/
def VexEnc.wf (m : Mode) (vvvv : BitVec 4) (e : VexEnc) : Bool :=
  !badVexPfx e.pfx e.rex && (e.three || (!e.x && !e.b && !e.w))
    && (m == .mode64 || (!e.r && if e.three then !e.x else !vvvv.msb))

/-- R72: no more than 15 bytes. -/
def Instr.lenOk (i : Instr) : Bool := decide (i.len ≤ maxLen)

/-- The fields of the instruction are ones that the encoding of the mode gives, whatever its length. -/
def Instr.fieldsWf (m : Mode) (i : Instr) : Bool :=
  match i with
  | .psrawMm e _ c | .psradMm e _ c => e.wf m false && mmRmWf m e.pfx e.x e.b c
  | .psrawXmm e dst c | .psradXmm e dst c => e.wf m true && numOk e.r dst && xmmRmWf m e.pfx e.x e.b c
  | .psrawMmImm e _ _ | .psradMmImm e _ _ => e.wf m false
  | .psrawXmmImm e dst _ | .psradXmmImm e dst _ => e.wf m true && numOk e.b dst
  | .vpsrawXmm e dst src c | .vpsrawYmm e dst src c | .vpsradXmm e dst src c | .vpsradYmm e dst src c =>
    e.wf m src && numOk e.r dst && xmmRmWf m e.pfx e.x e.b c
  | .vpsrawXmmImm e dst src _ | .vpsrawYmmImm e dst src _ | .vpsradXmmImm e dst src _ | .vpsradYmmImm e dst src _ =>
    e.wf m dst && numOk e.b src

/-- The instruction is one that the encoding of the mode gives. -/
def Instr.wf (m : Mode) (i : Instr) : Bool := i.lenOk && i.fieldsWf m

end Sys2Proof
end

