-- ==== Sys2Proof/Safety.lean ====
section
/-! DEFINITION. The terms claims are stated in: the invariant of the machine, what an instruction leaves unchanged, the
premises under which it completes, and what its result is. None of these is used by the step. -/

namespace Sys2Proof.Machine

/-! ## Safe runs -/

/-- 60_exceptions.md R130: "no fault": the step gives a next state. -/
def Completes (r : Result) : Prop := ∃ t, r = .next t

/-- The invariant of every state of a run: memory is in its canonical form, and in Mode32 pc is an offset of 32 bits
(10_state.md R15). -/
def State.Inv (s : State) : Prop := Memory.wf s.mem = true ∧ s.pc.toNat < pcTop s.mode

/-! ## What is left unchanged -/

/-- Everything no instruction in scope writes: mode and features (R18), general registers (R14), flags (R16), MXCSR (R17),
enable state and segments (R20), the data of translation and devices, every byte of memory (R36). -/
structure SameSystem (s t : State) : Prop where
  mode    : t.mode = s.mode
  cfg     : t.cfg = s.cfg
  gpr     : t.gpr = s.gpr
  rflags  : t.rflags = s.rflags
  mxcsr   : t.mxcsr = s.mxcsr
  env     : t.env = s.env
  cr2     : t.cr2 = s.cr2
  pages   : t.pages = s.pages
  devices : t.devices = s.devices
  mem     : ∀ a, Memory.read t.mem a = Memory.read s.mem a

/-- The recorded device reads are as before, unless the operand of `n` bytes touches a device: then its read is added
(20_memory.md R35). -/
def ReadNoted (s t : State) (a : Access) (n : Nat) : Prop :=
  ((∀ k < n, s.isDevice (s.byteAddr a k) = false) → t.deviceReads = s.deviceReads) ∧
  ((∃ k < n, s.isDevice (s.byteAddr a k) = true) →
    t.deviceReads = s.deviceReads ++ [⟨s.byteAddr a 0, n⟩])

/-- The device reads after an instruction with this count operand (`n` bytes when it is in memory). -/
def CountNoted {w : Nat} (s t : State) (i : Instr) (n : Nat) : RegMem w → Prop
  | .reg _ => t.deviceReads = s.deviceReads
  | .mem f => ReadNoted s t (s.access i f) n

/-- 10_state.md R15: pc moved past the instruction. -/
def Advanced (s t : State) (i : Instr) : Prop := t.pc.toNat = s.ip + i.len

/-! ## When an instruction completes -/

/-- R15, D15: the next pc does not wrap. -/
def NoWrap (s : State) (i : Instr) : Prop := s.ip + i.len < pcTop s.mode

/-- 70_reset_and_hazards.md R152, first line: the premises of the MMX rows. -/
structure MmxReady (s : State) : Prop where
  flag    : s.cfg.mmx = true
  em      : s.env.EM = false
  ts      : s.env.TS = false
  pending : s.x87Pending = false

/-- R152, second line: the premises of the legacy SSE2 rows. -/
structure Sse2Ready (s : State) : Prop where
  flag   : s.cfg.sse2 = true
  em     : s.env.EM = false
  osfxsr : s.env.OSFXSR = true
  ts     : s.env.TS = false

/-- R152, third and fourth line: the premises of the VEX rows that need this feature flag; those of VEX.128, `cfg.AVX`
among them, hold for VEX.256 too. -/
structure VexReady (s : State) (f : Feature) : Prop where
  flag    : s.cfg.has f = true
  avxFlag : s.cfg.avx = true
  osxsave : s.env.OSXSAVE = true
  sse     : s.env.XCR0_SSE = true
  avx     : s.env.XCR0_AVX = true
  ts      : s.env.TS = false

/-- 60_exceptions.md R124, R125 (b), (c): the segment admits the byte at this offset: in Mode64 bits 63:47 of its linear
address are all equal; in Mode32 it is inside the segment limit and, but for SS, the selector is not null. -/
def InSegment (s : State) (g : SegSel) (off : Addr) : Prop :=
  match s.mode with
  | .mode64 => ∀ b, 47 ≤ b → b < 64 → (s.linear g off).getLsbD b = (s.linear g off).getLsbD 63
  | .mode32 => off.toNat ≤ (s.segOf g).limit.toNat ∧ (g = .seg .ss ∨ (s.segOf g).null = false)

/-- 60_exceptions.md R126: translation of the linear address does not fail. -/
def Admitted (s : State) (a : Addr) : Prop :=
  ∃ supervisor, s.pageStatus a = .present supervisor false ∧ (supervisor = true → s.env.CPL ≠ 3#2)

/-- R152, fifth line; 60_exceptions.md R124 to R126: every byte of the operand is admitted and can be read. -/
structure Readable (s : State) (a : Access) (n : Nat) : Prop where
  inside   : ∀ k < n, InSegment s a.seg (a.offset k)
  admitted : ∀ k < n, Admitted s (s.byteAddr a k)
  present  : ∀ k < n, (s.byteAt (s.byteAddr a k)).isSome = true

/-- 20_memory.md R31: the first 8 bytes of the operand are the 64-bit number `c`, the lowest byte first. -/
def CountBytes (s : State) (a : Access) (c : Nat) : Prop :=
  c < 2 ^ 64 ∧ ∀ k < 8, s.byteAt (s.byteAddr a k) = some ((BitVec.ofNat 64 c).extractLsb' (8 * k) 8)

/-- 40_shift_core.md R93: the `mm/m64` operand can be read and is the count `c`. -/
def CountMm (s : State) (i : Instr) (c : Nat) : MmRm → Prop
  | .reg r => c = (s.mmAt r).toNat
  | .mem f =>
    Readable s (s.access i f) 8 ∧ (s.alignCheck = true → (s.byteAddr (s.access i f) 0).toNat % 8 = 0) ∧
      CountBytes s (s.access i f) c

/-- R93: the `xmm/m128` operand can be read and is the count `c`; `aligned` on the legacy SSE2 rows (20_memory.md R34). -/
def CountXmm (s : State) (i : Instr) (aligned : Bool) (c : Nat) : XmmRm → Prop
  | .reg r => c = (s.xmmAt r).toNat % 2 ^ 64
  | .mem f =>
    Readable s (s.access i f) 16 ∧ (aligned = true → (s.byteAddr (s.access i f) 0).toNat % 16 = 0) ∧
      CountBytes s (s.access i f) c

/-! ## Results -/

/-- `y` is `x` with each element of `w` bits shifted right by `c`, its sign bit filling (40_shift_core.md R90, R91, R94,
R95): a bit comes from `c` places higher in its element, or from the element's sign bit. -/
def ShiftedRight {n : Nat} (w c : Nat) (x y : BitVec n) : Prop :=
  ∀ b < n, y.getLsbD b = x.getLsbD (min (b + c) (w * (b / w) + (w - 1)))

/-- 10_state.md R22: the x87 side effects of an MMX row that writes MM`i`: top-of-stack 0, every tag valid, bits 79:64 of
the aliased register all ones; nothing else changes. -/
structure X87Marked (x y : X87) (i : BitVec 3) : Prop where
  top   : y.top = 0#3
  tw    : y.tw = 0#16
  other : ∀ b, b < 11 ∨ 14 ≤ b → y.sw.getLsbD b = x.sw.getLsbD b
  hi    : y.hi.get i.toFin = 0xFFFF#16
  rest  : ∀ j, j ≠ i → y.hi.get j.toFin = x.hi.get j.toFin

/-- The effect of an MMX row with elements of `w` bits and the count `c` on its destination, and on nothing else. -/
structure MmShifted (s t : State) (w c : Nat) (dst : BitVec 3) : Prop where
  result : ShiftedRight w c (s.mmAt dst) (t.mmAt dst)
  others : ∀ r, r ≠ dst → t.mmAt r = s.mmAt r
  v      : t.v = s.v
  x87    : X87Marked s.x87 t.x87 dst

/-- Every vector register but `dst` is unchanged, and so are the MMX registers and the x87 state. -/
structure OnlyVec (s t : State) (dst : BitVec 4) : Prop where
  others : ∀ j, j ≠ effNum s.mode dst → t.v.get j.toFin = s.v.get j.toFin
  mm     : t.mm = s.mm
  x87    : t.x87 = s.x87

/-- 10_state.md R13, legacy SSE2: `dst[127:0]` is `src[127:0]` shifted, `dst[255:128]` unchanged. -/
structure XmmShiftedKeep (s t : State) (w c : Nat) (dst : BitVec 4) : Prop where
  result : ShiftedRight w c (s.xmmAt dst) (t.xmmAt dst)
  upper  : ∀ b, 128 ≤ b → (t.ymmAt dst).getLsbD b = (s.ymmAt dst).getLsbD b
  only   : OnlyVec s t dst

/-- 10_state.md R13, VEX.128: `dst[127:0]` is `src[127:0]` shifted, `dst[255:128]` is zero. -/
structure XmmShiftedZero (s t : State) (w c : Nat) (dst src : BitVec 4) : Prop where
  result : ShiftedRight w c (s.xmmAt src) (t.xmmAt dst)
  upper  : ∀ b, 128 ≤ b → (t.ymmAt dst).getLsbD b = false
  only   : OnlyVec s t dst

/-- 10_state.md R13, VEX.256: all of `dst` is `src` shifted. -/
structure YmmShifted (s t : State) (w c : Nat) (dst src : BitVec 4) : Prop where
  result : ShiftedRight w c (s.ymmAt src) (t.ymmAt dst)
  only   : OnlyVec s t dst

/-- The MMX register an instruction writes, if it is an MMX row (30_encoding.md R56, R57). -/
def mmDst : Instr → Option (BitVec 3)
  | .psrawMm _ d _ | .psradMm _ d _ => some d
  | .psrawMmImm _ d _ | .psradMmImm _ d _ => some d
  | _ => none

/-- The vector register an instruction writes, if it is no MMX row (30_encoding.md R56 to R59). -/
def vecDst : Instr → Option (BitVec 4)
  | .psrawXmm _ d _ | .psradXmm _ d _ => some d
  | .psrawXmmImm _ d _ | .psradXmmImm _ d _ => some d
  | .vpsrawXmm _ d _ _ | .vpsrawYmm _ d _ _ | .vpsradXmm _ d _ _ | .vpsradYmm _ d _ _ => some d
  | .vpsrawXmmImm _ d _ _ | .vpsrawYmmImm _ d _ _ | .vpsradXmmImm _ d _ _ | .vpsradYmmImm _ d _ _ => some d
  | _ => none

/-! ## When an instruction stops -/

/-- 30_encoding.md R61, R72: the bytes that SIB and displacement take after this ModRM (mod not 11), `rest` what follows it.
The row for 16-bit addresses is the model's choice (log 29). -/
def memTail (m : Mode) (pfx : List Pfx) (modrm : Byte) (rest : List Byte) : Nat :=
  let sib := if modrmRm modrm = 4#3 then 1 else 0
  let noBase := modrmRm modrm = 5#3 ∨ (modrmRm modrm = 4#3 ∧ modrmRm (rest.headD 0#8) = 5#3)
  if m = .mode32 ∧ Pfx.addrSize ∈ pfx then
    if modrmMod modrm = 1#2 then 1
    else if modrmMod modrm = 2#2 then 2
    else if modrmRm modrm = 6#3 then 2 else 0
  else if modrmMod modrm = 1#2 then sib + 1
  else if modrmMod modrm = 2#2 then sib + 4
  else if noBase then sib + 4 else sib

/-- 30_encoding.md R50, R55: the bytes from prefixes to opcode, legacy (with LOCK, or without the refused `F2` and `F3`,
R71) or VEX of either form, with any REX in front. -/
inductive Head (m : Mode) (ps : List Pfx) (rex : Option Rex) (op : Op) : List Byte → Prop where
  | legacy (h : Pfx.lock ∈ ps ∨ (Pfx.repne ∉ ps ∧ Pfx.rep ∉ ps)) :
      Head m ps rex op (ps.map Pfx.byte ++ (rexBytes rex ++ [0x0F#8, op.byte]))
  | vex2 (v1 : Byte) (h1 : m = .mode32 → v1.extractLsb' 6 2 = 3#2) (hp : v1.extractLsb' 0 2 = 1#2) :
      Head m ps rex op (ps.map Pfx.byte ++ (rexBytes rex ++ [0xC5#8, v1, op.byte]))
  | vex3 (v1 v2 : Byte) (h1 : m = .mode32 → v1.extractLsb' 6 2 = 3#2) (hm : v1.extractLsb' 0 5 = 1#5)
      (hp : v2.extractLsb' 0 2 = 1#2) :
      Head m ps rex op (ps.map Pfx.byte ++ (rexBytes rex ++ [0xC4#8, v1, v2, op.byte]))

/-- 30_encoding.md R71: no prefix that may not stand in front of a VEX prefix. -/
def BeforeVex (ps : List Pfx) : Prop := Pfx.opSize ∉ ps ∧ Pfx.repne ∉ ps ∧ Pfx.rep ∉ ps ∧ Pfx.lock ∉ ps

/-- 60_exceptions.md R121: no #UD condition of the row holds (the conditions a decoded row can have); `cfg.AVX` on the
VEX.256 rows by 70_reset_and_hazards.md R152 (log 30). -/
def NoUd (s : State) (i : Instr) : Prop :=
  s.cfg.has i.row.needs = true ∧
  match i.row.cls with
  | .mmx => s.env.EM = false ∧ Pfx.lock ∉ i.pfx
  | .sse2 => s.env.EM = false ∧ s.env.OSFXSR = true ∧ Pfx.lock ∉ i.pfx
  | .vex128 | .vex256 =>
    s.cfg.avx = true ∧ s.env.OSXSAVE = true ∧ s.env.XCR0_SSE = true ∧ s.env.XCR0_AVX = true ∧ i.rex = none ∧
      Pfx.opSize ∉ i.pfx ∧ Pfx.repne ∉ i.pfx ∧ Pfx.rep ∉ i.pfx ∧ Pfx.lock ∉ i.pfx

/-- 60_exceptions.md R128: no condition of `Precheck` holds. -/
def PrecheckPasses (s : State) (i : Instr) : Prop :=
  NoUd s i ∧ s.env.TS = false ∧ (i.row.cls = .mmx → s.x87Pending = false)

/-- 60_exceptions.md R120: the page-fault code of a read of this linear address: bits 0 to 4, P, W/R, U/S, RSVD, I/D. That the
code has 32 bits, and that bits 31:5 are 0, is the model's choice (PRESUMED, log 31). -/
def IsPageFaultCode (s : State) (a : Addr) (code : BitVec 32) : Prop :=
  (code.getLsbD 0 = true ↔ s.pageStatus a ≠ .notPresent) ∧ code.getLsbD 1 = false ∧
  (code.getLsbD 2 = true ↔ s.env.CPL = 3#2) ∧
  (code.getLsbD 3 = true ↔ ∃ supervisor, s.pageStatus a = .present supervisor true) ∧
  ∀ b, 4 ≤ b → code.getLsbD b = false

/-- The memory operand of an instruction, if its count is in memory. -/
def memOperand : Instr → Option MemForm
  | .psrawMm _ _ (.mem f) | .psradMm _ _ (.mem f) => some f
  | .psrawXmm _ _ (.mem f) | .psradXmm _ _ (.mem f) => some f
  | .vpsrawXmm _ _ _ (.mem f) | .vpsrawYmm _ _ _ (.mem f) => some f
  | .vpsradXmm _ _ _ (.mem f) | .vpsradYmm _ _ _ (.mem f) => some f
  | _ => none

/-- 20_memory.md R33: the bytes a memory operand of the row has. -/
def memBytes (i : Instr) : Nat := if i.row.cls = .mmx then 8 else 16

/-- The memory operand of a decodable instruction that passes `Precheck` is `f`, resolved to `a`. -/
structure ReadsOperand (s : State) (i : Instr) (f : MemForm) (a : Access) : Prop where
  wf       : i.wf s.mode = true
  operand  : memOperand i = some f
  resolved : a = s.access i f
  passes   : PrecheckPasses s i

/-- 20_memory.md R34: the alignment a legacy SSE2 row asks of its operand. -/
def SseAligned (s : State) (i : Instr) (a : Access) : Prop :=
  i.row.cls = .sse2 → (s.byteAddr a 0).toNat % 16 = 0

/-- 60_exceptions.md R124 to R127, 20_memory.md R37: the memory operand, if the instruction has one, passes every check and is
in the launch memory. -/
def OperandReadable (s : State) (i : Instr) : Prop :=
  ∀ f, memOperand i = some f →
    Readable s (s.access i f) (memBytes i) ∧ SseAligned s i (s.access i f) ∧
      (i.row.cls = .mmx → s.alignCheck = true → (s.byteAddr (s.access i f) 0).toNat % 8 = 0)

end Sys2Proof.Machine
end

