-- ==== Sys2Proof/Certificates/Slice0/Obligations.lean ====
section
/-! DEFINITION. The statements for the provers. Those that rest on a choice of the model, not of the spec, say so. -/

open Sys2Proof Sys2Proof.Machine

/-! ## Decoding, encoding and the step -/

/-- 30_encoding.md R51 to R60, R66 (the bytes are worked out by hand from the encoding rules): one word of each of the sixteen
rows, in the order of R66, among them REX and VEX extension bits, a SIB byte and a RIP-relative operand, decodes to the
instruction it stands for. -/
def Obligations.HandAssembledWordsDecode : Prop :=
  decode .mode64 [0x0F#8, 0xE1#8, 0xC1#8] = .instr (.psrawMm ⟨[], none⟩ 0#3 (.reg 1#3)) [] ∧
  decode .mode64 [0x66#8, 0x44#8, 0x0F#8, 0xE1#8, 0x08#8] =
    .instr (.psrawXmm ⟨[.opSize], some ⟨false, true, false, false⟩⟩ 9#4 (.mem (.base 0#4 .none))) [] ∧
  decode .mode64 [0x0F#8, 0x71#8, 0xE3#8, 0x0F#8] = .instr (.psrawMmImm ⟨[], none⟩ 3#3 15#8) [] ∧
  decode .mode64 [0x66#8, 0x41#8, 0x0F#8, 0x71#8, 0xE1#8, 0x07#8] =
    .instr (.psrawXmmImm ⟨[.opSize], some ⟨false, false, false, true⟩⟩ 9#4 7#8) [] ∧
  decode .mode64 [0xC4#8, 0xC1#8, 0x69#8, 0xE1#8, 0xCB#8] =
    .instr (.vpsrawXmm ⟨[], none, true, false, false, true, false⟩ 1#4 2#4 (.reg 11#4)) [] ∧
  decode .mode64 [0xC5#8, 0x99#8, 0x71#8, 0xE2#8, 0x03#8] =
    .instr (.vpsrawXmmImm ⟨[], none, false, false, false, false, false⟩ 12#4 2#4 3#8) [] ∧
  decode .mode64 [0xC5#8, 0xED#8, 0xE1#8, 0xCB#8] =
    .instr (.vpsrawYmm ⟨[], none, false, false, false, false, false⟩ 1#4 2#4 (.reg 3#4)) [] ∧
  decode .mode64 [0xC5#8, 0xF5#8, 0x71#8, 0xE2#8, 0x10#8] =
    .instr (.vpsrawYmmImm ⟨[], none, false, false, false, false, false⟩ 1#4 2#4 0x10#8) [] ∧
  decode .mode64 [0x0F#8, 0xE2#8, 0xC1#8] = .instr (.psradMm ⟨[], none⟩ 0#3 (.reg 1#3)) [] ∧
  decode .mode64 [0x66#8, 0x0F#8, 0xE2#8, 0x0D#8, 0xF8#8, 0x1F#8, 0x00#8, 0x00#8] =
    .instr (.psradXmm ⟨[.opSize], none⟩ 1#4 (.mem (.disp32 0x1FF8#32))) [] ∧
  decode .mode64 [0x0F#8, 0x72#8, 0xE3#8, 0x10#8] = .instr (.psradMmImm ⟨[], none⟩ 3#3 0x10#8) [] ∧
  decode .mode64 [0x66#8, 0x0F#8, 0x72#8, 0xE1#8, 0x1F#8] = .instr (.psradXmmImm ⟨[.opSize], none⟩ 1#4 0x1F#8) [] ∧
  decode .mode64 [0xC4#8, 0x41#8, 0x31#8, 0xE2#8, 0xC2#8] =
    .instr (.vpsradXmm ⟨[], none, true, true, false, true, false⟩ 8#4 9#4 (.reg 10#4)) [] ∧
  decode .mode64 [0xC5#8, 0x81#8, 0x72#8, 0xE7#8, 0x07#8] =
    .instr (.vpsradXmmImm ⟨[], none, false, false, false, false, false⟩ 15#4 7#4 7#8) [] ∧
  decode .mode64 [0xC5#8, 0xED#8, 0xE2#8, 0x4C#8, 0x83#8, 0x20#8] =
    .instr (.vpsradYmm ⟨[], none, false, false, false, false, false⟩ 1#4 2#4 (.mem (.sib 2#2 0#4 3#4 (.d8 0x20#8)))) [] ∧
  decode .mode64 [0xC5#8, 0xF5#8, 0x72#8, 0xE2#8, 0x20#8] =
    .instr (.vpsradYmmImm ⟨[], none, false, false, false, false, false⟩ 1#4 2#4 0x20#8) []

/-- 30_encoding.md R75 with R50 to R66: every well-formed instruction, with every operand, is what its encoding decodes to,
whatever bytes follow. -/
def Obligations.DecodeInvertsEncode : Prop :=
  ∀ (m : Mode) (i : Instr) (rest : List Byte), i.wf m = true → decode m (encode i ++ rest) = .instr i rest

/-- 30_encoding.md R75 with R50 to R66: whatever decodes to an instruction is that instruction's encoding, and the
instruction is well-formed if it has no more than 15 bytes (R72). -/
def Obligations.EncodeInvertsDecode : Prop :=
  ∀ (m : Mode) (bs rest : List Byte) (i : Instr), decode m bs = .instr i rest →
    bs = encode i ++ rest ∧ (i.len ≤ 15 → i.wf m = true)

/-- 10_state.md R15, 30_encoding.md R71 to R75, 60_exceptions.md R121, R130: what a step does is decided by what the bytes that
can be fetched at pc decode to: an instruction is executed at that state (moving pc past it is part of the execution), bytes
that are #UD raise #UD, bytes without a meaning are refused. Bytes that end before the instruction does raise #GP(0) if they
are 15 (R72, R125; log 14), stop the fetch by name at the first byte missing (log 8), or are refused at the top of the address
space (log 12): these three are the model's choice. -/
def Obligations.StepRunsDecodedInstruction : Prop :=
  ∀ s : State,
    (∀ (i : Instr) (rest : List Byte), decode s.mode s.window = .instr i rest → step s = exec i s) ∧
    (decode s.mode s.window = .ud → step s = raise .ud) ∧
    (∀ r : DecodeRefusal, decode s.mode s.window = .refused r → step s = .refused (.encoding r)) ∧
    (decode s.mode s.window = .short →
      let next := s.ip + s.window.length
      step s = if s.window.length = 15 then raise .gp
        else if next < pcTop s.mode then .fault (.stuckFetch (s.linear (.seg .cs) (BitVec.ofNat 64 next)))
        else .refused .pcWraps)

/-- 10_state.md R15, R21, 30_encoding.md R75: when the code bytes at pc are the encoding of a well-formed instruction, the
step is that instruction's execution, whatever bytes follow it. -/
def Obligations.StepRunsEncodedInstruction : Prop :=
  ∀ (s : State) (i : Instr), i.wf s.mode = true → s.ip + i.len ≤ pcTop s.mode →
    (∀ k < i.len, s.codeByte (BitVec.ofNat 64 (s.ip + k)) = (encode i)[k]?) → step s = exec i s

/-- 10_state.md R15, 30_encoding.md R72: a step that gives a next state moved pc past an instruction of 3 to 15 bytes that
the bytes at pc decode to. An instruction whose checks pass and whose operand can be read is refused by name when pc plus its
length reaches the top of the address space (D15; that reaching it counts as wrapping is inferred, log 12), and then only. -/
def Obligations.StepMovesPcPastInstruction : Prop :=
  (∀ s t : State, step s = .next t →
    ∃ i rest, decode s.mode s.window = .instr i rest ∧ 3 ≤ i.len ∧ i.len ≤ 15 ∧ Advanced s t i) ∧
  (∀ (s : State) (i : Instr), i.wf s.mode = true → PrecheckPasses s i → OperandReadable s i →
    pcTop s.mode ≤ s.ip + i.len → exec i s = .refused .pcWraps) ∧
  (∀ (s : State) (i : Instr), exec i s = .refused .pcWraps → pcTop s.mode ≤ s.ip + i.len)

/-- 30_encoding.md R67: an MI or VMI encoding with ModRM.mod other than 11 is #UD: legacy (with LOCK, or without the refused
`F2` and `F3`), VEX in both forms, as soon as the bytes hold the operand and the immediate. How many bytes the operand has
under 16-bit addressing, which the spec does not say, is the model's choice (log 29). -/
def Obligations.ImmediateRowWithMemoryModIsUd : Prop :=
  ∀ (m : Mode) (ps : List Pfx) (rex : Option Rex) (op : Op) (head : List Byte) (modrm : Byte) (rest : List Byte),
    (rex.isSome = true → m = .mode64) → (op = .o71 ∨ op = .o72) → Head m ps rex op head →
    modrmReg modrm = 4#3 → modrmMod modrm ≠ 3#2 → memTail m ps modrm rest < rest.length →
    decode m (head ++ modrm :: rest) = .ud

/-- 20_memory.md R40, 30_encoding.md R71: a LOCK prefix put anywhere among the prefixes of any of the sixteen encodings
makes it #UD. -/
def Obligations.LockPrefixIsUd : Prop :=
  ∀ (m : Mode) (i : Instr) (p q : List Pfx) (rest : List Byte), i.wf m = true → i.pfx = p ++ q →
    decode m (p.map Pfx.byte ++ (Pfx.lock.byte :: ((encode i).drop p.length ++ rest))) = .ud

/-- 30_encoding.md R71: `66`, `F2` or `F3` put anywhere in front of a VEX prefix, or a REX byte directly in front of it, is
#UD; `F2` or `F3` put anywhere among the prefixes of a legacy row is refused. -/
def Obligations.OtherPrefixesStopRows : Prop :=
  ∀ (m : Mode) (i : Instr) (p q : List Pfx) (rest : List Byte), i.wf m = true → i.pfx = p ++ q →
    ((i.row.cls = .vex128 ∨ i.row.cls = .vex256) →
      (∀ x : Pfx, (x = .opSize ∨ x = .repne ∨ x = .rep) →
        decode m (p.map Pfx.byte ++ (x.byte :: ((encode i).drop p.length ++ rest))) = .ud) ∧
      (m = .mode64 → ∀ r : Rex,
        decode m (i.pfx.map Pfx.byte ++ (r.byte :: ((encode i).drop i.pfx.length ++ rest))) = .ud)) ∧
    ((i.row.cls = .mmx ∨ i.row.cls = .sse2) → ∀ x : Pfx, (x = .repne ∨ x = .rep) →
      decode m (p.map Pfx.byte ++ (x.byte :: ((encode i).drop p.length ++ rest))) = .refused .reservedPfx)

/-- 30_encoding.md R73, R71, R75: bytes of no row are refused, not #UD: a /digit other than 4 on `0F 71` and `0F 72`; another
opcode byte after `0F`, or another first opcode byte; a REX byte that another prefix follows; and, of both VEX forms, another
pp or mmmmm, another opcode byte, another /digit. Legacy bytes have any prefixes (LOCK too, where R75 says otherwise, log 13)
and any REX, VEX bytes any but the prefixes and the REX that R71 makes #UD in front of VEX. -/
def Obligations.BytesOfNoRowAreRefused : Prop :=
  ∀ (m : Mode) (ps : List Pfx) (rex : Option Rex) (rest : List Byte), (rex.isSome = true → m = .mode64) →
    let legacy (bs : List Byte) := decode m (ps.map Pfx.byte ++ (rexBytes rex ++ bs))
    let vex (bs : List Byte) := decode m (ps.map Pfx.byte ++ bs)
    (∀ (op : Op) (modrm : Byte), (op = .o71 ∨ op = .o72) → modrmReg modrm ≠ 4#3 →
      ∃ r, legacy (0x0F#8 :: op.byte :: modrm :: rest) = .refused r) ∧
    (∀ b : Byte, (∀ op : Op, b ≠ op.byte) → legacy (0x0F#8 :: b :: rest) = .refused .noRow) ∧
    (∀ b : Byte, b ∉ [0x0F#8, 0xC4#8, 0xC5#8] → (∀ p : Pfx, b ≠ p.byte) →
      (m = .mode64 → rex = none → b.extractLsb' 4 4 ≠ 4#4) → legacy (b :: rest) = .refused .noRow) ∧
    (rex.isSome = true → ∀ p : Pfx, legacy (p.byte :: rest) = .refused .rexNotLast) ∧
    (BeforeVex ps → ∀ v1 v2 : Byte,
      (v1.extractLsb' 0 2 ≠ 1#2 → vex (0xC5#8 :: v1 :: rest) = .refused .noRow) ∧
      (v1.extractLsb' 0 5 ≠ 1#5 ∨ v2.extractLsb' 0 2 ≠ 1#2 → vex (0xC4#8 :: v1 :: v2 :: rest) = .refused .noRow) ∧
      (∀ b : Byte, (∀ op : Op, b ≠ op.byte) →
        vex (0xC5#8 :: v1 :: b :: rest) = .refused .noRow ∧ vex (0xC4#8 :: v1 :: v2 :: b :: rest) = .refused .noRow) ∧
      (∀ (op : Op) (modrm : Byte), (op = .o71 ∨ op = .o72) → modrmReg modrm ≠ 4#3 →
        vex (0xC5#8 :: v1 :: op.byte :: modrm :: rest) = .refused .noRow ∧
        vex (0xC4#8 :: v1 :: v2 :: op.byte :: modrm :: rest) = .refused .noRow))

/-- 30_encoding.md R55, R61, D20: what Mode32 refuses. `C4` and `C5` are a VEX prefix only if bits 7:6 of the next byte are 11;
otherwise the bytes are another instruction. An RM or RVM row with a memory operand under `67`, in every layout and without
the prefixes of R71, has 16-bit addressing; that the bytes must hold the operand first, and how long it is, is the model's
choice (log 29). -/
def Obligations.Mode32FormsAreRefused : Prop :=
  (∀ (ps : List Pfx) (b v1 : Byte) (rest : List Byte), (b = 0xC4#8 ∨ b = 0xC5#8) → v1.extractLsb' 6 2 ≠ 3#2 →
    decode .mode32 (ps.map Pfx.byte ++ (b :: v1 :: rest)) = .refused .noRow) ∧
  (∀ (ps : List Pfx) (op : Op) (head : List Byte) (modrm : Byte) (rest : List Byte),
    Pfx.addrSize ∈ ps → Pfx.lock ∉ ps → Pfx.repne ∉ ps → Pfx.rep ∉ ps → (op = .e1 ∨ op = .e2) →
    Head .mode32 ps none op head → (Pfx.opSize ∈ ps → head = ps.map Pfx.byte ++ [0x0F#8, op.byte]) →
    modrmMod modrm ≠ 3#2 → memTail .mode32 ps modrm rest ≤ rest.length →
    decode .mode32 (head ++ modrm :: rest) = .refused .addressing16)

/-- 30_encoding.md R68: VEX.L = 0 selects rows 5, 6, 13, 14, which need AVX; VEX.L = 1 selects rows 7, 8, 15, 16, which
need AVX2 and are #UD without it. -/
def Obligations.VexLSelectsVectorWidth : Prop :=
  ∀ (m : Mode) (ps : List Pfx) (v1 v2 : Byte) (three : Bool) (rest rest' : List Byte) (i : Instr),
    decode m (ps.map Pfx.byte ++ (if three then 0xC4#8 :: v1 :: v2 :: rest else 0xC5#8 :: v1 :: rest)) = .instr i rest' →
    let l := if three then v2.getLsbD 2 else v1.getLsbD 2
    (l = false → i.row.num ∈ [5, 6, 13, 14] ∧ i.row.needs = .avx) ∧
    (l = true → i.row.num ∈ [7, 8, 15, 16] ∧ i.row.needs = .avx2 ∧
      ∀ s : State, s.cfg.avx2 = false → exec i s = raise .ud)

/-- 30_encoding.md R69: the same bytes with VEX.W = 0 and VEX.W = 1 decode to the same row and execute identically. -/
def Obligations.VexWIsIgnored : Prop :=
  ∀ (m : Mode) (ps : List Pfx) (v1 v2 : Byte) (rest rest' : List Byte) (i : Instr),
    decode m (ps.map Pfx.byte ++ (0xC4#8 :: v1 :: v2 :: rest)) = .instr i rest' →
    ∃ j, decode m (ps.map Pfx.byte ++ (0xC4#8 :: v1 :: (v2 ^^^ 0x80#8) :: rest)) = .instr j rest' ∧ j.row = i.row ∧
      ∀ s : State, exec j s = exec i s

/-- 30_encoding.md R54, R60: on the MMX rows REX.R and REX.B never extend a register number: with any REX the registers are
those of the 3-bit fields. -/
def Obligations.RexNeverExtendsMmxNumbers : Prop :=
  ∀ (r : Rex) (reg rm : BitVec 3) (imm : Byte) (rest : List Byte),
    decode .mode64 (r.byte :: 0x0F#8 :: 0xE1#8 :: byte233 3#2 reg rm :: rest) =
      .instr (.psrawMm ⟨[], some r⟩ reg (.reg rm)) rest ∧
    decode .mode64 (r.byte :: 0x0F#8 :: 0xE2#8 :: byte233 3#2 reg rm :: rest) =
      .instr (.psradMm ⟨[], some r⟩ reg (.reg rm)) rest ∧
    decode .mode64 (r.byte :: 0x0F#8 :: 0x71#8 :: byte233 3#2 4#3 rm :: imm :: rest) =
      .instr (.psrawMmImm ⟨[], some r⟩ rm imm) rest ∧
    decode .mode64 (r.byte :: 0x0F#8 :: 0x72#8 :: byte233 3#2 4#3 rm :: imm :: rest) =
      .instr (.psradMmImm ⟨[], some r⟩ rm imm) rest

/-- 30_encoding.md R72, 60_exceptions.md R125, R129 (the fetch of 15 bytes is the model's way to say it, log 14): when the
fifteen bytes at pc are all prefixes, or the first fifteen of a longer instruction, the step raises #GP(0): a row with any
fields; the same with LOCK, or with a prefix or a REX that may not stand in front of VEX; an MI or VMI encoding with mod
other than 11 (its length under 16-bit addressing by log 29): #GP(0) comes before #UD. -/
def Obligations.OverlongInstructionRaisesGp : Prop :=
  (∀ (s : State) (ps : List Pfx), ps.length = 15 → s.window = ps.map Pfx.byte → step s = raise .gp) ∧
  (∀ (s : State) (i : Instr), i.fieldsWf s.mode = true → 15 < i.len → s.window = (encode i).take 15 →
    step s = raise .gp) ∧
  (∀ (s : State) (i : Instr) (p q : List Pfx) (x : Pfx), i.fieldsWf s.mode = true → i.pfx = p ++ q →
    (x = .lock ∨ ((i.row.cls = .vex128 ∨ i.row.cls = .vex256) ∧ (x = .opSize ∨ x = .repne ∨ x = .rep))) →
    15 < i.len + 1 → s.window = (p.map Pfx.byte ++ (x.byte :: (encode i).drop p.length)).take 15 → step s = raise .gp) ∧
  (∀ (s : State) (i : Instr) (r : Rex), i.fieldsWf s.mode = true → s.mode = .mode64 →
    (i.row.cls = .vex128 ∨ i.row.cls = .vex256) → 15 < i.len + 1 →
    s.window = (i.pfx.map Pfx.byte ++ (r.byte :: (encode i).drop i.pfx.length)).take 15 → step s = raise .gp) ∧
  (∀ (s : State) (ps : List Pfx) (rex : Option Rex) (op : Op) (head : List Byte) (modrm : Byte) (rest : List Byte),
    (rex.isSome = true → s.mode = .mode64) → (op = .o71 ∨ op = .o72) → Head s.mode ps rex op head →
    modrmReg modrm = 4#3 → modrmMod modrm ≠ 3#2 → rest.length = memTail s.mode ps modrm rest + 1 →
    15 < (head ++ modrm :: rest).length → s.window = (head ++ modrm :: rest).take 15 → step s = raise .gp)

/-! ## The shift -/

/-- 40_shift_core.md R90: `sra16`, bit by bit, for a count of any size. -/
def Obligations.WordShiftBits : Prop :=
  ∀ (x : BitVec 16) (c i : Nat), i < 16 →
    (sra16 x c).getLsbD i = if i + c ≤ 15 then x.getLsbD (i + c) else x.getLsbD 15

/-- 40_shift_core.md R91: `sra32`, bit by bit, for a count of any size. -/
def Obligations.DoublewordShiftBits : Prop :=
  ∀ (x : BitVec 32) (c i : Nat), i < 32 →
    (sra32 x c).getLsbD i = if i + c ≤ 31 then x.getLsbD (i + c) else x.getLsbD 31

/-- 40_shift_core.md R92: the laws of `sra16` and `sra32`: identity at 0, floor division by a power of two of the signed
value, sign fill from the width less one on, composition, the fixed points 0 and all ones. -/
def Obligations.ShiftLaws : Prop :=
  (∀ x : BitVec 16, sra16 x 0 = x) ∧ (∀ x : BitVec 32, sra32 x 0 = x) ∧
  (∀ (x : BitVec 16) (c : Nat), (sra16 x c).toInt = x.toInt.fdiv (2 ^ c)) ∧
  (∀ (x : BitVec 32) (c : Nat), (sra32 x c).toInt = x.toInt.fdiv (2 ^ c)) ∧
  (∀ (x : BitVec 16) (c : Nat), 15 ≤ c → sra16 x c = if x.getLsbD 15 then 0xFFFF#16 else 0#16) ∧
  (∀ (x : BitVec 32) (c : Nat), 31 ≤ c → sra32 x c = if x.getLsbD 31 then 0xFFFFFFFF#32 else 0#32) ∧
  (∀ (x : BitVec 16) (a b : Nat), sra16 (sra16 x a) b = sra16 x (a + b)) ∧
  (∀ (x : BitVec 32) (a b : Nat), sra32 (sra32 x a) b = sra32 x (a + b)) ∧
  (∀ c : Nat, sra16 0#16 c = 0#16 ∧ sra16 0xFFFF#16 c = 0xFFFF#16 ∧ sra32 0#32 c = 0#32 ∧
    sra32 0xFFFFFFFF#32 c = 0xFFFFFFFF#32)

/-- 40_shift_core.md R94: `SRA_WORDS_n` shifts each of its 4, 8 or 16 words by itself. -/
def Obligations.WordsShiftIndependently : Prop :=
  ∀ (n : Nat), (n = 64 ∨ n = 128 ∨ n = 256) → ∀ (x : BitVec n) (c k : Nat), k < n / 16 →
    (sraWords x c).extractLsb' (16 * k) 16 = sra16 (x.extractLsb' (16 * k) 16) c

/-- 40_shift_core.md R95: `SRA_DWORDS_n` shifts each of its 2, 4 or 8 doublewords by itself. -/
def Obligations.DoublewordsShiftIndependently : Prop :=
  ∀ (n : Nat), (n = 64 ∨ n = 128 ∨ n = 256) → ∀ (x : BitVec n) (c k : Nat), k < n / 32 →
    (sraDwords x c).extractLsb' (32 * k) 32 = sra32 (x.extractLsb' (32 * k) 32) c

/-- 40_shift_core.md R99: the worked elements. -/
def Obligations.WorkedElements : Prop :=
  sra16 0x8000#16 1 = 0xC000#16 ∧ sra16 0x7FFF#16 1 = 0x3FFF#16 ∧ sra16 0xFFFF#16 1 = 0xFFFF#16 ∧
  sra16 0x0001#16 1 = 0x0000#16 ∧ sra16 0x8001#16 15 = 0xFFFF#16 ∧ sra16 0x4000#16 15 = 0x0000#16 ∧
  sra16 0x8000#16 16 = 0xFFFF#16 ∧ sra16 0x1234#16 16 = 0x0000#16 ∧ sra16 0x1234#16 0 = 0x1234#16 ∧
  sra32 0x80000000#32 31 = 0xFFFFFFFF#32 ∧ sra32 0x80000000#32 4 = 0xF8000000#32 ∧
  sra32 0x7FFFFFFF#32 32 = 0x00000000#32 ∧ sra32 0xDEADBEEF#32 16 = 0xFFFFDEAD#32 ∧
  sra32 0x12345678#32 (2 ^ 63) = 0x00000000#32

/-! ## Results: each row completes, with this result, and changes nothing else

Every form of the row is covered: the count in a register or in memory (R93), any registers, equal or not (R97), both modes.
The premises are those of 70_reset_and_hazards.md R152, and that pc does not wrap (D15). That the x87 unit is part of the
state, and that a read of device memory is recorded, is the model's choice (log 4, log 11). -/

/-- 41_psraw.md R100. PSRAW mm, mm/m64: the words of `MM[dst]` shifted by all 64 bits of the count operand; no vector register changes; the x87 side effects of R22. -/
def Obligations.PsrawMmShiftsWords : Prop :=
  ∀ (s : State) (e : LegacyEnc) (dst : BitVec 3) (count : MmRm) (c : Nat),
    let i : Instr := .psrawMm e dst count
    i.wf s.mode = true → MmxReady s → CountMm s i c count → NoWrap s i →
    ∃ t, exec i s = .next t ∧ MmShifted s t 16 c dst ∧ Advanced s t i ∧ CountNoted s t i 8 count ∧ SameSystem s t

/-- 41_psraw.md R101. PSRAW xmm1, xmm2/m128: the words of `XMM[dst]` shifted by bits 63:0 of the count operand (a memory operand 16-byte aligned); bits 255:128 unchanged. -/
def Obligations.PsrawXmmShiftsWords : Prop :=
  ∀ (s : State) (e : LegacyEnc) (dst : BitVec 4) (count : XmmRm) (c : Nat),
    let i : Instr := .psrawXmm e dst count
    i.wf s.mode = true → Sse2Ready s → CountXmm s i true c count → NoWrap s i →
    ∃ t, exec i s = .next t ∧ XmmShiftedKeep s t 16 c dst ∧ Advanced s t i ∧ CountNoted s t i 16 count ∧ SameSystem s t

/-- 41_psraw.md R102. PSRAW mm, imm8: the words of `MM[dst]` shifted by the unsigned immediate. -/
def Obligations.PsrawMmImmShiftsWords : Prop :=
  ∀ (s : State) (e : LegacyEnc) (dst : BitVec 3) (imm : BitVec 8),
    let i : Instr := .psrawMmImm e dst imm
    i.wf s.mode = true → MmxReady s → NoWrap s i →
    ∃ t, exec i s = .next t ∧ MmShifted s t 16 imm.toNat dst ∧ Advanced s t i ∧ t.deviceReads = s.deviceReads ∧ SameSystem s t

/-- 41_psraw.md R103. PSRAW xmm1, imm8: the words of `XMM[dst]` shifted by the unsigned immediate; bits 255:128 unchanged. -/
def Obligations.PsrawXmmImmShiftsWords : Prop :=
  ∀ (s : State) (e : LegacyEnc) (dst : BitVec 4) (imm : BitVec 8),
    let i : Instr := .psrawXmmImm e dst imm
    i.wf s.mode = true → Sse2Ready s → NoWrap s i →
    ∃ t, exec i s = .next t ∧ XmmShiftedKeep s t 16 imm.toNat dst ∧ Advanced s t i ∧ t.deviceReads = s.deviceReads ∧ SameSystem s t

/-- 41_psraw.md R104. VPSRAW xmm1, xmm2, xmm3/m128: `XMM[dst]` is `XMM[src]` with its words shifted by bits 63:0 of the count operand (at any alignment); bits 255:128 zeroed. -/
def Obligations.VpsrawXmmShiftsWords : Prop :=
  ∀ (s : State) (e : VexEnc) (dst src : BitVec 4) (count : XmmRm) (c : Nat),
    let i : Instr := .vpsrawXmm e dst src count
    i.wf s.mode = true → VexReady s .avx → CountXmm s i false c count → NoWrap s i →
    ∃ t, exec i s = .next t ∧ XmmShiftedZero s t 16 c dst src ∧ Advanced s t i ∧ CountNoted s t i 16 count ∧ SameSystem s t

/-- 41_psraw.md R105. VPSRAW xmm1, xmm2, imm8: `XMM[dst]` is `XMM[src]` with its words shifted by the unsigned immediate; bits 255:128 zeroed. -/
def Obligations.VpsrawXmmImmShiftsWords : Prop :=
  ∀ (s : State) (e : VexEnc) (dst src : BitVec 4) (imm : BitVec 8),
    let i : Instr := .vpsrawXmmImm e dst src imm
    i.wf s.mode = true → VexReady s .avx → NoWrap s i →
    ∃ t, exec i s = .next t ∧ XmmShiftedZero s t 16 imm.toNat dst src ∧ Advanced s t i ∧ t.deviceReads = s.deviceReads ∧ SameSystem s t

/-- 41_psraw.md R106. VPSRAW ymm1, ymm2, xmm3/m128: `YMM[dst]` is `YMM[src]` with its words shifted by one count, bits 63:0 of the 128-bit count operand. -/
def Obligations.VpsrawYmmShiftsWords : Prop :=
  ∀ (s : State) (e : VexEnc) (dst src : BitVec 4) (count : XmmRm) (c : Nat),
    let i : Instr := .vpsrawYmm e dst src count
    i.wf s.mode = true → VexReady s .avx2 → CountXmm s i false c count → NoWrap s i →
    ∃ t, exec i s = .next t ∧ YmmShifted s t 16 c dst src ∧ Advanced s t i ∧ CountNoted s t i 16 count ∧ SameSystem s t

/-- 41_psraw.md R107. VPSRAW ymm1, ymm2, imm8: `YMM[dst]` is `YMM[src]` with its words shifted by the unsigned immediate. -/
def Obligations.VpsrawYmmImmShiftsWords : Prop :=
  ∀ (s : State) (e : VexEnc) (dst src : BitVec 4) (imm : BitVec 8),
    let i : Instr := .vpsrawYmmImm e dst src imm
    i.wf s.mode = true → VexReady s .avx2 → NoWrap s i →
    ∃ t, exec i s = .next t ∧ YmmShifted s t 16 imm.toNat dst src ∧ Advanced s t i ∧ t.deviceReads = s.deviceReads ∧ SameSystem s t

/-- 42_psrad.md R110. PSRAD mm, mm/m64: the doublewords of `MM[dst]` shifted by all 64 bits of the count operand; no vector register changes; the x87 side effects of R22. -/
def Obligations.PsradMmShiftsDoublewords : Prop :=
  ∀ (s : State) (e : LegacyEnc) (dst : BitVec 3) (count : MmRm) (c : Nat),
    let i : Instr := .psradMm e dst count
    i.wf s.mode = true → MmxReady s → CountMm s i c count → NoWrap s i →
    ∃ t, exec i s = .next t ∧ MmShifted s t 32 c dst ∧ Advanced s t i ∧ CountNoted s t i 8 count ∧ SameSystem s t

/-- 42_psrad.md R111. PSRAD xmm1, xmm2/m128: the doublewords of `XMM[dst]` shifted by bits 63:0 of the count operand (a memory operand 16-byte aligned); bits 255:128 unchanged. -/
def Obligations.PsradXmmShiftsDoublewords : Prop :=
  ∀ (s : State) (e : LegacyEnc) (dst : BitVec 4) (count : XmmRm) (c : Nat),
    let i : Instr := .psradXmm e dst count
    i.wf s.mode = true → Sse2Ready s → CountXmm s i true c count → NoWrap s i →
    ∃ t, exec i s = .next t ∧ XmmShiftedKeep s t 32 c dst ∧ Advanced s t i ∧ CountNoted s t i 16 count ∧ SameSystem s t

/-- 42_psrad.md R112. PSRAD mm, imm8: the doublewords of `MM[dst]` shifted by the unsigned immediate. -/
def Obligations.PsradMmImmShiftsDoublewords : Prop :=
  ∀ (s : State) (e : LegacyEnc) (dst : BitVec 3) (imm : BitVec 8),
    let i : Instr := .psradMmImm e dst imm
    i.wf s.mode = true → MmxReady s → NoWrap s i →
    ∃ t, exec i s = .next t ∧ MmShifted s t 32 imm.toNat dst ∧ Advanced s t i ∧ t.deviceReads = s.deviceReads ∧ SameSystem s t

/-- 42_psrad.md R113. PSRAD xmm1, imm8: the doublewords of `XMM[dst]` shifted by the unsigned immediate; bits 255:128 unchanged. -/
def Obligations.PsradXmmImmShiftsDoublewords : Prop :=
  ∀ (s : State) (e : LegacyEnc) (dst : BitVec 4) (imm : BitVec 8),
    let i : Instr := .psradXmmImm e dst imm
    i.wf s.mode = true → Sse2Ready s → NoWrap s i →
    ∃ t, exec i s = .next t ∧ XmmShiftedKeep s t 32 imm.toNat dst ∧ Advanced s t i ∧ t.deviceReads = s.deviceReads ∧ SameSystem s t

/-- 42_psrad.md R114. VPSRAD xmm1, xmm2, xmm3/m128: `XMM[dst]` is `XMM[src]` with its doublewords shifted by bits 63:0 of the count operand (at any alignment); bits 255:128 zeroed. -/
def Obligations.VpsradXmmShiftsDoublewords : Prop :=
  ∀ (s : State) (e : VexEnc) (dst src : BitVec 4) (count : XmmRm) (c : Nat),
    let i : Instr := .vpsradXmm e dst src count
    i.wf s.mode = true → VexReady s .avx → CountXmm s i false c count → NoWrap s i →
    ∃ t, exec i s = .next t ∧ XmmShiftedZero s t 32 c dst src ∧ Advanced s t i ∧ CountNoted s t i 16 count ∧ SameSystem s t

/-- 42_psrad.md R115. VPSRAD xmm1, xmm2, imm8: `XMM[dst]` is `XMM[src]` with its doublewords shifted by the unsigned immediate; bits 255:128 zeroed. -/
def Obligations.VpsradXmmImmShiftsDoublewords : Prop :=
  ∀ (s : State) (e : VexEnc) (dst src : BitVec 4) (imm : BitVec 8),
    let i : Instr := .vpsradXmmImm e dst src imm
    i.wf s.mode = true → VexReady s .avx → NoWrap s i →
    ∃ t, exec i s = .next t ∧ XmmShiftedZero s t 32 imm.toNat dst src ∧ Advanced s t i ∧ t.deviceReads = s.deviceReads ∧ SameSystem s t

/-- 42_psrad.md R116. VPSRAD ymm1, ymm2, xmm3/m128: `YMM[dst]` is `YMM[src]` with its doublewords shifted by one count, bits 63:0 of the 128-bit count operand. -/
def Obligations.VpsradYmmShiftsDoublewords : Prop :=
  ∀ (s : State) (e : VexEnc) (dst src : BitVec 4) (count : XmmRm) (c : Nat),
    let i : Instr := .vpsradYmm e dst src count
    i.wf s.mode = true → VexReady s .avx2 → CountXmm s i false c count → NoWrap s i →
    ∃ t, exec i s = .next t ∧ YmmShifted s t 32 c dst src ∧ Advanced s t i ∧ CountNoted s t i 16 count ∧ SameSystem s t

/-- 42_psrad.md R117. VPSRAD ymm1, ymm2, imm8: `YMM[dst]` is `YMM[src]` with its doublewords shifted by the unsigned immediate. -/
def Obligations.VpsradYmmImmShiftsDoublewords : Prop :=
  ∀ (s : State) (e : VexEnc) (dst src : BitVec 4) (imm : BitVec 8),
    let i : Instr := .vpsradYmmImm e dst src imm
    i.wf s.mode = true → VexReady s .avx2 → NoWrap s i →
    ∃ t, exec i s = .next t ∧ YmmShifted s t 32 imm.toNat dst src ∧ Advanced s t i ∧ t.deviceReads = s.deviceReads ∧ SameSystem s t

/-! ## Exceptions -/

/-- 60_exceptions.md R121 (the conditions a decoded row can have; the others are those of ImmediateRowWithMemoryModIsUd,
LockPrefixIsUd and OtherPrefixesStopRows, which StepRunsDecodedInstruction carries to the step): feature flag, EM, OSFXSR, OSXSAVE and XCR0, each on the rows the table gives; and
`cfg.AVX` on the VEX.256 rows, which 70_reset_and_hazards.md R152 asks for (that its absence is #UD is inferred, log 30). -/
def Obligations.PrecheckRaisesUd : Prop :=
  ∀ (s : State) (i : Instr), i.wf s.mode = true →
    (s.cfg.has i.row.needs = false ∨
      ((i.row.cls = .mmx ∨ i.row.cls = .sse2) ∧ s.env.EM = true) ∨
      (i.row.cls = .sse2 ∧ s.env.OSFXSR = false) ∨
      (i.row.cls = .vex256 ∧ s.cfg.avx = false) ∨
      ((i.row.cls = .vex128 ∨ i.row.cls = .vex256) ∧
        (s.env.OSXSAVE = false ∨ ¬ (s.env.XCR0_SSE = true ∧ s.env.XCR0_AVX = true)))) →
    exec i s = raise .ud

/-- 60_exceptions.md R122: #NM when TS = 1, for every row, provided no #UD condition holds (R121; on the VEX.256 rows a missing
`cfg.AVX` is one too, by inference from 70_reset_and_hazards.md R152, log 30). -/
def Obligations.TaskSwitchedRaisesNm : Prop :=
  ∀ (s : State) (i : Instr), i.wf s.mode = true → NoUd s i → s.env.TS = true → exec i s = raise .nm

/-- 60_exceptions.md R123: #MF when an x87 exception is pending, on the four MMX rows, provided neither #UD nor #NM applies;
no other row ever raises it. -/
def Obligations.PendingX87RaisesMf : Prop :=
  ∀ (s : State) (i : Instr), i.wf s.mode = true →
    (i.row.num ∈ [1, 3, 9, 11] → NoUd s i → s.env.TS = false → s.x87Pending = true → exec i s = raise .mf) ∧
    (i.row.num ∉ [1, 3, 9, 11] → exec i s ≠ raise .mf)

/-- 60_exceptions.md R124, R125 (b), (c) (where R63 leaves the segment open, base registers 12 and 13, either exception, log
10): a byte of the operand outside its segment or at a non-canonical address raises #SS(0) when the segment is SS, else
#GP(0). -/
def Obligations.SegmentViolationRaisesSsOrGp : Prop :=
  ∀ (s : State) (i : Instr) (f : MemForm) (a : Access), ReadsOperand s i f a →
    (∃ k < memBytes i, ¬ InSegment s a.seg (a.offset k)) →
    (a.seg = .seg .ss → exec i s = raise .ss) ∧
    (∀ r, a.seg = .seg r → r ≠ .ss → exec i s = raise .gp) ∧
    (∀ b, a.seg = .dsOrSs b → exec i s = raise .ss ∨ exec i s = raise .gp)

/-- 20_memory.md R34, 60_exceptions.md R125 (a), R129: a legacy SSE2 row whose operand is inside its segment and not 16-byte
aligned raises #GP(0), whatever alignment checking and translation say. -/
def Obligations.MisalignedSseOperandRaisesGp : Prop :=
  ∀ (s : State) (i : Instr) (f : MemForm) (a : Access), ReadsOperand s i f a → i.row.cls = .sse2 →
    (∀ k < 16, InSegment s a.seg (a.offset k)) → (s.byteAddr a 0).toNat % 16 ≠ 0 → exec i s = raise .gp

/-- 60_exceptions.md R126, with the code of R120: when translation of a byte of the operand fails, #PF is raised with the
address of some failing byte of the operand (which one is a free value, log 9) and the code of that byte's page (0 above bit
4, where R120 gives no bits, by log 31). -/
def Obligations.TranslationFailureRaisesPf : Prop :=
  ∀ (s : State) (i : Instr) (f : MemForm) (a : Access), ReadsOperand s i f a → SseAligned s i a →
    (∀ k < memBytes i, InSegment s a.seg (a.offset k)) → (∃ k < memBytes i, ¬ Admitted s (s.byteAddr a k)) →
    ∃ k < memBytes i, ∃ code, ¬ Admitted s (s.byteAddr a k) ∧ IsPageFaultCode s (s.byteAddr a k) code ∧
      exec i s = raise (.pf code (s.byteAddr a k))

/-- 60_exceptions.md R127: #AC(0) on the MMX memory rows when alignment checking is on and the address is not a multiple of
8 (and no fault of R129's order comes first); no other row ever raises it. -/
def Obligations.MisalignedMmxOperandRaisesAc : Prop :=
  (∀ (s : State) (i : Instr) (f : MemForm) (a : Access), ReadsOperand s i f a → i.row.num ∈ [1, 9] →
    (∀ k < 8, InSegment s a.seg (a.offset k)) → (∀ k < 8, Admitted s (s.byteAddr a k)) →
    s.alignCheck = true → (s.byteAddr a 0).toNat % 8 ≠ 0 → exec i s = raise .ac) ∧
  (∀ (s : State) (i : Instr), i.row.num ∉ [1, 9] → exec i s ≠ raise .ac)

/-- 20_memory.md R37, U17 (the rank of this stop, after every exception, is the model's choice, log 16): an admitted operand
with a byte outside the launch memory has no step: the model stops, naming such a byte. -/
def Obligations.UnbackedOperandIsStuck : Prop :=
  ∀ (s : State) (i : Instr) (f : MemForm) (a : Access), ReadsOperand s i f a → SseAligned s i a →
    (∀ k < memBytes i, InSegment s a.seg (a.offset k)) → (∀ k < memBytes i, Admitted s (s.byteAddr a k)) →
    (i.row.cls = .mmx → s.alignCheck = true → (s.byteAddr a 0).toNat % 8 = 0) →
    (∃ k < memBytes i, s.byteAt (s.byteAddr a k) = none) →
    ∃ k < memBytes i, s.byteAt (s.byteAddr a k) = none ∧ exec i s = .fault (.stuckRead (s.byteAddr a k))

/-- 60_exceptions.md R128: the faults a row can have: #UD and #NM on every row, #MF on the MMX rows, and the memory faults
(or the stuck read) only when the count is in memory. -/
def Obligations.RowsRaiseOnlyTheirExceptions : Prop :=
  ∀ (s : State) (i : Instr) (r : Fault), exec i s = .fault r →
    (Host.Outcome.fault r : Result) = raise .ud ∨ (Host.Outcome.fault r : Result) = raise .nm ∨
    ((Host.Outcome.fault r : Result) = raise .mf ∧ i.row.cls = .mmx) ∨
    ((memOperand i).isSome = true ∧
      ((Host.Outcome.fault r : Result) = raise .ss ∨ (Host.Outcome.fault r : Result) = raise .gp ∨
        (∃ code a, (Host.Outcome.fault r : Result) = raise (.pf code a)) ∨
        ((Host.Outcome.fault r : Result) = raise .ac ∧ i.row.cls = .mmx) ∨ ∃ a, r = .stuckRead a))

/-- 60_exceptions.md R120: vector numbers and error codes (their width of 32 bits is the model's choice, log 31). -/
def Obligations.ExceptionVectors : Prop :=
  raise .ud = .fault (.exception 6 none none) ∧ raise .nm = .fault (.exception 7 none none) ∧
  raise .ss = .fault (.exception 12 (some 0#32) none) ∧ raise .gp = .fault (.exception 13 (some 0#32) none) ∧
  (∀ code a, raise (.pf code a) = .fault (.exception 14 (some code) (some a))) ∧
  raise .mf = .fault (.exception 16 none none) ∧ raise .ac = .fault (.exception 17 (some 0#32) none)

/-- 70_reset_and_hazards.md R151: with the enable state of a hardware reset every legacy SSE2 and VEX row raises #UD, whatever the
privilege level and the segment registers are (R151 gives neither). -/
def Obligations.HardwareResetDisablesSimd : Prop :=
  ∀ (s : State) (i : Instr), i.wf s.mode = true →
    s.env = { Env.hardwareReset with CPL := s.env.CPL, segs := s.env.segs } → i.row.cls ≠ .mmx → exec i s = raise .ud

/-! ## Addresses -/

/-- 30_encoding.md R61, R62: the effective address of each form in Mode64 with 64-bit addresses: a base register, a SIB form
with or without base and index, each with every displacement, and RIP-relative, counted from the end of the instruction. -/
def Obligations.EffectiveAddressForms : Prop :=
  ∀ (s : State) (i : Instr), s.mode = .mode64 → Pfx.addrSize ∉ i.pfx → ∀ (d8 : BitVec 8) (d32 : BitVec 32),
    (∀ b : BitVec 4,
      (s.access i (.base b .none)).ea = s.gprAt b ∧
      (s.access i (.base b (.d8 d8))).ea = s.gprAt b + d8.signExtend 64 ∧
      (s.access i (.base b (.d32 d32))).ea = s.gprAt b + d32.signExtend 64) ∧
    (∀ (sc : BitVec 2) (x b : BitVec 4),
      let index := if x = 4#4 then 0#64 else s.gprAt x * BitVec.ofNat 64 (2 ^ sc.toNat)
      (s.access i (.sib sc x b .none)).ea = s.gprAt b + index ∧
      (s.access i (.sib sc x b (.d8 d8))).ea = s.gprAt b + index + d8.signExtend 64 ∧
      (s.access i (.sib sc x b (.d32 d32))).ea = s.gprAt b + index + d32.signExtend 64 ∧
      (s.access i (.sibNoBase sc x d32)).ea = index + d32.signExtend 64) ∧
    (s.access i (.disp32 d32)).ea = s.pc + BitVec.ofNat 64 i.len + d32.signExtend 64

/-- 30_encoding.md R61, R62: the effective address of each form with 32-bit addresses (Mode32 without `67`, Mode64 with it): the
sum modulo `2^32`, zero-extended; ModRM mod 00 r/m 101 is the displacement alone in Mode32 and RIP-relative in Mode64, a SIB
form without base and index is the displacement alone in both. -/
def Obligations.ShortEffectiveAddressForms : Prop :=
  ∀ (s : State) (i : Instr),
    ((s.mode = .mode32 ∧ Pfx.addrSize ∉ i.pfx) ∨ (s.mode = .mode64 ∧ Pfx.addrSize ∈ i.pfx)) →
    let ea (f : MemForm) : BitVec 32 := (s.access i f).ea.setWidth 32
    let reg (r : BitVec 4) : BitVec 32 := (s.gprAt r).setWidth 32
    (∀ f : MemForm, (s.access i f).ea.toNat < 2 ^ 32) ∧ ∀ (d8 : BitVec 8) (d32 : BitVec 32),
    (∀ b : BitVec 4, ea (.base b .none) = reg b ∧ ea (.base b (.d8 d8)) = reg b + d8.signExtend 32 ∧
      ea (.base b (.d32 d32)) = reg b + d32) ∧
    (∀ (sc : BitVec 2) (x b : BitVec 4),
      let index := if x = 4#4 then 0#32 else reg x * BitVec.ofNat 32 (2 ^ sc.toNat)
      ea (.sib sc x b .none) = reg b + index ∧ ea (.sib sc x b (.d8 d8)) = reg b + index + d8.signExtend 32 ∧
      ea (.sib sc x b (.d32 d32)) = reg b + index + d32 ∧ ea (.sibNoBase sc x d32) = index + d32) ∧
    (s.mode = .mode32 → ea (.disp32 d32) = d32) ∧
    (s.mode = .mode64 → ea (.disp32 d32) = s.pc.setWidth 32 + BitVec.ofNat 32 i.len + d32)

/-- 30_encoding.md R63: the segment of an operand: the last override; without one, SS for base registers 4 and 5, left open
for 12 and 13 (a free value, log 10), DS for the others and with no base register. -/
def Obligations.OperandSegmentSelection : Prop :=
  ∀ (s : State) (i : Instr),
    (∀ (f : MemForm) (p q : List Pfx) (r : SegReg), i.pfx = p ++ .seg r :: q → (∀ r', Pfx.seg r' ∉ q) →
      (s.access i f).seg = .seg r) ∧
    ((∀ r, Pfx.seg r ∉ i.pfx) →
      (∀ (f : MemForm) (b : BitVec 4), ((∃ d, f = .base b d) ∨ ∃ sc x d, f = .sib sc x b d) →
        (effNum s.mode b = 4#4 ∨ effNum s.mode b = 5#4 → (s.access i f).seg = .seg .ss) ∧
        (effNum s.mode b = 12#4 ∨ effNum s.mode b = 13#4 → (s.access i f).seg = .dsOrSs (effNum s.mode b)) ∧
        (effNum s.mode b ∉ [4#4, 5#4, 12#4, 13#4] → (s.access i f).seg = .seg .ds)) ∧
      (∀ f : MemForm, ((∃ sc x d, f = .sibNoBase sc x d) ∨ ∃ d, f = .disp32 d) → (s.access i f).seg = .seg .ds))

/-- 30_encoding.md R64, 20_memory.md R32: the linear address of byte `k`: in Mode64 with 64-bit addresses the effective address
plus `k`, under `67` that sum in 32 bits, zero-extended (log 15), from the base of FS or GS, of every other segment from 0;
in Mode32 (32-bit addresses) from the base of the segment, in 32 bits. -/
def Obligations.LinearAddressOfByte : Prop :=
  (∀ (s : State) (i : Instr) (f : MemForm) (k : Nat), s.mode = .mode64 →
    let a := s.access i f
    let off : Addr :=
      if Pfx.addrSize ∈ i.pfx then (a.ea.setWidth 32 + BitVec.ofNat 32 k).setWidth 64 else a.ea + BitVec.ofNat 64 k
    (a.seg = .seg .fs → s.byteAddr a k = s.env.segs.fs.base + off) ∧
    (a.seg = .seg .gs → s.byteAddr a k = s.env.segs.gs.base + off) ∧
    (a.seg ≠ .seg .fs → a.seg ≠ .seg .gs → s.byteAddr a k = off)) ∧
  (∀ (s : State) (i : Instr) (f : MemForm) (k : Nat), s.mode = .mode32 → Pfx.addrSize ∉ i.pfx →
    let a := s.access i f
    (s.byteAddr a k).toNat < 2 ^ 32 ∧
    (s.byteAddr a k).setWidth 32 = (s.segOf a.seg).base.setWidth 32 + (a.ea.setWidth 32 + BitVec.ofNat 32 k))

/-! ## The whole machine -/

/-- 20_memory.md R36, with 10_state.md R14, R16, R17, R18, R20: no instruction writes memory, a general register, a flag,
MXCSR, a feature flag, the mode or the enable state: whenever it gives a next state, all of these are as before. -/
def Obligations.NoInstructionWritesMemoryOrSystemState : Prop :=
  ∀ (i : Instr) (s t : State), exec i s = .next t → SameSystem s t ∧ t.mem = s.mem

/-- 10_state.md R10, R13, R22: MMX rows write their destination, one MMX register, and no vector register; the other rows write
no MMX register and no x87 state, and their destination, one vector register, whose bits 255:128 are unchanged (legacy SSE2)
or zero (VEX.128). That the x87 unit is state, and that an MMX row leaves the other bits of its status word unchanged, is the
model's choice (log 4), and so is the place of top-of-stack in that word (log 3). -/
def Obligations.RegisterFilesAreSeparate : Prop :=
  ∀ (i : Instr) (s t : State), exec i s = .next t →
    (i.row.cls = .mmx → ∃ d, mmDst i = some d ∧ t.v = s.v ∧ X87Marked s.x87 t.x87 d ∧
      ∀ r, r ≠ d → t.mmAt r = s.mmAt r) ∧
    (i.row.cls ≠ .mmx → ∃ d, vecDst i = some d ∧ OnlyVec s t d ∧
      (i.row.cls = .sse2 → ∀ b, 128 ≤ b → (t.ymmAt d).getLsbD b = (s.ymmAt d).getLsbD b) ∧
      (i.row.cls = .vex128 → ∀ b, 128 ≤ b → (t.ymmAt d).getLsbD b = false))

/-- 10_state.md R11, R12, R14: in Mode32 the vector registers 8 to 15 are never written, nor read, and no general register 8
to 15 is read: with any other contents of these an instruction has the same outcome, a next state that is the same but for
those contents, the same fault, or the same refusal. -/
def Obligations.Mode32HighRegistersUntouched : Prop :=
  ∀ (i : Instr) (s : State), s.mode = .mode32 →
    (∀ t : State, exec i s = .next t → ∀ j : BitVec 4, 8 ≤ j.toNat → t.v.get j.toFin = s.v.get j.toFin) ∧
    (∀ s' : State, (∀ j : BitVec 4, j.toNat < 8 → s'.v.get j.toFin = s.v.get j.toFin) →
      (∀ j : BitVec 4, j.toNat < 8 → s'.gpr.get j.toFin = s.gpr.get j.toFin) →
      s' = { s with v := s'.v, gpr := s'.gpr } →
      match exec i s with
      | .next t => ∃ t', exec i s' = .next t' ∧ t' = { t with v := t'.v, gpr := s'.gpr } ∧
          (∀ j : BitVec 4, j.toNat < 8 → t'.v.get j.toFin = t.v.get j.toFin) ∧
          ∀ j : BitVec 4, 8 ≤ j.toNat → t'.v.get j.toFin = s'.v.get j.toFin
      | .fault r => exec i s' = .fault r
      | .refused r => exec i s' = .refused r)

/-- 10_state.md R16, R17: no instruction reads a status flag or MXCSR: with any other contents of RFLAGS that agree on AC
(bit 18, no status flag) and any other MXCSR, an instruction does the same, and leaves those as they are. -/
def Obligations.FlagsAndMxcsrAreNeverRead : Prop :=
  ∀ (i : Instr) (s : State) (fl : BitVec 64) (mx : BitVec 32), fl.getLsbD 18 = s.rflags.getLsbD 18 →
    exec i { s with rflags := fl, mxcsr := mx } =
      match exec i s with
      | .next t => .next { t with rflags := fl, mxcsr := mx }
      | .fault r => .fault r
      | .refused r => .refused r

/-- 60_exceptions.md R134: the privilege level enters only through page protection and alignment checking: where no page
that Translate lists is a supervisor page and EFLAGS.AC is 0, an instruction completes at one level exactly if it completes
at another, with the same effect. -/
def Obligations.PrivilegeLevelDoesNotMatter : Prop :=
  ∀ (i : Instr) (s t : State) (c : BitVec 2), (∀ p ∈ s.pages, ∀ r, p.status ≠ .present true r) →
    s.rflags.getLsbD 18 = false → exec i s = .next t →
    exec i { s with env := { s.env with CPL := c } } = .next { t with env := { t.env with CPL := c } }

/-- 20_memory.md R41, 70_reset_and_hazards.md R155: a step changes no code byte, wherever it lies. -/
def Obligations.ProgramTextIsImmutable : Prop :=
  ∀ (s t : State) (off : Addr), step s = .next t → t.codeByte off = s.codeByte off

/-- 20_memory.md R30, 10_state.md R15 (the canonical form of the memory list is the model's): every step keeps the
invariant, from every state. -/
def Obligations.StepKeepsInvariant : Prop :=
  ∀ s t : State, s.Inv → step s = .next t → t.Inv

/-- 70_reset_and_hazards.md R150 (State.reset is the model's launch state, log 1): it has the invariant, and every enable-state
premise of R152, its first four lines, holds there. The fifth, on the bytes of a memory operand, is no premise on the enable
state, and no memory is listed at launch (log 5). -/
def Obligations.LaunchStateIsReady : Prop :=
  State.reset.Inv ∧ MmxReady State.reset ∧ Sse2Ready State.reset ∧ VexReady State.reset .avx ∧
    VexReady State.reset .avx2
end

