-- ==== Sys2Proof/Laws/Decode.lean ====
section
/-! SUPPORT. Each part of the decoder reads back what the same part of the encoder writes, and writes back what it reads. -/

namespace Sys2Proof

/-! ## Fields -/

@[simp] theorem modrmMod_byte233 (a : BitVec 2) (b c : BitVec 3) : modrmMod (byte233 a b c) = a := by
  revert a b c; decide

@[simp] theorem modrmReg_byte233 (a : BitVec 2) (b c : BitVec 3) : modrmReg (byte233 a b c) = b := by
  revert a b c; decide

@[simp] theorem modrmRm_byte233 (a : BitVec 2) (b c : BitVec 3) : modrmRm (byte233 a b c) = c := by
  revert a b c; decide

@[simp] theorem byte233_fields (b : Byte) : byte233 (modrmMod b) (modrmReg b) (modrmRm b) = b := by
  revert b; decide

@[simp] theorem regField_regNum (e : Bool) (f : BitVec 3) : regField (regNum e f) = f := by
  revert e f; decide

@[simp] theorem msb_regNum (e : Bool) (f : BitVec 3) : (regNum e f).msb = e := by
  revert e f; decide

theorem regNum_regField (e : Bool) (r : BitVec 4) (h : numOk e r = true) : regNum e (regField r) = r := by
  revert e r; decide

@[simp] theorem numOk_regNum (e : Bool) (f : BitVec 3) : numOk e (regNum e f) = true := by
  simp [numOk]

/-! ## Prefixes and REX -/

@[simp] theorem ofByte_byte (p : Pfx) : Pfx.ofByte p.byte = some p := by
  cases p with
  | seg r => cases r <;> decide
  | _ => decide

theorem byte_of_ofByte (b : Byte) (p : Pfx) (h : Pfx.ofByte b = some p) : p.byte = b := by
  have := List.find?_some h
  simpa using this

theorem ofByte_none (b : Byte) (h : ∀ p : Pfx, b ≠ p.byte) : Pfx.ofByte b = none := by
  simpa [Pfx.ofByte] using fun p _ => (h p).symm

@[simp] theorem ofByte_rex (r : Rex) : Pfx.ofByte r.byte = none := by
  obtain ⟨w, r, x, b⟩ := r
  revert w r x b; decide

/-- A REX byte gives its four bits back. -/
@[simp] theorem rex_ofByte_byte (r : Rex) : Rex.ofByte r.byte = r := by
  obtain ⟨w, r, x, b⟩ := r
  revert w r x b; decide

@[simp] theorem rex_nibble (r : Rex) : r.byte.extractLsb' 4 4 = 4#4 := by
  obtain ⟨w, r, x, b⟩ := r
  revert w r x b; decide

/-- Four bits and the nibble 4 give the byte back. -/
theorem rex_byte_ofByte (b : Byte) (h : b.extractLsb' 4 4 = 4#4) : (Rex.ofByte b).byte = b := by
  revert b; decide

/-- Prefix bytes are read in their order. -/
theorem takePfx_append (ps : List Pfx) (bs : List Byte) :
    takePfx (ps.map Pfx.byte ++ bs) = (ps ++ (takePfx bs).1, (takePfx bs).2) := by
  induction ps with
  | nil => rfl
  | cons p ps ih => simp [takePfx, ih]

/-- Reading prefixes stops at the first byte that is none. -/
theorem takePfx_stop (b : Byte) (bs : List Byte) (h : Pfx.ofByte b = none) : takePfx (b :: bs) = ([], b :: bs) := by
  simp [takePfx, h]

/-- What was read as prefixes was prefixes. -/
theorem takePfx_eq (bs : List Byte) : bs = (takePfx bs).1.map Pfx.byte ++ (takePfx bs).2 := by
  induction bs with
  | nil => rfl
  | cons b bs ih =>
    cases h : Pfx.ofByte b with
    | none => simp [takePfx, h]
    | some p => simpa [takePfx, h, byte_of_ofByte b p h] using ih

/-- A REX byte is read in Mode64. -/
theorem takeRex_rexBytes (m : Mode) (rex : Option Rex) (b : Byte) (bs : List Byte) (hm : rex.isNone || m == .mode64)
    (hb : b.extractLsb' 4 4 ≠ 4#4) : takeRex m (rexBytes rex ++ b :: bs) = (rex, b :: bs) := by
  cases rex with
  | none => cases m <;> simp [rexBytes, takeRex, hb]
  | some r =>
    have : m = .mode64 := by simpa using hm
    subst this
    simp [rexBytes, takeRex]

/-- What was read as REX was a REX byte, in Mode64. -/
theorem takeRex_eq (m : Mode) (bs : List Byte) :
    bs = rexBytes (takeRex m bs).1 ++ (takeRex m bs).2 ∧ ((takeRex m bs).1.isNone || m == .mode64) = true := by
  cases bs with
  | nil => simp [takeRex, rexBytes]
  | cons b bs =>
    cases m with
    | mode32 => simp [takeRex, rexBytes]
    | mode64 =>
      by_cases h : b.extractLsb' 4 4 = 4#4
      · simp [takeRex, h, rexBytes, rex_byte_ofByte b h]
      · simp [takeRex, h, rexBytes]

/-- From prefixes, REX and the byte that follows, decoding goes on at the opcode. -/
theorem decode_front (m : Mode) (ps : List Pfx) (rex : Option Rex) (b : Byte) (bs : List Byte)
    (hm : rex.isNone || m == .mode64) (h4 : b.extractLsb' 4 4 ≠ 4#4) (hp : Pfx.ofByte b = none) :
    decode m (ps.map Pfx.byte ++ (rexBytes rex ++ b :: bs)) = decodeOpcode m ps rex (b :: bs) := by
  have hrest : takePfx (rexBytes rex ++ b :: bs) = ([], rexBytes rex ++ b :: bs) := by
    cases rex with
    | none => exact takePfx_stop b bs hp
    | some r => exact takePfx_stop r.byte (b :: bs) (ofByte_rex r)
  simp [decode, takePfx_append, hrest, takeRex_rexBytes m rex b bs hm h4]

/-- After a REX decoding goes on at the opcode, whatever the next byte is. -/
theorem decode_rex (ps : List Pfx) (r : Rex) (bs : List Byte) :
    decode .mode64 (ps.map Pfx.byte ++ (r.byte :: bs)) = decodeOpcode .mode64 ps (some r) bs := by
  simp [decode, takePfx_append, takePfx_stop r.byte bs (ofByte_rex r), takeRex]

/-! ## Displacements and memory operands -/

@[simp] theorem take32_bytes32 (d : BitVec 32) (bs : List Byte) : take32 (bytes32 d ++ bs) = some (d, bs) := by
  have : d.extractLsb' 24 8 ++ d.extractLsb' 16 8 ++ d.extractLsb' 8 8 ++ d.extractLsb' 0 8 = d := by
    apply BitVec.eq_of_getLsbD_eq
    intro i hi
    simp only [BitVec.getLsbD_append, BitVec.getLsbD_extractLsb']
    by_cases h1 : i < 8
    · simp [h1]
    · by_cases h2 : i < 16
      · simp [h1, show i - 8 < 8 by omega, show 8 + (i - 8) = i by omega]
      · by_cases h3 : i < 24
        · simp [h1, show ¬ i - 8 < 8 by omega, show i - 8 - 8 < 8 by omega, show 16 + (i - 8 - 8) = i by omega]
        · simp [h1, show ¬ i - 8 < 8 by omega, show ¬ i - 8 - 8 < 8 by omega, show i - 8 - 8 - 8 < 8 by omega,
            show 24 + (i - 8 - 8 - 8) = i by omega]
  simp [bytes32, take32, this]

/-- What was read as a displacement of 32 bits was its four bytes. -/
theorem take32_eq (bs rest : List Byte) (d : BitVec 32) (h : take32 bs = some (d, rest)) : bs = bytes32 d ++ rest := by
  match bs, h with
  | b0 :: b1 :: b2 :: b3 :: bs, h =>
    simp only [take32, Option.some.injEq, Prod.mk.injEq] at h
    obtain ⟨rfl, rfl⟩ := h
    have e0 : (b3 ++ b2 ++ b1 ++ b0).extractLsb' 0 8 = b0 := by
      apply BitVec.eq_of_getLsbD_eq
      intro i hi
      simp only [BitVec.getLsbD_extractLsb', BitVec.getLsbD_append, hi, decide_true, Bool.true_and]
      rw [if_pos (by omega)]
      congr 1; omega
    have e1 : (b3 ++ b2 ++ b1 ++ b0).extractLsb' 8 8 = b1 := by
      apply BitVec.eq_of_getLsbD_eq
      intro i hi
      simp only [BitVec.getLsbD_extractLsb', BitVec.getLsbD_append, hi, decide_true, Bool.true_and]
      rw [if_neg (by omega), if_pos (by omega)]
      congr 1; omega
    have e2 : (b3 ++ b2 ++ b1 ++ b0).extractLsb' 16 8 = b2 := by
      apply BitVec.eq_of_getLsbD_eq
      intro i hi
      simp only [BitVec.getLsbD_extractLsb', BitVec.getLsbD_append, hi, decide_true, Bool.true_and]
      rw [if_neg (by omega), if_neg (by omega), if_pos (by omega)]
      congr 1; omega
    have e3 : (b3 ++ b2 ++ b1 ++ b0).extractLsb' 24 8 = b3 := by
      apply BitVec.eq_of_getLsbD_eq
      intro i hi
      simp only [BitVec.getLsbD_extractLsb', BitVec.getLsbD_append, hi, decide_true, Bool.true_and]
      rw [if_neg (by omega), if_neg (by omega), if_neg (by omega)]
      congr 1; omega
    simp [bytes32, e0, e1, e2, e3]

/-- A displacement is read back. -/
@[simp] theorem takeDisp_bytes (d : Disp) (bs : List Byte) : takeDisp d.mod (d.bytes ++ bs) = some (d, bs) := by
  cases d <;> simp [takeDisp, Disp.mod, Disp.bytes]

/-- What was read as a displacement was its bytes, under mod other than 11. -/
theorem takeDisp_eq (mod : BitVec 2) (bs rest : List Byte) (d : Disp) (hm : mod ≠ 3#2)
    (h : takeDisp mod bs = some (d, rest)) : bs = d.bytes ++ rest ∧ mod = d.mod := by
  unfold takeDisp at h
  split at h
  · cases bs with
    | nil => cases h
    | cons b bs => cases h; simpa [Disp.bytes, Disp.mod]
  · split at h
    · cases h32 : take32 bs with
      | none => simp [h32] at h
      | some p =>
        simp only [h32, Option.some.injEq, Prod.mk.injEq] at h
        obtain ⟨rfl, rfl⟩ := h
        exact ⟨take32_eq bs p.2 p.1 h32, by simpa [Disp.mod]⟩
    · cases h
      refine ⟨rfl, ?_⟩
      revert mod; decide

theorem Disp.mod_ne_three (d : Disp) : d.mod ≠ 3#2 := by cases d <;> simp [Disp.mod]

theorem Disp.mod_eq_zero (d : Disp) : d.mod = 0#2 ↔ d = .none := by cases d <;> simp [Disp.mod]

/-- A well-formed memory operand is read back from ModRM on. -/
theorem takeMem_bytes (x b : Bool) (reg : BitVec 3) (f : MemForm) (bs : List Byte) (h : f.wf x b = true) :
    ∃ modrm tail, f.bytes reg = modrm :: tail ∧ modrmMod modrm ≠ 3#2 ∧ modrmReg modrm = reg ∧
      takeMem x b (modrmMod modrm) (modrmRm modrm) (tail ++ bs) = some (f, bs) := by
  cases f with
  | base r d =>
    simp only [MemForm.wf, Bool.and_eq_true, bne_iff_ne, Bool.or_eq_true] at h
    obtain ⟨⟨hn, h4⟩, h5⟩ := h
    refine ⟨_, _, rfl, by simpa using d.mod_ne_three, by simp, ?_⟩
    have h5' : ¬ (regField r = 5#3 ∧ d.mod = 0#2) := by
      rintro ⟨e1, e2⟩; rw [Disp.mod_eq_zero] at e2; tauto
    simp [takeMem, h4, h5', regNum_regField b r hn]
  | sib scale index r d =>
    simp only [MemForm.wf, Bool.and_eq_true, bne_iff_ne, Bool.or_eq_true] at h
    obtain ⟨⟨hi, hn⟩, h5⟩ := h
    refine ⟨_, _, rfl, by simpa using d.mod_ne_three, by simp, ?_⟩
    have h5' : ¬ (regField r = 5#3 ∧ d.mod = 0#2) := by
      rintro ⟨e1, e2⟩; rw [Disp.mod_eq_zero] at e2; tauto
    simp [takeMem, h5', regNum_regField b r hn, regNum_regField x index hi]
  | sibNoBase scale index d =>
    refine ⟨_, _, rfl, by simp, by simp, ?_⟩
    simp [takeMem, regNum_regField x index h]
  | disp32 d =>
    refine ⟨_, _, rfl, by simp, by simp, ?_⟩
    simp [takeMem]

/-- What was read as a memory operand was its bytes, and it is well-formed. -/
theorem takeMem_eq (x b : Bool) (mod : BitVec 2) (reg rm : BitVec 3) (bs rest : List Byte) (f : MemForm)
    (hm : mod ≠ 3#2) (h : takeMem x b mod rm bs = some (f, rest)) :
    f.wf x b = true ∧ ∃ tail, bs = tail ++ rest ∧ f.bytes reg = byte233 mod reg rm :: tail := by
  unfold takeMem at h
  split at h
  · rename_i h4
    subst h4
    cases bs with
    | nil => cases h
    | cons sib bs =>
      simp only at h
      split at h
      · rename_i h5
        obtain ⟨h5, rfl⟩ := h5
        cases h32 : take32 bs with
        | none => simp [h32] at h
        | some p =>
          simp only [h32, Option.some.injEq, Prod.mk.injEq] at h
          obtain ⟨rfl, rfl⟩ := h
          refine ⟨by simp [MemForm.wf], sib :: bytes32 p.1, by simp [take32_eq bs p.2 p.1 h32], ?_⟩
          simp [MemForm.bytes, ← h5]
      · rename_i h5
        cases hd : takeDisp mod bs with
        | none => simp [hd] at h
        | some p =>
          simp only [hd, Option.some.injEq, Prod.mk.injEq] at h
          obtain ⟨rfl, rfl⟩ := h
          obtain ⟨hb, rfl⟩ := takeDisp_eq mod bs p.2 p.1 hm hd
          refine ⟨?_, sib :: p.1.bytes, by simp [hb], by simp [MemForm.bytes]⟩
          simp only [MemForm.wf, numOk_regNum, regField_regNum, Bool.true_and, Bool.or_eq_true, bne_iff_ne]
          rw [Disp.mod_eq_zero] at h5
          tauto
  · rename_i h4
    split at h
    · rename_i h5
      obtain ⟨rfl, rfl⟩ := h5
      cases h32 : take32 bs with
      | none => simp [h32] at h
      | some p =>
        simp only [h32, Option.some.injEq, Prod.mk.injEq] at h
        obtain ⟨rfl, rfl⟩ := h
        exact ⟨rfl, bytes32 p.1, take32_eq bs p.2 p.1 h32, rfl⟩
    · rename_i h5
      cases hd : takeDisp mod bs with
      | none => simp [hd] at h
      | some p =>
        simp only [hd, Option.some.injEq, Prod.mk.injEq] at h
        obtain ⟨rfl, rfl⟩ := h
        obtain ⟨hb, rfl⟩ := takeDisp_eq mod bs p.2 p.1 hm hd
        refine ⟨?_, p.1.bytes, hb, by simp [MemForm.bytes]⟩
        simp only [MemForm.wf, numOk_regNum, regField_regNum, Bool.true_and, Bool.and_eq_true, Bool.or_eq_true, bne_iff_ne]
        rw [Disp.mod_eq_zero] at h5
        tauto

/-! ## From ModRM on -/

/-- The bytes of an operand after a register number of `w` bits is cut to its field. -/
def rmBytes {w : Nat} (field : BitVec w → BitVec 3) (reg : BitVec 3) : RegMem w → List Byte
  | .reg r => [byte233 3#2 reg (field r)]
  | .mem f => f.bytes reg

theorem mmRmBytes_eq (reg : BitVec 3) (c : MmRm) : mmRmBytes reg c = rmBytes id reg c := by cases c <;> rfl

theorem xmmRmBytes_eq (reg : BitVec 3) (c : XmmRm) : xmmRmBytes reg c = rmBytes regField reg c := by cases c <;> rfl

/-- The operand is one that the decoder can give. -/
def rmOk {w : Nat} (m : Mode) (pfx : List Pfx) (x b : Bool) (number : BitVec 3 → BitVec w) (field : BitVec w → BitVec 3) :
    RegMem w → Prop
  | .reg r => number (field r) = r
  | .mem f => addr16 m pfx = false ∧ f.wf x b = true

theorem rmOk_mm (m : Mode) (pfx : List Pfx) (x b : Bool) (c : MmRm) (h : mmRmWf m pfx x b c = true) :
    rmOk m pfx x b id id c := by
  cases c with
  | reg r => rfl
  | mem f => simpa [mmRmWf, rmOk] using h

theorem rmOk_xmm (m : Mode) (pfx : List Pfx) (x b : Bool) (c : XmmRm) (h : xmmRmWf m pfx x b c = true) :
    rmOk m pfx x b (regNum b) regField c := by
  cases c with
  | reg r => exact regNum_regField b r h
  | mem f => simpa [xmmRmWf, rmOk] using h

/-- RM and RVM rows are read back from ModRM on. -/
theorem decodeRm_bytes {w : Nat} (m : Mode) (pfx : List Pfx) (x b : Bool) (number : BitVec 3 → BitVec w)
    (field : BitVec w → BitVec 3) (build : BitVec 3 → RegMem w → Instr) (reg : BitVec 3) (c : RegMem w) (bs : List Byte)
    (h : rmOk m pfx x b number field c) :
    decodeRm m pfx x b number build (rmBytes field reg c ++ bs) = .instr (build reg c) bs := by
  cases c with
  | reg r =>
    have h' : number (field r) = r := h
    simp [rmBytes, decodeRm, h']
  | mem f =>
    obtain ⟨modrm, tail, hb, h3, hr, ht⟩ := takeMem_bytes x b reg f bs h.2
    simp [rmBytes, decodeRm, hb, h3, hr, ht, h.1]

/-- MI and VMI rows are read back from ModRM on. -/
theorem decodeImm_bytes (m : Mode) (pfx : List Pfx) (x b : Bool) (build : BitVec 3 → BitVec 8 → Instr) (rm : BitVec 3)
    (imm : BitVec 8) (bs : List Byte) :
    decodeImm m pfx x b build (byte233 3#2 4#3 rm :: imm :: bs) = .instr (build rm imm) bs := by
  simp [decodeImm]

/-- What RM and RVM rows give. -/
theorem decodeRm_instr {w : Nat} (m : Mode) (pfx : List Pfx) (x b : Bool) (number : BitVec 3 → BitVec w)
    (field : BitVec w → BitVec 3) (build : BitVec 3 → RegMem w → Instr) (bs rest : List Byte) (i : Instr)
    (hn : ∀ f, field (number f) = f) (h : decodeRm m pfx x b number build bs = .instr i rest) :
    ∃ reg c, i = build reg c ∧ bs = rmBytes field reg c ++ rest ∧ rmOk m pfx x b number field c := by
  cases bs with
  | nil => cases h
  | cons modrm bs =>
    simp only [decodeRm] at h
    split at h
    · rename_i h3
      cases h
      exact ⟨modrmReg modrm, .reg (number (modrmRm modrm)), rfl, by simp [rmBytes, hn, ← h3], by simp [rmOk, hn]⟩
    · rename_i h3
      split at h
      · split at h <;> cases h
      · rename_i ha
        cases ht : takeMem x b (modrmMod modrm) (modrmRm modrm) bs with
        | none => simp [ht] at h
        | some p =>
          simp only [ht, Decoded.instr.injEq] at h
          obtain ⟨rfl, rfl⟩ := h
          obtain ⟨hw, tail, hb, hf⟩ := takeMem_eq x b _ (modrmReg modrm) _ bs p.2 p.1 h3 ht
          exact ⟨modrmReg modrm, .mem p.1, rfl, by simp [rmBytes, hf, hb], by simpa using ha, hw⟩

/-- What MI and VMI rows give. -/
theorem decodeImm_instr (m : Mode) (pfx : List Pfx) (x b : Bool) (build : BitVec 3 → BitVec 8 → Instr)
    (bs rest : List Byte) (i : Instr) (h : decodeImm m pfx x b build bs = .instr i rest) :
    ∃ rm imm, i = build rm imm ∧ bs = byte233 3#2 4#3 rm :: imm :: rest := by
  cases bs with
  | nil => cases h
  | cons modrm bs =>
    simp only [decodeImm] at h
    split at h
    · cases h
    · rename_i h4
      split at h
      · rename_i h3
        cases bs with
        | nil => cases h
        | cons imm bs =>
          cases h
          have h4' : modrmReg modrm = 4#3 := by simpa using h4
          exact ⟨modrmRm modrm, imm, rfl, by rw [← h3, ← h4', byte233_fields]⟩
      · split at h <;> cases h

/-- A VEX prefix that R71 forbids gives no instruction. -/
theorem orUd_ne_instr (d : Decoded) (i : Instr) (rest : List Byte) : d.orUd ≠ .instr i rest := by
  cases d <;> simp [Decoded.orUd]

/-- LOCK gives no instruction. -/
theorem lockUd_ne_instr (d : Decoded) (i : Instr) (rest : List Byte) : d.lockUd ≠ .instr i rest := by
  rcases d with _ | _ | r | _ <;> try exact Decoded.noConfusion
  cases r <;> simp [Decoded.lockUd]

/-! ## Opcodes -/

@[simp] theorem op_ofByte_byte (o : Op) : Op.ofByte o.byte = some o := by cases o <;> decide

theorem op_ofByte_none (b : Byte) (h : ∀ o : Op, b ≠ o.byte) : Op.ofByte b = none := by
  simpa [Op.ofByte] using fun o _ => (h o).symm

theorem op_byte_of_ofByte (b : Byte) (o : Op) (h : Op.ofByte b = some o) : o.byte = b := by
  have := List.find?_some h
  simpa using this

end Sys2Proof
end

