-- ==== Sys2Proof/Laws/Shift.lean ====
section
/-! SUPPORT. What the lane functions do, bit by bit. -/

namespace Sys2Proof.Machine

/-- A bit of a lane-wise map: the bit of `f` of the lane it lies in; 0 above the mapped lanes. -/
theorem getLsbD_mapLanes {n : Nat} (w : Nat) (f : BitVec w → BitVec w) (x : BitVec n) (k b : Nat) (hw : 0 < w) :
    (mapLanes w f x k).getLsbD b =
      (decide (b < n) && decide (b < w * k) && (f (x.extractLsb' (w * (b / w)) w)).getLsbD (b % w)) := by
  induction k with
  | zero => simp [mapLanes]
  | succ k ih =>
    have hbw := Nat.div_add_mod b w
    have hlt := Nat.mod_lt b hw
    rw [mapLanes, BitVec.getLsbD_or, ih, BitVec.getLsbD_shiftLeft, BitVec.getLsbD_setWidth, Nat.mul_succ]
    by_cases hn : b < n <;> simp only [hn, decide_true, decide_false, Bool.true_and, Bool.false_and, Bool.or_false]
    by_cases h1 : b < w * k
    · simp [h1, Nat.lt_add_right w h1]
    · by_cases h2 : b < w * k + w
      · have hq : b / w = k := by
          apply Nat.div_eq_of_lt_le
          · rw [Nat.mul_comm]; omega
          · rw [Nat.succ_mul, Nat.mul_comm k w]; omega
        have hr : b % w = b - w * k := by rw [hq] at hbw; omega
        have h3 : b - w * k < n := by omega
        simp [h1, h2, h3, hq, hr]
      · have : (f (x.extractLsb' (w * k) w)).getLsbD (b - w * k) = false := BitVec.getLsbD_of_ge _ _ (by omega)
        simp [h1, h2, this]

/-- Whole lanes cover the vector. -/
theorem getLsbD_mapLanes_all {n : Nat} (w : Nat) (f : BitVec w → BitVec w) (x : BitVec n) (b : Nat) (hw : 0 < w)
    (hd : w ∣ n) (hb : b < n) :
    (mapLanes w f x (n / w)).getLsbD b = (f (x.extractLsb' (w * (b / w)) w)).getLsbD (b % w) := by
  rw [getLsbD_mapLanes w f x _ b hw, Nat.mul_div_cancel' hd]
  simp [hb]

/-- A word of a lane-wise map. -/
theorem extractLsb'_mapLanes {n : Nat} (w : Nat) (f : BitVec w → BitVec w) (x : BitVec n) (k : Nat) (hw : 0 < w)
    (hd : w ∣ n) (hk : w * (k + 1) ≤ n) :
    (mapLanes w f x (n / w)).extractLsb' (w * k) w = f (x.extractLsb' (w * k) w) := by
  ext j hj
  have hb : w * k + j < n := by rw [Nat.mul_succ] at hk; omega
  rw [BitVec.getElem_extractLsb', getLsbD_mapLanes_all w f x _ hw hd hb, Nat.mul_add_div hw, Nat.mul_add_mod,
    Nat.div_eq_of_lt hj, Nat.mod_eq_of_lt hj]
  simp [BitVec.getLsbD_eq_getElem hj]

end Sys2Proof.Machine
end

