-- ==== Sys2Proof/Laws/State.lean ====
section
/-! SUPPORT. One lemma per field per update, and reading a register after writing one. -/

namespace Sys2Proof.Machine

/-! ## setMm -/

@[simp] theorem setMm_mode (s : State) (i x) : (s.setMm i x).mode = s.mode := rfl
@[simp] theorem setMm_cfg (s : State) (i x) : (s.setMm i x).cfg = s.cfg := rfl
@[simp] theorem setMm_mm (s : State) (i x) : (s.setMm i x).mm = s.mm.set i.toNat x i.isLt := rfl
@[simp] theorem setMm_v (s : State) (i x) : (s.setMm i x).v = s.v := rfl
@[simp] theorem setMm_gpr (s : State) (i x) : (s.setMm i x).gpr = s.gpr := rfl
@[simp] theorem setMm_pc (s : State) (i x) : (s.setMm i x).pc = s.pc := rfl
@[simp] theorem setMm_rflags (s : State) (i x) : (s.setMm i x).rflags = s.rflags := rfl
@[simp] theorem setMm_mxcsr (s : State) (i x) : (s.setMm i x).mxcsr = s.mxcsr := rfl
@[simp] theorem setMm_x87_sw (s : State) (i x) : (s.setMm i x).x87.sw = s.x87.sw := rfl
@[simp] theorem setMm_x87_tw (s : State) (i x) : (s.setMm i x).x87.tw = s.x87.tw := rfl
@[simp] theorem setMm_x87_hi (s : State) (i x) :
    (s.setMm i x).x87.hi = s.x87.hi.set i.toNat 0xFFFF#16 i.isLt := rfl
@[simp] theorem setMm_env (s : State) (i x) : (s.setMm i x).env = s.env := rfl
@[simp] theorem setMm_cr2 (s : State) (i x) : (s.setMm i x).cr2 = s.cr2 := rfl
@[simp] theorem setMm_pages (s : State) (i x) : (s.setMm i x).pages = s.pages := rfl
@[simp] theorem setMm_devices (s : State) (i x) : (s.setMm i x).devices = s.devices := rfl
@[simp] theorem setMm_deviceReads (s : State) (i x) : (s.setMm i x).deviceReads = s.deviceReads := rfl
@[simp] theorem setMm_mem (s : State) (i x) : (s.setMm i x).mem = s.mem := rfl

/-! ## setYmm -/

@[simp] theorem setYmm_mode (s : State) (i x) : (s.setYmm i x).mode = s.mode := rfl
@[simp] theorem setYmm_cfg (s : State) (i x) : (s.setYmm i x).cfg = s.cfg := rfl
@[simp] theorem setYmm_mm (s : State) (i x) : (s.setYmm i x).mm = s.mm := rfl
@[simp] theorem setYmm_v (s : State) (i x) :
    (s.setYmm i x).v = s.v.set (effNum s.mode i).toNat x (effNum s.mode i).isLt := rfl
@[simp] theorem setYmm_gpr (s : State) (i x) : (s.setYmm i x).gpr = s.gpr := rfl
@[simp] theorem setYmm_pc (s : State) (i x) : (s.setYmm i x).pc = s.pc := rfl
@[simp] theorem setYmm_rflags (s : State) (i x) : (s.setYmm i x).rflags = s.rflags := rfl
@[simp] theorem setYmm_mxcsr (s : State) (i x) : (s.setYmm i x).mxcsr = s.mxcsr := rfl
@[simp] theorem setYmm_x87 (s : State) (i x) : (s.setYmm i x).x87 = s.x87 := rfl
@[simp] theorem setYmm_env (s : State) (i x) : (s.setYmm i x).env = s.env := rfl
@[simp] theorem setYmm_cr2 (s : State) (i x) : (s.setYmm i x).cr2 = s.cr2 := rfl
@[simp] theorem setYmm_pages (s : State) (i x) : (s.setYmm i x).pages = s.pages := rfl
@[simp] theorem setYmm_devices (s : State) (i x) : (s.setYmm i x).devices = s.devices := rfl
@[simp] theorem setYmm_deviceReads (s : State) (i x) : (s.setYmm i x).deviceReads = s.deviceReads := rfl
@[simp] theorem setYmm_mem (s : State) (i x) : (s.setYmm i x).mem = s.mem := rfl

/-! ## noteRead: only deviceReads may change -/

/-- What `noteRead` does, said once. -/
theorem noteRead_eq (s : State) (a : Access) (n : Nat) :
    ∃ l, s.noteRead a n = { s with deviceReads := l } := by
  unfold State.noteRead
  split
  · exact ⟨_, rfl⟩
  · exact ⟨_, rfl⟩

@[simp] theorem noteRead_mode (s : State) (a n) : (s.noteRead a n).mode = s.mode := by
  obtain ⟨l, h⟩ := noteRead_eq s a n; rw [h]
@[simp] theorem noteRead_cfg (s : State) (a n) : (s.noteRead a n).cfg = s.cfg := by
  obtain ⟨l, h⟩ := noteRead_eq s a n; rw [h]
@[simp] theorem noteRead_mm (s : State) (a n) : (s.noteRead a n).mm = s.mm := by
  obtain ⟨l, h⟩ := noteRead_eq s a n; rw [h]
@[simp] theorem noteRead_v (s : State) (a n) : (s.noteRead a n).v = s.v := by
  obtain ⟨l, h⟩ := noteRead_eq s a n; rw [h]
@[simp] theorem noteRead_gpr (s : State) (a n) : (s.noteRead a n).gpr = s.gpr := by
  obtain ⟨l, h⟩ := noteRead_eq s a n; rw [h]
@[simp] theorem noteRead_pc (s : State) (a n) : (s.noteRead a n).pc = s.pc := by
  obtain ⟨l, h⟩ := noteRead_eq s a n; rw [h]
@[simp] theorem noteRead_rflags (s : State) (a n) : (s.noteRead a n).rflags = s.rflags := by
  obtain ⟨l, h⟩ := noteRead_eq s a n; rw [h]
@[simp] theorem noteRead_mxcsr (s : State) (a n) : (s.noteRead a n).mxcsr = s.mxcsr := by
  obtain ⟨l, h⟩ := noteRead_eq s a n; rw [h]
@[simp] theorem noteRead_x87 (s : State) (a n) : (s.noteRead a n).x87 = s.x87 := by
  obtain ⟨l, h⟩ := noteRead_eq s a n; rw [h]
@[simp] theorem noteRead_env (s : State) (a n) : (s.noteRead a n).env = s.env := by
  obtain ⟨l, h⟩ := noteRead_eq s a n; rw [h]
@[simp] theorem noteRead_cr2 (s : State) (a n) : (s.noteRead a n).cr2 = s.cr2 := by
  obtain ⟨l, h⟩ := noteRead_eq s a n; rw [h]
@[simp] theorem noteRead_pages (s : State) (a n) : (s.noteRead a n).pages = s.pages := by
  obtain ⟨l, h⟩ := noteRead_eq s a n; rw [h]
@[simp] theorem noteRead_devices (s : State) (a n) : (s.noteRead a n).devices = s.devices := by
  obtain ⟨l, h⟩ := noteRead_eq s a n; rw [h]
@[simp] theorem noteRead_mem (s : State) (a n) : (s.noteRead a n).mem = s.mem := by
  obtain ⟨l, h⟩ := noteRead_eq s a n; rw [h]
@[simp] theorem noteRead_mmAt (s : State) (a n r) : (s.noteRead a n).mmAt r = s.mmAt r := by simp [State.mmAt]
@[simp] theorem noteRead_ymmAt (s : State) (a n r) : (s.noteRead a n).ymmAt r = s.ymmAt r := by simp [State.ymmAt]
@[simp] theorem noteRead_ip (s : State) (a n) : (s.noteRead a n).ip = s.ip := by simp [State.ip]

/-- What `noteRead` records. -/
theorem noteRead_noted (s t : State) (a : Access) (n : Nat) (h : t.deviceReads = (s.noteRead a n).deviceReads) :
    ReadNoted s t a n := by
  unfold State.noteRead at h
  constructor
  · intro hn
    rw [if_neg] at h
    · exact h
    · simpa using hn
  · rintro ⟨k, hk, hd⟩
    rw [if_pos] at h
    · exact h
    · simpa using ⟨k, hk, hd⟩

/-! ## Registers -/

theorem get_set_self {α : Type} {n w : Nat} (v : Vector α n) (i : BitVec w) (x : α) (h : 2 ^ w = n) :
    (v.set i.toNat x (h ▸ i.isLt)).get (Fin.cast h i.toFin) = x := by
  subst h; simp [Vector.get_eq_getElem]

theorem get_set_other {α : Type} {n w : Nat} (v : Vector α n) (i j : BitVec w) (x : α) (h : 2 ^ w = n) (hij : j ≠ i) :
    (v.set i.toNat x (h ▸ i.isLt)).get (Fin.cast h j.toFin) = v.get (Fin.cast h j.toFin) := by
  subst h
  have : i.toNat ≠ j.toNat := fun e => hij (BitVec.eq_of_toNat_eq e.symm)
  simp [Vector.get_eq_getElem, this]

@[simp] theorem mmAt_setMm (s : State) (i x) : (s.setMm i x).mmAt i = x :=
  get_set_self s.mm i x rfl

theorem mmAt_setMm_other (s : State) (i j x) (h : j ≠ i) : (s.setMm i x).mmAt j = s.mmAt j :=
  get_set_other s.mm i j x rfl h

@[simp] theorem ymmAt_setYmm (s : State) (i x) : (s.setYmm i x).ymmAt i = x :=
  get_set_self s.v (effNum s.mode i) x rfl

theorem ymm_setYmm_other (s : State) (i x) (j : BitVec 4) (h : j ≠ effNum s.mode i) :
    (s.setYmm i x).v.get j.toFin = s.v.get j.toFin :=
  get_set_other s.v (effNum s.mode i) j x rfl h

@[simp] theorem setXmmKeep_eq (s : State) (i x) :
    s.setXmmKeep i x = s.setYmm i ((s.ymmAt i).extractLsb' 128 128 ++ x) := rfl

@[simp] theorem setXmmZero_eq (s : State) (i x) : s.setXmmZero i x = s.setYmm i (0#128 ++ x) := rfl

/-- The x87 side effects of an MMX row (10_state.md R22). -/
theorem afterMmx_marked (x : X87) (d : BitVec 3) :
    X87Marked x ({ x with hi := x.hi.set d.toNat 0xFFFF#16 d.isLt } : X87).afterMmx d := by
  refine ⟨?_, rfl, ?_, get_set_self x.hi d _ rfl, fun j hj => get_set_other x.hi d j _ rfl hj⟩
  · simp only [X87.top, X87.afterMmx]
    ext j hj
    have : (0xC7FF#16).getLsbD (11 + j) = false := by
      have : j = 0 ∨ j = 1 ∨ j = 2 := by omega
      rcases this with rfl | rfl | rfl <;> decide
    rw [BitVec.getElem_extractLsb', BitVec.getLsbD_and, this]
    simp
  · intro b hb
    simp only [X87.afterMmx, BitVec.getLsbD_and]
    by_cases h : b < 16
    · have hm : ∀ b : Fin 16, (b.val < 11 ∨ 14 ≤ b.val) → (0xC7FF#16).getLsbD b = true := by decide
      simp [hm ⟨b, h⟩ hb]
    · rw [BitVec.getLsbD_of_ge x.sw b (by omega), Bool.false_and]

/-- Bits 255:128 kept over new bits 127:0 (10_state.md R13, legacy SSE2). -/
theorem getLsbD_keep (y : YmmWord) (x : XmmWord) (b : Nat) (h : 128 ≤ b) :
    (y.extractLsb' 128 128 ++ x : YmmWord).getLsbD b = y.getLsbD b := by
  rw [BitVec.getLsbD_append, if_neg (by omega), BitVec.getLsbD_extractLsb', show 128 + (b - 128) = b by omega]
  by_cases hb : b < 256
  · simp [show b - 128 < 128 by omega]
  · rw [BitVec.getLsbD_of_ge y b (by omega), Bool.and_false]

/-- Zeros over new bits 127:0 (10_state.md R13, VEX.128). -/
theorem getLsbD_zero (x : XmmWord) (b : Nat) (h : 128 ≤ b) : (0#128 ++ x : YmmWord).getLsbD b = false := by
  rw [BitVec.getLsbD_append, if_neg (by omega)]
  simp

/-- Bits 127:0 of a register put together from two halves. -/
theorem extractLsb'_low (y x : XmmWord) : (y ++ x : YmmWord).extractLsb' 0 128 = x := by
  ext j hj
  rw [BitVec.getElem_extractLsb', BitVec.getLsbD_append, if_pos (by omega), Nat.zero_add, BitVec.getLsbD_eq_getElem hj]

end Sys2Proof.Machine
end

