-- ==== Sys2Proof/Laws/Ops.lean ====
section
/-! SUPPORT. The shared operations of the meanings, each with one lemma that says when it goes on and one that says what
it did if the step gave a next state. -/

namespace Sys2Proof.Machine

/-! ## Prefixes of a well-formed instruction -/

theorem not_mem_of_contains {l : List Pfx} {p : Pfx} (h : l.contains p = false) : p ∉ l := by
  simpa using h

/-- A well-formed instruction has no `F2` or `F3` that refuses it. -/
theorem wf_not_reserved (m : Mode) (i : Instr) (h : i.wf m = true) : i.reservedPfx = false := by
  cases i <;> simp_all [Instr.wf, Instr.fieldsWf, Instr.reservedPfx, Instr.row, Instr.pfx, LegacyEnc.wf]

/-- On a well-formed instruction the #UD conditions of R121 are the feature flag and the enable state. -/
theorem wf_noUd (s : State) (i : Instr) (h : i.wf s.mode = true) (hf : s.cfg.has i.row.needs = true)
    (he : match i.row.cls with
      | .mmx => s.env.EM = false
      | .sse2 => s.env.EM = false ∧ s.env.OSFXSR = true
      | .vex128 | .vex256 => s.cfg.avx = true ∧ s.env.OSXSAVE = true ∧ s.env.XCR0_SSE = true ∧ s.env.XCR0_AVX = true) : NoUd s i := by
  refine ⟨hf, ?_⟩
  cases i <;> simp_all [Instr.wf, Instr.fieldsWf, Instr.row, Instr.pfx, Instr.rex, LegacyEnc.wf, VexEnc.wf, badVexPfx]

/-- A well-formed instruction with a memory operand has an address of 32 or 64 bits. -/
theorem wf_not_addr16 (m : Mode) (i : Instr) (f : MemForm) (h : i.wf m = true) (hf : memOperand i = some f) :
    addr16 m i.pfx = false := by
  cases i
  case psrawMm e d c => cases c <;> simp_all [memOperand, Instr.wf, Instr.fieldsWf, mmRmWf, Instr.pfx]
  case psradMm e d c => cases c <;> simp_all [memOperand, Instr.wf, Instr.fieldsWf, mmRmWf, Instr.pfx]
  case psrawXmm e d c => cases c <;> simp_all [memOperand, Instr.wf, Instr.fieldsWf, xmmRmWf, Instr.pfx]
  case psradXmm e d c => cases c <;> simp_all [memOperand, Instr.wf, Instr.fieldsWf, xmmRmWf, Instr.pfx]
  case vpsrawXmm e d s c => cases c <;> simp_all [memOperand, Instr.wf, Instr.fieldsWf, xmmRmWf, Instr.pfx]
  case vpsrawYmm e d s c => cases c <;> simp_all [memOperand, Instr.wf, Instr.fieldsWf, xmmRmWf, Instr.pfx]
  case vpsradXmm e d s c => cases c <;> simp_all [memOperand, Instr.wf, Instr.fieldsWf, xmmRmWf, Instr.pfx]
  case vpsradYmm e d s c => cases c <;> simp_all [memOperand, Instr.wf, Instr.fieldsWf, xmmRmWf, Instr.pfx]
  all_goals simp [memOperand] at hf

/-! ## Precheck -/

/-- `udCond` is the failure of `NoUd`. -/
theorem udCond_eq_false (s : State) (i : Instr) : s.udCond i = false ↔ NoUd s i := by
  unfold State.udCond NoUd
  cases h : i.row.cls <;> simp [badVexPfx] <;> tauto

/-- `Precheck` finds nothing exactly when no condition of R121 to R123 holds. -/
theorem precheck_eq_none (s : State) (i : Instr) : s.precheck i = none ↔ PrecheckPasses s i := by
  unfold State.precheck PrecheckPasses
  rw [← udCond_eq_false]
  cases s.udCond i <;> cases s.env.TS <;> simp

/-- The instruction runs when `Precheck` passes. -/
theorem checked_passes (s : State) (i : Instr) (k : Result) (hr : i.reservedPfx = false) (h : PrecheckPasses s i) :
    s.checked i k = k := by
  simp [State.checked, hr, (precheck_eq_none s i).2 h]

/-- `Precheck` raises its exception. -/
theorem checked_raises (s : State) (i : Instr) (k : Result) (e : Exc) (hr : i.reservedPfx = false)
    (h : s.precheck i = some e) : s.checked i k = raise e := by
  simp [State.checked, hr, h]

/-- A next state comes from the instruction itself, after `Precheck` passed. -/
theorem checked_next (s t : State) (i : Instr) (k : Result) (h : s.checked i k = .next t) :
    PrecheckPasses s i ∧ k = .next t := by
  unfold State.checked at h
  split at h
  · cases h
  · split at h
    · cases h
    · exact ⟨(precheck_eq_none s i).1 (by assumption), h⟩

/-! ## Completion -/

/-- The state after completion. -/
theorem complete_next (s : State) (i : Instr) (h : NoWrap s i) :
    s.complete i = .next { s with pc := BitVec.ofNat 64 (s.ip + i.len) } := by
  unfold State.complete
  exact if_pos h

/-- Completion is refused exactly when pc would wrap. -/
theorem complete_wraps (s : State) (i : Instr) : s.complete i = .refused .pcWraps ↔ pcTop s.mode ≤ s.ip + i.len := by
  unfold State.complete
  split <;> simp <;> omega

/-- What completion did. -/
theorem complete_inv (s t : State) (i : Instr) (h : s.complete i = .next t) :
    NoWrap s i ∧ t = { s with pc := BitVec.ofNat 64 (s.ip + i.len) } := by
  unfold State.complete at h
  split at h
  · exact ⟨by assumption, by cases h; rfl⟩
  · cases h

theorem pcTop_le (m : Mode) : pcTop m ≤ 2 ^ 64 := by cases m <;> decide

/-- The new pc as a number. -/
theorem toNat_next_pc (s : State) (i : Instr) (h : NoWrap s i) :
    (BitVec.ofNat 64 (s.ip + i.len)).toNat = s.ip + i.len := by
  rw [BitVec.toNat_ofNat]
  exact Nat.mod_eq_of_lt (lt_of_lt_of_le h (pcTop_le s.mode))

/-! ## Memory operands -/

/-- Loading bytes that are all there. -/
theorem load_ok (s : State) (a : Access) (n k : Nat) (g : Nat → Byte)
    (h : ∀ j, k ≤ j → j < k + n → s.byteAt (s.byteAddr a j) = some (g j)) :
    s.load a k n = .ok ((List.range' k n).map g) := by
  induction n generalizing k with
  | zero => rfl
  | succ n ih =>
    have h0 := h k (le_refl k) (by omega)
    have h1 := ih (k + 1) (fun j hj hj' => h j (by omega) (by omega))
    simp [State.load, h0, h1, List.range'_succ]

/-- Loading stops at a byte that is not there. -/
theorem load_error (s : State) (a : Access) (n k j : Nat) (hj : k ≤ j ∧ j < k + n)
    (h : s.byteAt (s.byteAddr a j) = none) :
    ∃ x, s.load a k n = .error x ∧ ∃ l, k ≤ l ∧ l < k + n ∧ x = s.byteAddr a l ∧ s.byteAt x = none := by
  induction n generalizing k with
  | zero => omega
  | succ n ih =>
    cases hk : s.byteAt (s.byteAddr a k) with
    | none =>
      exact ⟨s.byteAddr a k, by simp [State.load, hk], k, by omega, by omega, rfl, hk⟩
    | some b =>
      have hjk : j ≠ k := by rintro rfl; rw [h] at hk; cases hk
      obtain ⟨x, hx, l, hl, hl', hxl⟩ := ih (k + 1) ⟨by omega, by omega⟩
      exact ⟨x, by simp [State.load, hk, hx], l, by omega, by omega, hxl⟩

/-- The check on bits 63:47 as bits. -/
theorem canonical_iff (a : Addr) :
    canonical a = true ↔ ∀ b, 47 ≤ b → b < 64 → a.getLsbD b = a.getLsbD 63 := by
  have key : canonical a = true ↔ (∀ j < 17, a.getLsbD (47 + j) = false) ∨ (∀ j < 17, a.getLsbD (47 + j) = true) := by
    simp only [canonical, Bool.or_eq_true, beq_iff_eq]
    constructor
    · rintro (h | h)
      · exact .inl fun j hj => by simpa [hj] using congrArg (·.getLsbD j) h
      · exact .inr fun j hj => by simpa [hj, -BitVec.reduceAllOnes] using congrArg (·.getLsbD j) h
    · rintro (h | h)
      · exact .inl (by ext j hj; simpa using h j hj)
      · exact .inr (by ext j hj; simpa [-BitVec.reduceAllOnes] using h j hj)
  rw [key]
  constructor
  · rintro (h | h) b h1 h2 <;>
      rw [show b = 47 + (b - 47) by omega, h _ (by omega), show (63 : Nat) = 47 + 16 from rfl, h 16 (by omega)]
  · intro h
    cases h63 : a.getLsbD 63
    · exact .inl fun j hj => by rw [h _ (by omega) (by omega), h63]
    · exact .inr fun j hj => by rw [h _ (by omega) (by omega), h63]

/-- The segment check, as the rules say it. -/
theorem segOk_iff (s : State) (g : SegSel) (off : Addr) : s.segOk g off = true ↔ InSegment s g off := by
  unfold State.segOk InSegment
  cases s.mode with
  | mode64 => exact canonical_iff _
  | mode32 => simp [or_comm]

/-- The page check, as the rules say it. -/
theorem pageFault_eq_none (s : State) (a : Addr) : s.pageFault a = none ↔ Admitted s a := by
  unfold State.pageFault Admitted
  cases s.pageStatus a with
  | notPresent => simp
  | present u r => cases u <;> cases r <;> simp

/-- The code of a failing page. -/
theorem pageFault_code (s : State) (a : Addr) (code : BitVec 32) (h : s.pageFault a = some code) :
    IsPageFaultCode s a code := by
  have high : ∀ x : BitVec 32, x.toNat < 16 → ∀ b, 4 ≤ b → x.getLsbD b = false := fun x hx b hb =>
    Nat.testBit_lt_two_pow (lt_of_lt_of_le hx (Nat.pow_le_pow_right (n := 2) (by decide) hb))
  unfold State.pageFault at h
  unfold IsPageFaultCode
  by_cases hu : s.env.CPL = 3#2
  all_goals
    simp only [hu, beq_self_eq_true, beq_iff_eq, ↓reduceIte] at h ⊢
    cases hp : s.pageStatus a with
    | notPresent =>
      simp only [hp] at h
      cases h
      exact ⟨by simp, by simp, by simp, by simp, high _ (by decide)⟩
    | present u r =>
      cases u <;> cases r <;> simp [hp, hu] at h
      all_goals
        subst h
        exact ⟨by simp, by simp, by simp, by simp, high _ (by decide)⟩

/-- No byte of an admitted operand fails translation. -/
theorem failing_eq_nil (s : State) (a : Access) (n : Nat) :
    s.failing a n = [] ↔ ∀ k < n, s.pageFault (s.byteAddr a k) = none := by
  simp [State.failing, List.filterMap_eq_nil_iff]

/-- Every check of a read passes. -/
theorem memRead_passes (s : State) (a : Access) (n : Nat) (al : AlignRule)
    (hs : ∀ k < n, s.segOk a.seg (a.offset k) = true) (h16 : al = .sse16 → (s.byteAddr a 0).toNat % 16 = 0)
    (hp : ∀ k < n, s.pageFault (s.byteAddr a k) = none)
    (h8 : al = .mmx8 → s.alignCheck = true → (s.byteAddr a 0).toNat % 8 = 0) :
    s.memRead a n al = match s.load a 0 n with
      | .ok bs => .ok bs
      | .error b => .error (.fault (.stuckRead b)) := by
  unfold State.memRead
  rw [if_neg (by simpa using hs), if_neg (by rintro ⟨h, h'⟩; exact h' (h16 h)), (failing_eq_nil s a n).2 hp]
  simp only
  exact (if_neg (by rintro ⟨h, h', h''⟩; exact h'' (h8 h h'))).trans (by cases s.load a 0 n <;> rfl)

/-- The low 64 bits of bytes that hold a 64-bit number. -/
theorem assemble_bit (n : Nat) (bs : List Byte) (b : Nat) :
    (assemble n bs).getLsbD b = (decide (b < n) && (bs.getD (b / 8) 0#8).getLsbD (b % 8)) := by
  induction bs generalizing b with
  | nil => simp [assemble]
  | cons x bs ih =>
    rw [assemble, BitVec.getLsbD_or, BitVec.getLsbD_shiftLeft, ih, BitVec.getLsbD_setWidth]
    by_cases hn : b < n
    · by_cases h8 : b < 8
      · simp [hn, h8, Nat.div_eq_of_lt h8, Nat.mod_eq_of_lt h8]
      · have hd : b / 8 = (b - 8) / 8 + 1 := by omega
        have hm : (b - 8) % 8 = b % 8 := by omega
        have hx : x.getLsbD b = false := BitVec.getLsbD_of_ge _ _ (by omega)
        have hn' : b - 8 < n := by omega
        simp [hn, h8, hd, hm, hx, hn']
    · simp [hn]

/-- The count in bytes: the first eight hold it, little-endian. -/
theorem assemble_count (n m : Nat) (g : Nat → Byte) (c : Nat) (hc : c < 2 ^ 64) (hn : 64 ≤ n) (hm : 8 ≤ m)
    (hg : ∀ k < 8, g k = (BitVec.ofNat 64 c).extractLsb' (8 * k) 8) :
    ((assemble n ((List.range' 0 m).map g)).extractLsb' 0 64).toNat = c := by
  have : (assemble n ((List.range' 0 m).map g)).extractLsb' 0 64 = BitVec.ofNat 64 c := by
    ext b hb
    have h8 : b / 8 < 8 := by omega
    have hm' : b / 8 < m := by omega
    have hb' : 8 * (b / 8) + b % 8 = b := by omega
    have hbn : b < n := by omega
    have hlt : b % 8 < 8 := by omega
    rw [BitVec.getElem_extractLsb', assemble_bit]
    rw [List.getD_eq_getElem _ _ (by simpa using hm')]
    simp only [List.getElem_map, List.getElem_range', Nat.zero_add, Nat.one_mul]
    rw [hg _ h8]
    simp only [BitVec.getLsbD_extractLsb', hlt, decide_true, Bool.true_and, hb']
    simp [hbn, BitVec.getLsbD_eq_getElem hb]
  rw [this, BitVec.toNat_ofNat, Nat.mod_eq_of_lt hc]

/-- Reading a count from memory: the value, and the noted read. -/
theorem withMem_count (s : State) (i : Instr) (f : MemForm) (n : Nat) (al : AlignRule) (c : Nat)
    (k : List Byte → State → Result) (ha : addr16 s.mode i.pfx = false) (hn : 8 ≤ n)
    (hr : Readable s (s.access i f) n)
    (h16 : al = .sse16 → (s.byteAddr (s.access i f) 0).toNat % 16 = 0)
    (h8 : al = .mmx8 → s.alignCheck = true → (s.byteAddr (s.access i f) 0).toNat % 8 = 0)
    (hc : CountBytes s (s.access i f) c) :
    ∃ bs, s.withMem i f n al k = k bs (s.noteRead (s.access i f) n) ∧
      ∀ w, 64 ≤ w → ((assemble w bs).extractLsb' 0 64).toNat = c := by
  let g : Nat → Byte := fun j => (s.byteAt (s.byteAddr (s.access i f) j)).getD 0#8
  have hg : ∀ j, 0 ≤ j → j < 0 + n → s.byteAt (s.byteAddr (s.access i f) j) = some (g j) := by
    intro j _ hj
    have := hr.present j (by omega)
    obtain ⟨x, hx⟩ := Option.isSome_iff_exists.1 this
    simp [g, hx]
  refine ⟨(List.range' 0 n).map g, ?_, ?_⟩
  · unfold State.withMem
    rw [ha, memRead_passes s _ n al (fun k hk => (segOk_iff s _ _).2 (hr.inside k hk)) h16
      (fun k hk => (pageFault_eq_none s _).2 (hr.admitted k hk)) h8, load_ok s _ n 0 g hg]
    rfl
  · intro w hw
    refine assemble_count w n g c hc.1 hw hn ?_
    intro j hj
    have := hc.2 j hj
    simp [g, this]

/-- A next state after a memory operand comes from the rest of the instruction. -/
theorem withMem_next (s t : State) (i : Instr) (f : MemForm) (n : Nat) (al : AlignRule) (k : List Byte → State → Result)
    (h : s.withMem i f n al k = .next t) :
    (∃ bs, s.memRead (s.access i f) n al = .ok bs ∧ k bs (s.noteRead (s.access i f) n) = .next t) := by
  unfold State.withMem at h
  split at h
  · cases h
  · split at h
    · exact ⟨_, by assumption, h⟩
    · rename_i r hr
      -- a stopped read is never a next state
      exfalso
      subst h
      unfold State.memRead at hr
      split at hr
      · cases hr
      · split at hr
        · cases hr
        · split at hr
          · cases hr
          · split at hr
            · cases hr
            · split at hr
              · cases hr
              · cases hr

/-! ## The count -/

/-- An `mm/m64` count that can be read. -/
theorem withCountMm_count (s : State) (i : Instr) (c : MmRm) (n : Nat) (k : Nat → State → Result)
    (ha : ∀ f, c = .mem f → addr16 s.mode i.pfx = false) (hc : CountMm s i n c) :
    ∃ u, s.withCountMm i c k = k n u ∧ (∃ l, u = { s with deviceReads := l }) ∧
      ∀ t : State, t.deviceReads = u.deviceReads → CountNoted s t i 8 c := by
  cases c with
  | reg r => exact ⟨s, by simp [State.withCountMm, show n = _ from hc], ⟨_, rfl⟩, fun t h => h⟩
  | mem f =>
    obtain ⟨hr, h8, hb⟩ := hc
    obtain ⟨bs, h, hv⟩ := withMem_count s i f 8 .mmx8 n (fun bs t => k (assemble 64 bs).toNat t) (ha f rfl) (le_refl 8)
      hr (by intro h; cases h) (fun _ => h8) hb
    have hv' := hv 64 (le_refl 64)
    rw [BitVec.extractLsb'_eq_self] at hv'
    refine ⟨s.noteRead (s.access i f) 8, ?_, noteRead_eq _ _ _, fun t h => noteRead_noted s t _ 8 h⟩
    simp only [State.withCountMm]
    rw [h, hv']

/-- An `xmm/m128` count that can be read. -/
theorem withCountXmm_count (s : State) (i : Instr) (al : AlignRule) (c : XmmRm) (n : Nat) (k : Nat → State → Result)
    (hal : al ≠ .mmx8) (ha : ∀ f, c = .mem f → addr16 s.mode i.pfx = false)
    (hc : CountXmm s i (al == .sse16) n c) :
    ∃ u, s.withCountXmm i al c k = k n u ∧ (∃ l, u = { s with deviceReads := l }) ∧
      ∀ t : State, t.deviceReads = u.deviceReads → CountNoted s t i 16 c := by
  cases c with
  | reg r =>
    refine ⟨s, ?_, ⟨_, rfl⟩, fun t h => h⟩
    have hn : n = (s.xmmAt r).toNat % 2 ^ 64 := hc
    simp [State.withCountXmm, hn]
  | mem f =>
    obtain ⟨hr, h16, hb⟩ := hc
    obtain ⟨bs, h, hv⟩ := withMem_count s i f 16 al n
      (fun bs t => k ((assemble 128 bs).extractLsb' 0 64).toNat t) (ha f rfl) (by decide) hr
      (fun h => h16 (by simp [h])) (fun h => absurd h hal) hb
    refine ⟨s.noteRead (s.access i f) 16, ?_, noteRead_eq _ _ _, fun t h => noteRead_noted s t _ 16 h⟩
    simp only [State.withCountXmm]
    rw [h, hv 128 (by decide)]

/-- A next state after an `mm/m64` count comes from the rest of the instruction, on a state that differs in the recorded
device reads at most. -/
theorem withCountMm_next (s t : State) (i : Instr) (c : MmRm) (k : Nat → State → Result)
    (h : s.withCountMm i c k = .next t) : ∃ n l, k n { s with deviceReads := l } = .next t := by
  cases c with
  | reg r => exact ⟨_, s.deviceReads, h⟩
  | mem f =>
    obtain ⟨bs, -, h'⟩ := withMem_next s t i f _ _ _ h
    obtain ⟨l, hl⟩ := noteRead_eq s (s.access i f) 8
    rw [hl] at h'
    exact ⟨_, l, h'⟩

/-- The same for an `xmm/m128` count. -/
theorem withCountXmm_next (s t : State) (i : Instr) (al : AlignRule) (c : XmmRm) (k : Nat → State → Result)
    (h : s.withCountXmm i al c k = .next t) : ∃ n l, k n { s with deviceReads := l } = .next t := by
  cases c with
  | reg r => exact ⟨_, s.deviceReads, h⟩
  | mem f =>
    obtain ⟨bs, -, h'⟩ := withMem_next s t i f _ _ _ h
    obtain ⟨l, hl⟩ := noteRead_eq s (s.access i f) 16
    rw [hl] at h'
    exact ⟨_, l, h'⟩

end Sys2Proof.Machine
end

