-- ==== Sys2Proof/Laws/Exec.lean ====
section
/-! SUPPORT. What a next state of an instruction is: one lemma for all sixteen rows, from which invariants and frames
follow without unfolding a meaning. -/

namespace Sys2Proof.Machine

/-- `s` with pc past the instruction and these recorded device reads. -/
def State.moved (s : State) (i : Instr) (l : List DeviceRead) : State :=
  { s with deviceReads := l, pc := BitVec.ofNat 64 (s.ip + i.len) }

/-- Every next state of an instruction: its destination written, by the rule of its class (10_state.md R13, R22), pc moved,
device reads noted; and the checks that passed before. -/
structure ExecNext (i : Instr) (s t : State) : Prop where
  passes : PrecheckPasses s i
  room   : NoWrap s i
  state  : ∃ l,
    (i.row.cls = .mmx ∧ ∃ (d : BitVec 3) (x : MmWord), mmDst i = some d ∧
      t = State.moved { s.setMm d x with x87 := (s.setMm d x).x87.afterMmx } i l) ∨
    (i.row.cls = .sse2 ∧ ∃ (d : BitVec 4) (x : XmmWord), vecDst i = some d ∧
      t = (s.setYmm d ((s.ymmAt d).extractLsb' 128 128 ++ x)).moved i l) ∨
    (i.row.cls = .vex128 ∧ ∃ (d : BitVec 4) (x : XmmWord), vecDst i = some d ∧
      t = (s.setYmm d (0#128 ++ x)).moved i l) ∨
    (i.row.cls = .vex256 ∧ ∃ (d : BitVec 4) (x : YmmWord), vecDst i = some d ∧
      t = (s.setYmm d x).moved i l)

theorem execNext_mmx (s t : State) (i : Instr) (l : List DeviceRead) (d : BitVec 3) (x : MmWord)
    (hc : i.row.cls = .mmx) (hd : mmDst i = some d) (hp : PrecheckPasses s i)
    (h : State.completeMmx (State.setMm { s with deviceReads := l } d x) i = .next t) : ExecNext i s t := by
  obtain ⟨hw, ht⟩ := complete_inv _ _ _ h
  exact ⟨hp, hw, l, .inl ⟨hc, d, x, hd, ht⟩⟩

theorem execNext_sse2 (s t : State) (i : Instr) (l : List DeviceRead) (d : BitVec 4) (x : XmmWord)
    (hc : i.row.cls = .sse2) (hd : vecDst i = some d) (hp : PrecheckPasses s i)
    (h : State.complete (State.setXmmKeep { s with deviceReads := l } d x) i = .next t) : ExecNext i s t := by
  obtain ⟨hw, ht⟩ := complete_inv _ _ _ h
  exact ⟨hp, hw, l, .inr (.inl ⟨hc, d, x, hd, ht⟩)⟩

theorem execNext_vex128 (s t : State) (i : Instr) (l : List DeviceRead) (d : BitVec 4) (x : XmmWord)
    (hc : i.row.cls = .vex128) (hd : vecDst i = some d) (hp : PrecheckPasses s i)
    (h : State.complete (State.setXmmZero { s with deviceReads := l } d x) i = .next t) : ExecNext i s t := by
  obtain ⟨hw, ht⟩ := complete_inv _ _ _ h
  exact ⟨hp, hw, l, .inr (.inr (.inl ⟨hc, d, x, hd, ht⟩))⟩

theorem execNext_vex256 (s t : State) (i : Instr) (l : List DeviceRead) (d : BitVec 4) (x : YmmWord)
    (hc : i.row.cls = .vex256) (hd : vecDst i = some d) (hp : PrecheckPasses s i)
    (h : State.complete (State.setYmm { s with deviceReads := l } d x) i = .next t) : ExecNext i s t := by
  obtain ⟨hw, ht⟩ := complete_inv _ _ _ h
  exact ⟨hp, hw, l, .inr (.inr (.inr ⟨hc, d, x, hd, ht⟩))⟩

/-- What the rest of each row is, after `Precheck`. -/
def State.body (s : State) (i : Instr) : Result :=
  match i with
  | .psrawMm _ d c => s.withCountMm i c fun n t => State.completeMmx (t.setMm d (sraWords (s.mmAt d) n)) i
  | .psradMm _ d c => s.withCountMm i c fun n t => State.completeMmx (t.setMm d (sraDwords (s.mmAt d) n)) i
  | .psrawXmm _ d c => s.withCountXmm i .sse16 c fun n t => State.complete (t.setXmmKeep d (sraWords (s.xmmAt d) n)) i
  | .psradXmm _ d c => s.withCountXmm i .sse16 c fun n t => State.complete (t.setXmmKeep d (sraDwords (s.xmmAt d) n)) i
  | .psrawMmImm _ d n => State.completeMmx (s.setMm d (sraWords (s.mmAt d) n.toNat)) i
  | .psradMmImm _ d n => State.completeMmx (s.setMm d (sraDwords (s.mmAt d) n.toNat)) i
  | .psrawXmmImm _ d n => State.complete (s.setXmmKeep d (sraWords (s.xmmAt d) n.toNat)) i
  | .psradXmmImm _ d n => State.complete (s.setXmmKeep d (sraDwords (s.xmmAt d) n.toNat)) i
  | .vpsrawXmm _ d r c => s.withCountXmm i .none c fun n t => State.complete (t.setXmmZero d (sraWords (s.xmmAt r) n)) i
  | .vpsradXmm _ d r c => s.withCountXmm i .none c fun n t => State.complete (t.setXmmZero d (sraDwords (s.xmmAt r) n)) i
  | .vpsrawYmm _ d r c => s.withCountXmm i .none c fun n t => State.complete (t.setYmm d (sraWords (s.ymmAt r) n)) i
  | .vpsradYmm _ d r c => s.withCountXmm i .none c fun n t => State.complete (t.setYmm d (sraDwords (s.ymmAt r) n)) i
  | .vpsrawXmmImm _ d r n => State.complete (s.setXmmZero d (sraWords (s.xmmAt r) n.toNat)) i
  | .vpsradXmmImm _ d r n => State.complete (s.setXmmZero d (sraDwords (s.xmmAt r) n.toNat)) i
  | .vpsrawYmmImm _ d r n => State.complete (s.setYmm d (sraWords (s.ymmAt r) n.toNat)) i
  | .vpsradYmmImm _ d r n => State.complete (s.setYmm d (sraDwords (s.ymmAt r) n.toNat)) i

/-- Every row runs `Precheck` first (60_exceptions.md R128), then its body. -/
theorem exec_checked (i : Instr) (s : State) : exec i s = s.checked i (s.body i) := by
  cases i <;> rfl

/-- The next state of any instruction is an `ExecNext`. -/
theorem exec_next (i : Instr) (s t : State) (h : exec i s = .next t) : ExecNext i s t := by
  rw [exec_checked] at h
  obtain ⟨hp, h⟩ := checked_next s t i _ h
  cases i <;> dsimp only [State.body] at h
  case psrawMm | psradMm =>
    obtain ⟨n, l, h⟩ := withCountMm_next _ _ _ _ _ h
    exact execNext_mmx _ _ _ l _ _ rfl rfl hp h
  case psrawMmImm | psradMmImm => exact execNext_mmx _ _ _ s.deviceReads _ _ rfl rfl hp h
  case psrawXmm | psradXmm =>
    obtain ⟨n, l, h⟩ := withCountXmm_next _ _ _ _ _ _ h
    exact execNext_sse2 _ _ _ l _ _ rfl rfl hp h
  case psrawXmmImm | psradXmmImm => exact execNext_sse2 _ _ _ s.deviceReads _ _ rfl rfl hp h
  case vpsrawXmm | vpsradXmm =>
    obtain ⟨n, l, h⟩ := withCountXmm_next _ _ _ _ _ _ h
    exact execNext_vex128 _ _ _ l _ _ rfl rfl hp h
  case vpsrawXmmImm | vpsradXmmImm => exact execNext_vex128 _ _ _ s.deviceReads _ _ rfl rfl hp h
  case vpsrawYmm | vpsradYmm =>
    obtain ⟨n, l, h⟩ := withCountXmm_next _ _ _ _ _ _ h
    exact execNext_vex256 _ _ _ l _ _ rfl rfl hp h
  case vpsrawYmmImm | vpsradYmmImm => exact execNext_vex256 _ _ _ s.deviceReads _ _ rfl rfl hp h

/-- 20_memory.md R34: the alignment rule of each class. -/
def alignRule (i : Instr) : AlignRule :=
  match i.row.cls with
  | .mmx => .mmx8
  | .sse2 => .sse16
  | .vex128 | .vex256 => .none

/-- A row with its count in memory reads the operand by the rule of its class, then completes at the same pc and mode. -/
theorem body_mem (s : State) (i : Instr) (f : MemForm) (h : memOperand i = some f) :
    ∃ k, s.body i = s.withMem i f (memBytes i) (alignRule i) k ∧ ∀ bs t, ∃ u : State, k bs t = u.complete i ∧
      u.ip = t.ip ∧ u.mode = t.mode := by
  cases i
  case psrawMm _ _ c | psradMm _ _ c =>
    cases c <;> simp only [memOperand, Option.some.injEq, reduceCtorEq] at h
    subst h
    exact ⟨_, rfl, fun _ _ => ⟨_, rfl, rfl, rfl⟩⟩
  case psrawXmm _ _ c | psradXmm _ _ c =>
    cases c <;> simp only [memOperand, Option.some.injEq, reduceCtorEq] at h
    subst h
    exact ⟨_, rfl, fun _ _ => ⟨_, rfl, rfl, rfl⟩⟩
  case vpsrawXmm _ _ _ c | vpsradXmm _ _ _ c =>
    cases c <;> simp only [memOperand, Option.some.injEq, reduceCtorEq] at h
    subst h
    exact ⟨_, rfl, fun _ _ => ⟨_, rfl, rfl, rfl⟩⟩
  case vpsrawYmm _ _ _ c | vpsradYmm _ _ _ c =>
    cases c <;> simp only [memOperand, Option.some.injEq, reduceCtorEq] at h
    subst h
    exact ⟨_, rfl, fun _ _ => ⟨_, rfl, rfl, rfl⟩⟩
  all_goals simp [memOperand] at h

/-- A row with no memory operand completes at the same pc and mode. -/
theorem body_noMem (s : State) (i : Instr) (h : memOperand i = none) :
    ∃ u : State, s.body i = u.complete i ∧ u.ip = s.ip ∧ u.mode = s.mode := by
  cases i
  case psrawMm _ _ c | psradMm _ _ c => cases c <;> first | exact ⟨_, rfl, rfl, rfl⟩ | simp [memOperand] at h
  case psrawXmm _ _ c | psradXmm _ _ c => cases c <;> first | exact ⟨_, rfl, rfl, rfl⟩ | simp [memOperand] at h
  case vpsrawXmm _ _ _ c | vpsradXmm _ _ _ c => cases c <;> first | exact ⟨_, rfl, rfl, rfl⟩ | simp [memOperand] at h
  case vpsrawYmm _ _ _ c | vpsradYmm _ _ _ c => cases c <;> first | exact ⟨_, rfl, rfl, rfl⟩ | simp [memOperand] at h
  all_goals exact ⟨_, rfl, rfl, rfl⟩

end Sys2Proof.Machine
end

