-- ==== Sys2Proof/Laws/Length.lean ====
section
/-! SUPPORT. How many bytes a memory operand takes, and what that says of an encoding with an immediate. -/

namespace Sys2Proof.Machine

/-- A displacement of 32 bits is four bytes. -/
theorem take32_len (bs : List Byte) :
    (∃ d, take32 bs = some (d, bs.drop 4)) ∧ 4 ≤ bs.length ∨ take32 bs = none ∧ bs.length < 4 := by
  rcases bs with _ | ⟨a, _ | ⟨b, _ | ⟨c, _ | ⟨d, bs⟩⟩⟩⟩ <;> simp [take32]

/-- A memory operand with a 32-bit or 64-bit address takes `memTail` bytes after ModRM. -/
theorem takeMem_len (x b : Bool) (m : Mode) (pfx : List Pfx) (modrm : Byte) (bs : List Byte)
    (h3 : modrmMod modrm ≠ 3#2) (ha : addr16 m pfx = false) :
    (takeMem x b (modrmMod modrm) (modrmRm modrm) bs).map Prod.snd =
      if memTail m pfx modrm bs ≤ bs.length then some (bs.drop (memTail m pfx modrm bs)) else none := by
  have h16 : ¬ (m = .mode32 ∧ Pfx.addrSize ∈ pfx) := by
    rintro ⟨rfl, h⟩; simp [addr16, h] at ha
  have hmod : modrmMod modrm = 0#2 ∨ modrmMod modrm = 1#2 ∨ modrmMod modrm = 2#2 := by
    revert h3; generalize modrmMod modrm = y; revert y; decide
  unfold memTail takeMem takeDisp
  simp only [if_neg h16]
  generalize modrmRm modrm = rm at *
  have t32 := take32_len
  rcases hmod with hm | hm | hm <;> simp only [hm] <;> by_cases h4 : rm = 4#3
  · subst h4
    rcases bs with _ | ⟨sib, bs⟩
    · simp; split <;> simp
    · by_cases h5 : modrmRm sib = 5#3
      · rcases t32 bs with ⟨⟨d, h⟩, hl⟩ | ⟨h, hl⟩ <;> simp [h5, h] <;> omega
      · simp [h5]
  · by_cases h5 : rm = 5#3
    · subst h5
      rcases t32 bs with ⟨⟨d, h⟩, hl⟩ | ⟨h, hl⟩ <;> simp [h] <;> omega
    · simp [h4, h5]
  · subst h4
    rcases bs with _ | ⟨sib, _ | ⟨d, bs⟩⟩ <;> simp
  · rcases bs with _ | ⟨d, bs⟩ <;> simp [h4]
  · subst h4
    rcases bs with _ | ⟨sib, bs⟩
    · simp
    · rcases t32 bs with ⟨⟨d, h⟩, hl⟩ | ⟨h, hl⟩ <;> simp [h] <;> omega
  · rcases t32 bs with ⟨⟨d, h⟩, hl⟩ | ⟨h, hl⟩ <;> simp [h4, h] <;> omega

/-- A memory operand takes `memTail` bytes after ModRM, with any address size. -/
theorem afterMem_eq (x b : Bool) (m : Mode) (pfx : List Pfx) (modrm : Byte) (bs : List Byte)
    (h3 : modrmMod modrm ≠ 3#2) :
    afterMem m pfx x b (modrmMod modrm) (modrmRm modrm) bs =
      if memTail m pfx modrm bs ≤ bs.length then some (bs.drop (memTail m pfx modrm bs)) else none := by
  unfold afterMem
  cases ha : addr16 m pfx with
  | false => simpa using takeMem_len x b m pfx modrm bs h3 ha
  | true =>
    have : m = .mode32 ∧ Pfx.addrSize ∈ pfx := by
      cases m <;> simp [addr16] at ha; exact ⟨rfl, ha⟩
    simp only [if_true]
    have : memTail m pfx modrm bs = disp16Len (modrmMod modrm) (modrmRm modrm) := by
      unfold memTail disp16Len
      simp only [if_pos this]
      split
      · rfl
      · split <;> simp_all
    rw [this]

/-- Bytes cut short hold the operand only if its length fits what is left. -/
theorem memTail_take (m : Mode) (pfx : List Pfx) (modrm : Byte) (bs : List Byte) (n : Nat)
    (h : memTail m pfx modrm (bs.take n) ≤ (bs.take n).length) : memTail m pfx modrm bs ≤ (bs.take n).length := by
  rcases n with _ | n
  · revert h
    unfold memTail
    by_cases h16 : m = .mode32 ∧ Pfx.addrSize ∈ pfx
    · simp only [if_pos h16]; exact id
    · by_cases h4 : modrmRm modrm = 4#3
      · intro h
        exfalso
        revert h
        simp only [h4, if_neg h16]
        repeat' split
        all_goals simp_all
      · simp [h4, h16]
  · rcases bs with _ | ⟨a, bs⟩
    · exact h
    · exact h

/-- An MI or VMI row with mod other than 11: #UD as soon as the bytes hold the operand and the immediate (R67). -/
theorem decodeImm_memMod (m : Mode) (pfx : List Pfx) (x b : Bool) (build : BitVec 3 → BitVec 8 → Instr) (modrm : Byte)
    (bs : List Byte) (h4 : modrmReg modrm = 4#3) (h3 : modrmMod modrm ≠ 3#2) :
    decodeImm m pfx x b build (modrm :: bs) = if memTail m pfx modrm bs < bs.length then .ud else .short := by
  simp only [decodeImm, h4, ne_eq, not_true_eq_false, if_false, if_neg h3, afterMem_eq x b m pfx modrm bs h3]
  by_cases h : memTail m pfx modrm bs < bs.length
  · rw [if_pos h, if_pos (by omega)]
    obtain ⟨y, ys, hy⟩ := List.exists_cons_of_length_pos (l := bs.drop (memTail m pfx modrm bs)) (by simp; omega)
    rw [hy]
  · rw [if_neg h]
    by_cases h' : memTail m pfx modrm bs ≤ bs.length
    · rw [if_pos h', List.drop_eq_nil_of_le (by omega)]
    · rw [if_neg h']

end Sys2Proof.Machine
end

