-- ==== Sys2Proof/Laws/Memory.lean ====
section
/-! SUPPORT. Memory: read after write, and that every memory operation keeps the canonical form. -/

namespace Sys2Proof.Machine

theorem read_nil (a : Nat) : Memory.read [] a = none := rfl

theorem read_cons (c : Host.Cell) (m : Memory) (a : Nat) :
    Memory.read (c :: m) a = if c.1 = a then some c.2 else Memory.read m a := by
  by_cases h : c.1 = a <;> simp [Memory.read, h]

/-- Reading the byte just written gives it. -/
theorem read_write_same (m : Memory) (a : Nat) (b : Byte) : Memory.read (Memory.write m a b) a = some b := by
  induction m with
  | nil => simp [Memory.write, read_cons]
  | cons c m ih =>
    simp only [Memory.write]
    split_ifs with h1 h2
    · simp [read_cons]
    · simp [read_cons]
    · rw [read_cons, if_neg (fun e => h2 e.symm), ih]

/-- A write leaves every other address alone. -/
theorem read_write_other (m : Memory) (a x : Nat) (b : Byte) (hx : x ≠ a) :
    Memory.read (Memory.write m a b) x = Memory.read m x := by
  induction m with
  | nil => simp [Memory.write, read_cons, read_nil, hx.symm]
  | cons c m ih =>
    simp only [Memory.write]
    split_ifs with h1 h2
    · rw [read_cons, if_neg hx.symm]
    · simp [read_cons, hx.symm, ← h2]
    · rw [read_cons, read_cons, ih]

/-- The first address of a written memory is the written one or the old first one. -/
theorem wf_cons_write (c : Host.Cell) (m : Memory) (a : Nat) (b : Byte) (h : Memory.wf (c :: m) = true) (hc : c.1 < a)
    (ih : Memory.wf (Memory.write m a b) = true) : Memory.wf (c :: Memory.write m a b) = true := by
  cases m with
  | nil => simp [Memory.write, Memory.wf, hc]
  | cons d m =>
    simp only [Memory.wf, Bool.and_eq_true, decide_eq_true_eq] at h
    simp only [Memory.write] at ih ⊢
    split_ifs at ih ⊢ <;> simp_all [Memory.wf]

/-- A write keeps the canonical form. -/
theorem write_wf (m : Memory) (a : Nat) (b : Byte) (h : Memory.wf m = true) : Memory.wf (Memory.write m a b) = true := by
  induction m with
  | nil => rfl
  | cons c m ih =>
    have hm : Memory.wf m = true := by
      cases m with
      | nil => rfl
      | cons d m => simp_all [Memory.wf]
    by_cases h1 : a < c.1
    · simp [Memory.write, h1, Memory.wf, h]
    · by_cases h2 : a = c.1
      · cases m with
        | nil => simp [Memory.write, h2, Memory.wf]
        | cons d m => simp_all [Memory.write, Memory.wf]
      · have hw : Memory.write (c :: m) a b = c :: Memory.write m a b := by simp [Memory.write, h1, h2]
        rw [hw]
        exact wf_cons_write c m a b h (by omega) (ih hm)

/-- Writing bytes from an address up keeps the canonical form. -/
theorem writeBytes_wf (bs : List Byte) (m : Memory) (a : Nat) (h : Memory.wf m = true) :
    Memory.wf (Memory.writeBytes m a bs) = true := by
  induction bs generalizing m a with
  | nil => exact h
  | cons b bs ih => exact ih _ _ (write_wf m a b h)

/-- Placing code keeps the canonical form. -/
theorem placeCode_wf (s : State) (bs : List Byte) (off : Nat) (m : Memory) (h : Memory.wf m = true) :
    Memory.wf (s.placeCode off bs m) = true := by
  induction bs generalizing m off with
  | nil => exact h
  | cons b bs ih => exact ih _ _ (write_wf m _ b h)

/-- Loading an instruction word keeps the invariant. -/
theorem withFetchWord_inv (s : State) (nbits w : Nat) (h : s.Inv) : (s.withFetchWord nbits w).Inv :=
  ⟨placeCode_wf s _ _ _ h.1, h.2⟩

end Sys2Proof.Machine
end

