-- ==== Sys2Proof/Laws/PerInstr.lean ====
section
/-! SUPPORT. Statements made per instruction: the encoder writes as many bytes as R72 counts. -/

namespace Sys2Proof.Laws.EncodeLength

/-- 30_encoding.md R72: the encoding has the length that advances pc. -/
def Statement (i : Instr) : Prop := (encode i).length = i.len

theorem disp (d : Disp) : d.bytes.length = d.len := by cases d <;> rfl

theorem mem (reg : BitVec 3) (f : MemForm) : (f.bytes reg).length = 1 + f.len := by
  cases f <;> simp [MemForm.bytes, MemForm.len, bytes32, disp] <;> omega

theorem mm (reg : BitVec 3) (c : MmRm) : (mmRmBytes reg c).length = 1 + c.len := by
  cases c <;> simp [mmRmBytes, RegMem.len, mem]

theorem xmm (reg : BitVec 3) (c : XmmRm) : (xmmRmBytes reg c).length = 1 + c.len := by
  cases c <;> simp [xmmRmBytes, RegMem.len, mem]

theorem rex (r : Option Rex) : (rexBytes r).length = if r.isSome then 1 else 0 := by cases r <;> rfl

theorem legacy (e : LegacyEnc) (op : Op) : (e.bytes op).length + 1 = e.len := by
  simp [LegacyEnc.bytes, LegacyEnc.len, rex]; omega

theorem vex (e : VexEnc) (v : BitVec 4) (l : Bool) (op : Op) : (e.bytes v l op).length + 1 = e.len := by
  cases h : e.three <;> simp [VexEnc.bytes, VexEnc.len, rex, h] <;> omega

theorem psrawMm (e : LegacyEnc) (dst : BitVec 3) (count : MmRm) : Statement (.psrawMm e dst count) := by
  simp [Statement, encode, Instr.len, mm, ← legacy e .e1]; omega

theorem psrawXmm (e : LegacyEnc) (dst : BitVec 4) (count : XmmRm) : Statement (.psrawXmm e dst count) := by
  simp [Statement, encode, Instr.len, xmm, ← legacy e .e1]; omega

theorem psrawMmImm (e : LegacyEnc) (dst : BitVec 3) (imm : BitVec 8) : Statement (.psrawMmImm e dst imm) := by
  simp [Statement, encode, Instr.len, ← legacy e .o71]

theorem psrawXmmImm (e : LegacyEnc) (dst : BitVec 4) (imm : BitVec 8) : Statement (.psrawXmmImm e dst imm) := by
  simp [Statement, encode, Instr.len, ← legacy e .o71]

theorem vpsrawXmm (e : VexEnc) (dst src : BitVec 4) (count : XmmRm) : Statement (.vpsrawXmm e dst src count) := by
  simp [Statement, encode, Instr.len, xmm, ← vex e src false .e1]; omega

theorem vpsrawXmmImm (e : VexEnc) (dst src : BitVec 4) (imm : BitVec 8) : Statement (.vpsrawXmmImm e dst src imm) := by
  simp [Statement, encode, Instr.len, ← vex e dst false .o71]

theorem vpsrawYmm (e : VexEnc) (dst src : BitVec 4) (count : XmmRm) : Statement (.vpsrawYmm e dst src count) := by
  simp [Statement, encode, Instr.len, xmm, ← vex e src true .e1]; omega

theorem vpsrawYmmImm (e : VexEnc) (dst src : BitVec 4) (imm : BitVec 8) : Statement (.vpsrawYmmImm e dst src imm) := by
  simp [Statement, encode, Instr.len, ← vex e dst true .o71]

theorem psradMm (e : LegacyEnc) (dst : BitVec 3) (count : MmRm) : Statement (.psradMm e dst count) := by
  simp [Statement, encode, Instr.len, mm, ← legacy e .e2]; omega

theorem psradXmm (e : LegacyEnc) (dst : BitVec 4) (count : XmmRm) : Statement (.psradXmm e dst count) := by
  simp [Statement, encode, Instr.len, xmm, ← legacy e .e2]; omega

theorem psradMmImm (e : LegacyEnc) (dst : BitVec 3) (imm : BitVec 8) : Statement (.psradMmImm e dst imm) := by
  simp [Statement, encode, Instr.len, ← legacy e .o72]

theorem psradXmmImm (e : LegacyEnc) (dst : BitVec 4) (imm : BitVec 8) : Statement (.psradXmmImm e dst imm) := by
  simp [Statement, encode, Instr.len, ← legacy e .o72]

theorem vpsradXmm (e : VexEnc) (dst src : BitVec 4) (count : XmmRm) : Statement (.vpsradXmm e dst src count) := by
  simp [Statement, encode, Instr.len, xmm, ← vex e src false .e2]; omega

theorem vpsradXmmImm (e : VexEnc) (dst src : BitVec 4) (imm : BitVec 8) : Statement (.vpsradXmmImm e dst src imm) := by
  simp [Statement, encode, Instr.len, ← vex e dst false .o72]

theorem vpsradYmm (e : VexEnc) (dst src : BitVec 4) (count : XmmRm) : Statement (.vpsradYmm e dst src count) := by
  simp [Statement, encode, Instr.len, xmm, ← vex e src true .e2]; omega

theorem vpsradYmmImm (e : VexEnc) (dst src : BitVec 4) (imm : BitVec 8) : Statement (.vpsradYmmImm e dst src imm) := by
  simp [Statement, encode, Instr.len, ← vex e dst true .o72]

/-- The statement for every instruction. -/
theorem all (i : Instr) : Statement i := by
  cases i
  case psrawMm => exact psrawMm ..
  case psrawXmm => exact psrawXmm ..
  case psrawMmImm => exact psrawMmImm ..
  case psrawXmmImm => exact psrawXmmImm ..
  case vpsrawXmm => exact vpsrawXmm ..
  case vpsrawXmmImm => exact vpsrawXmmImm ..
  case vpsrawYmm => exact vpsrawYmm ..
  case vpsrawYmmImm => exact vpsrawYmmImm ..
  case psradMm => exact psradMm ..
  case psradXmm => exact psradXmm ..
  case psradMmImm => exact psradMmImm ..
  case psradXmmImm => exact psradXmmImm ..
  case vpsradXmm => exact vpsradXmm ..
  case vpsradXmmImm => exact vpsradXmmImm ..
  case vpsradYmm => exact vpsradYmm ..
  case vpsradYmmImm => exact vpsradYmmImm ..

end Sys2Proof.Laws.EncodeLength
end

