-- ==== Sys2Proof/Laws/Step.lean ====
section
/-! SUPPORT. Fetching and the step. -/

namespace Sys2Proof.Machine

/-- Bytes that can be fetched one by one are what the fetch begins with. -/
theorem codeBytes_take (s : State) (l : List Byte) (off n : Nat) (hn : l.length ≤ n)
    (ht : off + l.length ≤ pcTop s.mode)
    (h : ∀ k < l.length, s.codeByte (BitVec.ofNat 64 (off + k)) = l[k]?) : ∃ r, s.codeBytes off n = l ++ r := by
  induction l generalizing off n with
  | nil => exact ⟨_, rfl⟩
  | cons b l ih =>
    cases n with
    | zero => simp at hn
    | succ n =>
      have h0 : s.codeByte (BitVec.ofNat 64 off) = some b := by simpa using h 0 (by simp)
      simp only [List.length_cons] at hn ht
      obtain ⟨r, hr⟩ := ih (off + 1) n (by omega) (by omega) (fun k hk => by
        have := h (k + 1) (by simp; omega)
        rw [show off + 1 + k = off + (k + 1) by omega, this]
        simp)
      exact ⟨r, by rw [State.codeBytes, if_pos (by omega), h0, hr]; rfl⟩

/-- A fetch gives no more bytes than it asks for. -/
theorem codeBytes_length (s : State) (off n : Nat) : (s.codeBytes off n).length ≤ n := by
  induction n generalizing off with
  | zero => simp [State.codeBytes]
  | succ n ih =>
    rw [State.codeBytes]
    split
    · split
      · simpa using ih (off + 1)
      · simp
    · simp

/-- A next state of a step is the next state of the instruction that the bytes at pc decode to. -/
theorem step_next (s t : State) (h : step s = .next t) :
    ∃ i rest, decode s.mode s.window = .instr i rest ∧ exec i s = .next t := by
  unfold step at h
  cases hd : decode s.mode s.window with
  | ud => simp [State.fetched, hd, raise] at h
  | refused r => simp [State.fetched, hd] at h
  | short =>
    simp only [State.fetched, hd] at h
    by_cases h1 : s.window.length = maxLen
    · simp [h1, raise] at h
    · by_cases h2 : s.ip + s.window.length < pcTop s.mode <;> simp [h1, h2] at h
  | instr i rest =>
    simp only [State.fetched, hd] at h
    exact ⟨i, rest, rfl, h⟩

/-- An instruction has at least an opcode of two bytes and ModRM, or a VEX prefix of two, an opcode and ModRM. -/
theorem three_le_len (i : Instr) : 3 ≤ i.len := by
  have h : ∀ b : Bool, 3 ≤ if b = true then 4 else 3 := by decide
  cases i
  case vpsrawXmm e _ _ _ | vpsrawXmmImm e _ _ _ | vpsrawYmm e _ _ _ | vpsrawYmmImm e _ _ _ | vpsradXmm e _ _ _ |
      vpsradXmmImm e _ _ _ | vpsradYmm e _ _ _ | vpsradYmmImm e _ _ _ =>
    have := h e.three
    simp only [Instr.len, VexEnc.len]
    omega
  all_goals
    simp only [Instr.len, LegacyEnc.len]
    omega

/-- A well-formed instruction has at most 15 bytes. -/
theorem wf_len (m : Mode) (i : Instr) (h : i.wf m = true) : i.len ≤ 15 := by
  simp only [Instr.wf, Bool.and_eq_true, Instr.lenOk, decide_eq_true_eq] at h
  exact h.1

end Sys2Proof.Machine
end

