-- ==== Sys2Proof/Tests/Slice0.lean ====
section
/-! SUPPORT. Tests on small states, with the expected results of 95_test_vectors.md, and one witness per statement that has
hypotheses. -/

namespace Sys2Proof.Tests

open Sys2Proof.Machine

/-! ## Helpers -/

/-- The standing launch state of 95_test_vectors.md with these instruction bytes at pc. -/
def launch (m : Mode) (code : List Byte) : State :=
  { State.reset with mode := m, mem := Memory.writeBytes [] 0x1000 code }

def setV (s : State) (i : BitVec 4) (x : YmmWord) : State := { s with v := s.v.set i.toNat x i.isLt }

def setX (s : State) (i : BitVec 4) (x : XmmWord) : State := setV s i (0#128 ++ x)

def setM (s : State) (i : BitVec 3) (x : MmWord) : State := { s with mm := s.mm.set i.toNat x i.isLt }

def setG (s : State) (i : BitVec 4) (x : Addr) : State := { s with gpr := s.gpr.set i.toNat x i.isLt }

def putBytes (s : State) (a : Nat) (bs : List Byte) : State := { s with mem := Memory.writeBytes s.mem a bs }

/-- The outcome is a next state with this property. -/
def ends (p : State → Bool) : Result → Bool
  | .next t => p t
  | _ => false

/-- The outcome is this fault or refusal. -/
def stops : Result → Result → Bool
  | .fault a, .fault b => a == b
  | .refused a, .refused b => a == b
  | _, _ => false

/-- A next state, from the test that there is one. -/
theorem next_of_ends (r : Result) (h : ends (fun _ => true) r = true) : ∃ t, r = .next t := by
  cases r with
  | next t => exact ⟨t, rfl⟩
  | fault _ => cases h
  | refused _ => cases h

/-- An operand is readable if each of its bytes passes the checks. -/
theorem readable_of (s : State) (a : Access) (n : Nat) (h1 : ∀ k < n, s.segOk a.seg (a.offset k) = true)
    (h2 : ∀ k < n, s.pageFault (s.byteAddr a k) = none) (h3 : ∀ k < n, (s.byteAt (s.byteAddr a k)).isSome = true) :
    Readable s a n :=
  ⟨fun k hk => (segOk_iff s _ _).1 (h1 k hk), fun k hk => (pageFault_eq_none s _).1 (h2 k hk), h3⟩

/-- Nothing in front of a VEX prefix. -/
def vexE (three r x b w : Bool) : VexEnc := ⟨[], none, three, r, x, b, w⟩

/-! ## Decoding: one word per row, and the words of 95_test_vectors.md with extension bits, SIB, prefixes and refusals -/

/-- 95_test_vectors.md E1. -/
theorem test_decode_E1 : decode .mode64 [0x0F#8, 0xE1#8, 0xC1#8] =
    .instr (.psrawMm ⟨[], none⟩ 0#3 (.reg 1#3)) [] := by decide

/-- 95_test_vectors.md E2. -/
theorem test_decode_E2 : decode .mode64 [0x66#8, 0x0F#8, 0xE1#8, 0xCA#8] =
    .instr (.psrawXmm ⟨[.opSize], none⟩ 1#4 (.reg 2#4)) [] := by decide

/-- 95_test_vectors.md E3. -/
theorem test_decode_E3 : decode .mode64 [0x0F#8, 0x71#8, 0xE3#8, 0x01#8] =
    .instr (.psrawMmImm ⟨[], none⟩ 3#3 0x01#8) [] := by decide

/-- 95_test_vectors.md E4. -/
theorem test_decode_E4 : decode .mode64 [0x66#8, 0x0F#8, 0x71#8, 0xE1#8, 0x0F#8] =
    .instr (.psrawXmmImm ⟨[.opSize], none⟩ 1#4 0x0F#8) [] := by decide

/-- 95_test_vectors.md E5. -/
theorem test_decode_E5 : decode .mode64 [0xC5#8, 0xE9#8, 0xE1#8, 0xCB#8] =
    .instr (.vpsrawXmm (vexE false false false false false) 1#4 2#4 (.reg 3#4)) [] := by decide

/-- 95_test_vectors.md E6. -/
theorem test_decode_E6 : decode .mode64 [0xC5#8, 0xF1#8, 0x71#8, 0xE2#8, 0x04#8] =
    .instr (.vpsrawXmmImm (vexE false false false false false) 1#4 2#4 0x04#8) [] := by decide

/-- 95_test_vectors.md E7. -/
theorem test_decode_E7 : decode .mode64 [0xC5#8, 0xED#8, 0xE1#8, 0xCB#8] =
    .instr (.vpsrawYmm (vexE false false false false false) 1#4 2#4 (.reg 3#4)) [] := by decide

/-- 95_test_vectors.md E8. -/
theorem test_decode_E8 : decode .mode64 [0xC5#8, 0xF5#8, 0x71#8, 0xE2#8, 0x10#8] =
    .instr (.vpsrawYmmImm (vexE false false false false false) 1#4 2#4 0x10#8) [] := by decide

/-- 95_test_vectors.md E9. -/
theorem test_decode_E9 : decode .mode64 [0x0F#8, 0xE2#8, 0xC1#8] =
    .instr (.psradMm ⟨[], none⟩ 0#3 (.reg 1#3)) [] := by decide

/-- 95_test_vectors.md E10. -/
theorem test_decode_E10 : decode .mode64 [0x66#8, 0x0F#8, 0xE2#8, 0xCA#8] =
    .instr (.psradXmm ⟨[.opSize], none⟩ 1#4 (.reg 2#4)) [] := by decide

/-- 95_test_vectors.md E11. -/
theorem test_decode_E11 : decode .mode64 [0x0F#8, 0x72#8, 0xE3#8, 0x10#8] =
    .instr (.psradMmImm ⟨[], none⟩ 3#3 0x10#8) [] := by decide

/-- 95_test_vectors.md E12. -/
theorem test_decode_E12 : decode .mode64 [0x66#8, 0x0F#8, 0x72#8, 0xE1#8, 0x1F#8] =
    .instr (.psradXmmImm ⟨[.opSize], none⟩ 1#4 0x1F#8) [] := by decide

/-- 95_test_vectors.md E13. -/
theorem test_decode_E13 : decode .mode64 [0xC5#8, 0xE9#8, 0xE2#8, 0xCB#8] =
    .instr (.vpsradXmm (vexE false false false false false) 1#4 2#4 (.reg 3#4)) [] := by decide

/-- 95_test_vectors.md E14. -/
theorem test_decode_E14 : decode .mode64 [0xC5#8, 0xF1#8, 0x72#8, 0xE2#8, 0x0C#8] =
    .instr (.vpsradXmmImm (vexE false false false false false) 1#4 2#4 0x0C#8) [] := by decide

/-- 95_test_vectors.md E15. -/
theorem test_decode_E15 : decode .mode64 [0xC5#8, 0xED#8, 0xE2#8, 0xCB#8] =
    .instr (.vpsradYmm (vexE false false false false false) 1#4 2#4 (.reg 3#4)) [] := by decide

/-- 95_test_vectors.md E16. -/
theorem test_decode_E16 : decode .mode64 [0xC5#8, 0xF5#8, 0x72#8, 0xE2#8, 0x20#8] =
    .instr (.vpsradYmmImm (vexE false false false false false) 1#4 2#4 0x20#8) [] := by decide

/-- 95_test_vectors.md E18. -/
theorem test_decode_E18 : decode .mode32 [0x66#8, 0x0F#8, 0xE1#8, 0x0D#8, 0x10#8, 0x00#8, 0x00#8, 0x00#8] =
    .instr (.psrawXmm ⟨[.opSize], none⟩ 1#4 (.mem (.disp32 0x10#32))) [] := by decide

/-- 95_test_vectors.md E19. -/
theorem test_decode_E19 : decode .mode64 [0x66#8, 0x0F#8, 0xE1#8, 0x44#8, 0x24#8, 0x10#8] =
    .instr (.psrawXmm ⟨[.opSize], none⟩ 0#4 (.mem (.sib 0#2 4#4 4#4 (.d8 0x10#8)))) [] := by decide

/-- 95_test_vectors.md E20. -/
theorem test_decode_E20 : decode .mode64 [0xC5#8, 0xE9#8, 0xE1#8, 0x4C#8, 0x83#8, 0x20#8] =
    .instr (.vpsrawXmm (vexE false false false false false) 1#4 2#4 (.mem (.sib 2#2 0#4 3#4 (.d8 0x20#8)))) [] := by decide

/-- 95_test_vectors.md E21. -/
theorem test_decode_E21 : decode .mode64 [0x66#8, 0x45#8, 0x0F#8, 0xE2#8, 0xFF#8] =
    .instr (.psradXmm ⟨[.opSize], some ⟨false, true, false, true⟩⟩ 15#4 (.reg 15#4)) [] := by decide

/-- 95_test_vectors.md E22. -/
theorem test_decode_E22 : decode .mode64 [0x66#8, 0x43#8, 0x0F#8, 0xE1#8, 0x04#8, 0x88#8] =
    .instr (.psrawXmm ⟨[.opSize], some ⟨false, false, true, true⟩⟩ 0#4 (.mem (.sib 2#2 9#4 8#4 .none))) [] := by decide

/-- 95_test_vectors.md E24. -/
theorem test_decode_E24 : decode .mode64 [0xC4#8, 0x41#8, 0x31#8, 0xE2#8, 0xC2#8] =
    .instr (.vpsradXmm (vexE true true false true false) 8#4 9#4 (.reg 10#4)) [] := by decide

/-- 95_test_vectors.md E25. -/
theorem test_decode_E25 : decode .mode64 [0xC4#8, 0xE1#8, 0xE9#8, 0xE1#8, 0xCB#8] =
    .instr (.vpsrawXmm (vexE true false false false true) 1#4 2#4 (.reg 3#4)) [] := by decide

/-- 95_test_vectors.md E26. -/
theorem test_decode_E26 : decode .mode64 [0xC5#8, 0x81#8, 0x72#8, 0xE7#8, 0x07#8] =
    .instr (.vpsradXmmImm (vexE false false false false false) 15#4 7#4 0x07#8) [] := by decide

/-- 95_test_vectors.md E27. -/
theorem test_decode_E27 : decode .mode64 [0xC4#8, 0xC1#8, 0x01#8, 0x72#8, 0xE7#8, 0x07#8] =
    .instr (.vpsradXmmImm (vexE true false false true false) 15#4 15#4 0x07#8) [] := by decide

/-- 95_test_vectors.md E28. -/
theorem test_decode_E28 : decode .mode32 [0xC5#8, 0xE9#8, 0xE1#8, 0xCB#8] =
    .instr (.vpsrawXmm (vexE false false false false false) 1#4 2#4 (.reg 3#4)) [] := by decide

/-- 95_test_vectors.md E30. -/
theorem test_decode_E30 : decode .mode64 [0xC5#8, 0x69#8, 0xE1#8, 0xCB#8] =
    .instr (.vpsrawXmm (vexE false true false false false) 9#4 2#4 (.reg 3#4)) [] := by decide

/-- 95_test_vectors.md E32. -/
theorem test_decode_E32 : decode .mode64 [0x67#8, 0x66#8, 0x0F#8, 0xE2#8, 0x08#8] =
    .instr (.psradXmm ⟨[.addrSize, .opSize], none⟩ 1#4 (.mem (.base 0#4 .none))) [] := by decide

/-- 95_test_vectors.md E29. -/
theorem test_decode_E29 : decode .mode32 [0xC5#8, 0x69#8, 0xE1#8, 0xCB#8] = .refused .noRow := by decide

/-- 95_test_vectors.md E33. -/
theorem test_decode_E33 : decode .mode64 [0x0F#8, 0x71#8, 0x23#8, 0x01#8] = .ud := by decide

/-- 95_test_vectors.md E34. -/
theorem test_decode_E34 : decode .mode64 [0x0F#8, 0x71#8, 0xD0#8, 0x01#8] = .refused .noRow := by decide

/-- 95_test_vectors.md E35. -/
theorem test_decode_E35 : decode .mode64 [0xF0#8, 0x0F#8, 0xE1#8, 0xC1#8] = .ud := by decide

/-- 95_test_vectors.md F29 to F31: opcode 73, pp = 10, mmmmm = 00010. -/
theorem test_decode_F29_F31 :
    decode .mode64 [0xC5#8, 0xF1#8, 0x73#8, 0xE2#8, 0x04#8] = .refused .noRow ∧
    decode .mode64 [0xC5#8, 0xEA#8, 0xE1#8, 0xCB#8] = .refused .noRow ∧
    decode .mode64 [0xC4#8, 0xE2#8, 0x69#8, 0xE1#8, 0xCB#8] = .refused .noRow := by decide

/-- 30_encoding.md R71: `66` after REX; R61: `67` in Mode32 with a memory operand. -/
theorem test_decode_refused :
    decode .mode64 [0x48#8, 0x66#8, 0x0F#8, 0xE1#8, 0xC1#8] = .refused .rexNotLast ∧
    decode .mode32 [0x67#8, 0x66#8, 0x0F#8, 0xE1#8, 0x07#8] = .refused .addressing16 := by decide

/-- 30_encoding.md R72: fourteen prefixes and the two bytes `0F E1` do not hold an instruction of at most 15 bytes. -/
theorem test_fetch_too_long :
    stops (raise .gp) (step (launch .mode64 (List.replicate 13 0x66#8 ++ [0x0F#8, 0xE1#8, 0xCA#8]))) = true := by decide

/-- 30_encoding.md R72, 60_exceptions.md R129: twelve `67`, `0F 71 23` and the immediate are 16 bytes: #GP(0), not #UD. -/
theorem test_fetch_too_long_ud :
    stops (raise .gp) (step (launch .mode32 (List.replicate 12 0x67#8 ++ [0x0F#8, 0x71#8, 0x23#8, 0x01#8]))) = true ∧
    stops (raise .ud) (step (launch .mode32 (List.replicate 11 0x67#8 ++ [0x0F#8, 0x71#8, 0x23#8, 0x01#8]))) = true := by
  decide

/-- 30_encoding.md R73: LOCK on a /digit that is no row is refused; R71: LOCK on a row, with 16-bit addressing too, is #UD. -/
theorem test_decode_lock :
    decode .mode64 [0xF0#8, 0x0F#8, 0x71#8, 0xD0#8, 0x01#8] = .refused .noRow ∧
    decode .mode32 [0xF0#8, 0x67#8, 0x0F#8, 0xE1#8, 0x46#8, 0x10#8] = .ud := by decide

/-- 30_encoding.md R71: `F3` on a legacy row (95_test_vectors.md F27). -/
theorem test_decode_F27 : decode .mode64 [0xF3#8, 0x0F#8, 0xE1#8, 0xC1#8] = .refused .reservedPfx := by decide

/-- The opcode table's numbering: the first byte is bits 7:0; the bits above are 0. -/
theorem test_table_word : decodeTableWord 16 0xE10F = some (.psrawMm ⟨[], none⟩ 0#3 (.mem (.base 0#4 .none))) := by decide

/-- A placed table word is the very next instruction (95_test_vectors.md E1, W1: MM0 shifted by MM1). -/
theorem test_withFetchWord :
    ends (fun t => t.mmAt 0#3 == 0xC0003FFFFFF80008#64 && t.pc == 0x1003#64)
      (step ((setM (setM State.reset 0#3 0x80007FFFFFF00010#64) 1#3 1#64).withFetchWord 24 0xC1E10F)) = true := by decide

/-! ## Well-formed instructions: one term per check, which the check refuses -/

/-- A well-formed one of each layout. -/
theorem test_wf_accepts :
    (Instr.psrawXmm ⟨[.opSize], some ⟨false, false, true, true⟩⟩ 0#4 (.mem (.sib 2#2 9#4 8#4 .none))).wf .mode64 = true ∧
    (Instr.vpsradXmm (vexE true true false true false) 8#4 9#4 (.reg 10#4)).wf .mode64 = true ∧
    (Instr.vpsradYmmImm (vexE false false false false false) 7#4 7#4 3#8).wf .mode32 = true := by decide

/-- A number above 7 without its extension bit: REX.R, REX.B, VEX.B. -/
theorem test_wf_number :
    (Instr.psrawXmm ⟨[.opSize], none⟩ 9#4 (.reg 0#4)).wf .mode64 = false ∧
    (Instr.psrawXmm ⟨[.opSize], none⟩ 0#4 (.reg 9#4)).wf .mode64 = false ∧
    (Instr.psradXmmImm ⟨[.opSize], none⟩ 9#4 0#8).wf .mode64 = false ∧
    (Instr.vpsrawXmmImm (vexE true false false false false) 1#4 9#4 0#8).wf .mode64 = false := by decide

/-- Memory operands that no ModRM and SIB name: r/m 100 without SIB, mod 00 with base 101, numbers without X or B. -/
theorem test_wf_memory :
    (MemForm.base 4#4 (.d8 0#8)).wf false false = false ∧ (MemForm.base 5#4 .none).wf false false = false ∧
    (MemForm.base 9#4 .none).wf false false = false ∧ (MemForm.sib 0#2 0#4 13#4 .none).wf false true = false ∧
    (MemForm.sib 0#2 9#4 0#4 .none).wf false false = false ∧ (MemForm.sib 0#2 1#4 8#4 .none).wf false false = false ∧
    (MemForm.sibNoBase 0#2 9#4 0#32).wf false false = false := by decide

/-- A memory operand on an MMX row that no encoding names. -/
theorem test_wf_mmx_memory : (Instr.psradMm ⟨[], none⟩ 0#3 (.mem (.base 5#4 .none))).wf .mode64 = false := by decide

/-- A REX prefix in Mode32. -/
theorem test_wf_rex : (Instr.psrawMm ⟨[], some ⟨false, false, false, false⟩⟩ 0#3 (.reg 1#3)).wf .mode32 = false := by
  decide

/-- LOCK, `F2` and `F3` on a legacy row. -/
theorem test_wf_prefixes :
    (Instr.psrawMmImm ⟨[.lock], none⟩ 0#3 1#8).wf .mode64 = false ∧
    (Instr.psrawMmImm ⟨[.repne], none⟩ 0#3 1#8).wf .mode64 = false ∧
    (Instr.psradMmImm ⟨[.rep], none⟩ 0#3 1#8).wf .mode64 = false := by decide

/-- `66` on an MMX row, and no `66` on an XMM row. -/
theorem test_wf_operand_size :
    (Instr.psrawMm ⟨[.opSize], none⟩ 0#3 (.reg 1#3)).wf .mode64 = false ∧
    (Instr.psradXmm ⟨[], none⟩ 0#4 (.reg 1#4)).wf .mode64 = false := by decide

/-- X, B or W in the 2-byte VEX form. -/
theorem test_wf_two_byte_vex :
    (Instr.vpsrawXmm (vexE false false true false false) 0#4 0#4 (.reg 1#4)).wf .mode64 = false ∧
    (Instr.vpsrawYmm (vexE false false false true false) 0#4 0#4 (.reg 9#4)).wf .mode64 = false ∧
    (Instr.vpsradYmm (vexE false false false false true) 0#4 0#4 (.reg 1#4)).wf .mode64 = false := by decide

/-- A prefix or a REX byte that may not stand in front of VEX. -/
theorem test_wf_vex_prefixes :
    (Instr.vpsradXmmImm ⟨[.opSize], none, false, false, false, false, false⟩ 0#4 0#4 1#8).wf .mode64 = false ∧
    (Instr.vpsradXmmImm ⟨[.lock], none, false, false, false, false, false⟩ 0#4 0#4 1#8).wf .mode64 = false ∧
    (Instr.vpsradXmmImm ⟨[.rep], none, false, false, false, false, false⟩ 0#4 0#4 1#8).wf .mode64 = false ∧
    (Instr.vpsradXmmImm ⟨[.repne], none, false, false, false, false, false⟩ 0#4 0#4 1#8).wf .mode64 = false ∧
    (Instr.vpsrawYmmImm ⟨[], some ⟨true, false, false, false⟩, false, false, false, false, false⟩ 0#4 0#4 1#8).wf .mode64
      = false := by decide

/-- In Mode32, R or X set, or bit 3 of `vvvv` in the 2-byte form. -/
theorem test_wf_vex_mode32 :
    (Instr.vpsrawXmm (vexE false true false false false) 9#4 0#4 (.reg 1#4)).wf .mode32 = false ∧
    (Instr.vpsrawXmm (vexE true false true false false) 0#4 0#4 (.reg 1#4)).wf .mode32 = false ∧
    (Instr.vpsrawXmm (vexE false false false false false) 0#4 9#4 (.reg 1#4)).wf .mode32 = false := by decide

/-- 16-bit addressing. -/
theorem test_wf_addr16 :
    (Instr.psrawMm ⟨[.addrSize], none⟩ 0#3 (.mem (.base 0#4 .none))).wf .mode32 = false ∧
    (Instr.psradXmm ⟨[.addrSize, .opSize], none⟩ 0#4 (.mem (.base 0#4 .none))).wf .mode32 = false := by decide

/-- More than 15 bytes: 13 prefixes and three bytes. -/
theorem test_wf_length : (Instr.psrawMm ⟨List.replicate 13 .addrSize, none⟩ 0#3 (.reg 1#3)).wf .mode64 = false := by
  decide

/-! ## One step -/

/-- 95_test_vectors.md W11: byte 7 of an m64 count is part of the count. -/
theorem test_step_W11 :
    let s := launch .mode64 [0x0F#8, 0xE1#8, 0x2B#8]
    let s := setM s 5#3 0x8000400020001000#64
    let s := setG s 3#4 0x2001#64
    let s := putBytes s 0x2001 [0x02#8, 0x00#8, 0x00#8, 0x00#8, 0x00#8, 0x00#8, 0x00#8, 0x01#8]
    ends (fun t => t.mmAt 5#3 == 0xFFFF000000000000#64 &&
      t.pc == 0x1003#64) (step s) = true := by decide

/-- 95_test_vectors.md W15: count 5, bits 255:128 kept. -/
theorem test_step_W15 :
    let s := launch .mode64 [0x66#8, 0x0F#8, 0xE1#8, 0xCA#8]
    let s := setV s 1#4 0xAAAAAAAAAAAAAAAA555555555555555580007FFFFFF00010123487650001FFFF#256
    let s := setX s 2#4 0xFFFFFFFFFFFFFFFF0000000000000005#128
    ends (fun t => t.ymmAt 1#4 == 0xAAAAAAAAAAAAAAAA5555555555555555FC0003FFFFFF00000091FC3B0000FFFF#256 &&
      t.pc == 0x1004#64) (step s) = true := by decide

/-- 95_test_vectors.md W13: REX.B does not extend an MMX number. -/
theorem test_step_W13 :
    let s := launch .mode64 [0x41#8, 0x0F#8, 0x71#8, 0xE3#8, 0x01#8]
    let s := setM s 3#3 0xFF0000FF80017FFE#64
    ends (fun t => t.mmAt 3#3 == 0xFF80007FC0003FFF#64 &&
      t.pc == 0x1005#64) (step s) = true := by decide

/-- 95_test_vectors.md W20: the MI form reaches XMM9 by REX.B. -/
theorem test_step_W20 :
    let s := launch .mode64 [0x66#8, 0x41#8, 0x0F#8, 0x71#8, 0xE1#8, 0x07#8]
    let s := setV s 9#4 0xAAAAAAAAAAAAAAAA555555555555555580007FFFFFF00010123487650001FFFF#256
    ends (fun t => t.ymmAt 9#4 == 0xAAAAAAAAAAAAAAAA5555555555555555FF0000FFFFFF00000024FF0E0000FFFF#256 &&
      t.pc == 0x1006#64) (step s) = true := by decide

/-- 95_test_vectors.md W23: an immediate of 128 is unsigned. -/
theorem test_step_W23 :
    let s := launch .mode64 [0x66#8, 0x0F#8, 0x71#8, 0xE1#8, 0x80#8]
    let s := setX s 1#4 0x80007FFFFFF00010123487650001FFFF#128
    ends (fun t => t.xmmAt 1#4 == 0xFFFF0000FFFF00000000FFFF0000FFFF#128 &&
      t.pc == 0x1005#64) (step s) = true := by decide

/-- 95_test_vectors.md W29: a VEX m128 count at an odd address. -/
theorem test_step_W29 :
    let s := launch .mode64 [0xC5#8, 0xE9#8, 0xE1#8, 0x0B#8]
    let s := setX s 2#4 0x80007FFFFFF00010123487650001FFFF#128
    let s := setG s 3#4 0x4003#64
    let s := putBytes s 0x4003 [0x08#8, 0x00#8, 0x00#8, 0x00#8, 0x00#8, 0x00#8, 0x00#8, 0x00#8, 0xEE#8, 0xEE#8,
      0xEE#8, 0xEE#8, 0xEE#8, 0xEE#8, 0xEE#8, 0xEE#8]
    ends (fun t => t.ymmAt 1#4 == 0x00000000000000000000000000000000FF80007FFFFF00000012FF870000FFFF#256 &&
      t.pc == 0x1004#64) (step s) = true := by decide

/-- 95_test_vectors.md W30: the VMI destination is VEX.vvvv. -/
theorem test_step_W30 :
    let s := launch .mode64 [0xC5#8, 0x99#8, 0x71#8, 0xE2#8, 0x03#8]
    let s := setV s 12#4 0xAAAAAAAAAAAAAAAA5555555555555555AAAAAAAAAAAAAAAA5555555555555555#256
    let s := setX s 2#4 0x80007FFFFFF00010123487650001FFFF#128
    ends (fun t => t.ymmAt 12#4 == 0x00000000000000000000000000000000F0000FFFFFFE00020246F0EC0000FFFF#256 &&
      t.pc == 0x1005#64) (step s) = true := by decide

/-- 95_test_vectors.md W34: a 256-bit row reads 16 bytes of count. -/
theorem test_step_W34 :
    let s := launch .mode64 [0xC5#8, 0xF5#8, 0xE1#8, 0x03#8]
    let s := setV s 1#4 0x80004000200010000800040002000100FFFF7FFF0001800100FFFF001234EDCB#256
    let s := setG s 3#4 0x5001#64
    let s := putBytes s 0x5001 [0x03#8, 0x00#8, 0x00#8, 0x00#8, 0x00#8, 0x00#8, 0x00#8, 0x00#8, 0x00#8, 0x00#8,
      0x00#8, 0x00#8, 0x00#8, 0x00#8, 0x00#8, 0x00#8]
    ends (fun t => t.ymmAt 0#4 == 0xF0000800040002000100008000400020FFFF0FFF0000F000001FFFE00246FDB9#256 &&
      t.pc == 0x1004#64) (step s) = true := by decide

/-- 95_test_vectors.md W33: a 256-bit row with an immediate. -/
theorem test_step_W33 :
    let s := launch .mode64 [0xC5#8, 0xF5#8, 0x71#8, 0xE2#8, 0x0F#8]
    let s := setV s 2#4 0x80004000200010000800040002000100FFFF7FFF0001800100FFFF001234EDCB#256
    ends (fun t => t.ymmAt 1#4 == 0xFFFF0000000000000000000000000000FFFF00000000FFFF0000FFFF0000FFFF#256 &&
      t.pc == 0x1005#64) (step s) = true := by decide

/-- 95_test_vectors.md PD9: an m64 count through base and disp8. -/
theorem test_step_PD9 :
    let s := launch .mode64 [0x0F#8, 0xE2#8, 0x76#8, 0x10#8]
    let s := setM s 6#3 0xDEADBEEF12345678#64
    let s := setG s 6#4 0x2100#64
    let s := putBytes s 0x2110 [0x0C#8, 0x00#8, 0x00#8, 0x00#8, 0x00#8, 0x00#8, 0x00#8, 0x00#8]
    ends (fun t => t.mmAt 6#3 == 0xFFFDEADB00012345#64 &&
      t.pc == 0x1004#64) (step s) = true := by decide

/-- 95_test_vectors.md PD14: SIB addressing. -/
theorem test_step_PD14 :
    let s := launch .mode64 [0x66#8, 0x0F#8, 0xE2#8, 0x4C#8, 0x8D#8, 0x20#8]
    let s := setX s 1#4 0x800000007FFFFFFFFFFFFFF000000010#128
    let s := setG s 5#4 0x3100#64
    let s := setG s 1#4 4#64
    let s := putBytes s 0x3130 [0x09#8, 0x00#8, 0x00#8, 0x00#8, 0x00#8, 0x00#8, 0x00#8, 0x00#8, 0x00#8, 0x00#8,
      0x00#8, 0x00#8, 0x00#8, 0x00#8, 0x00#8, 0x00#8]
    ends (fun t => t.xmmAt 1#4 == 0xFFC00000003FFFFFFFFFFFFF00000000#128 &&
      t.pc == 0x1006#64) (step s) = true := by decide

/-- 95_test_vectors.md PD15: RIP-relative addressing counts from the end. -/
theorem test_step_PD15 :
    let s := launch .mode64 [0x66#8, 0x0F#8, 0xE2#8, 0x0D#8, 0xF8#8, 0x1F#8, 0x00#8, 0x00#8]
    let s := setX s 1#4 0x800000007FFFFFFFFFFFFFF000000010#128
    let s := putBytes s 0x3000 [0x1F#8, 0x00#8, 0x00#8, 0x00#8, 0x00#8, 0x00#8, 0x00#8, 0x00#8, 0x00#8, 0x00#8,
      0x00#8, 0x00#8, 0x00#8, 0x00#8, 0x00#8, 0x00#8]
    ends (fun t => t.xmmAt 1#4 == 0xFFFFFFFF00000000FFFFFFFF00000000#128 &&
      t.pc == 0x1008#64) (step s) = true := by decide

/-- 95_test_vectors.md PD11: an immediate of 255 is unsigned. -/
theorem test_step_PD11 :
    let s := launch .mode64 [0x0F#8, 0x72#8, 0xE3#8, 0xFF#8]
    let s := setM s 3#3 0xDEADBEEF12345678#64
    ends (fun t => t.mmAt 3#3 == 0xFFFFFFFF00000000#64 &&
      t.pc == 0x1004#64) (step s) = true := by decide

/-- 95_test_vectors.md PD18: Mode32, no REX. -/
theorem test_step_PD18 :
    let s := launch .mode32 [0x66#8, 0x0F#8, 0x72#8, 0xE7#8, 0x04#8]
    let s := setX s 7#4 0x800000007FFFFFFFFFFFFFF000000010#128
    ends (fun t => t.xmmAt 7#4 == 0xF800000007FFFFFFFFFFFFFF00000001#128 &&
      t.pc == 0x1005#64) (step s) = true := by decide

/-- 95_test_vectors.md PD20: three register numbers above 7. -/
theorem test_step_PD20 :
    let s := launch .mode64 [0xC4#8, 0x41#8, 0x31#8, 0xE2#8, 0xC2#8]
    let s := setX s 9#4 0x800000007FFFFFFFFFFFFFF000000010#128
    let s := setX s 10#4 0x00000000000000050000000000000003#128
    ends (fun t => t.ymmAt 8#4 == 0x00000000000000000000000000000000F00000000FFFFFFFFFFFFFFE00000002#256 &&
      t.pc == 0x1005#64) (step s) = true := by decide

/-- 95_test_vectors.md PD21: the VMI form. -/
theorem test_step_PD21 :
    let s := launch .mode64 [0xC5#8, 0xF1#8, 0x72#8, 0xE2#8, 0x0C#8]
    let s := setX s 2#4 0x800000007FFFFFFFFFFFFFF000000010#128
    ends (fun t => t.ymmAt 1#4 == 0x00000000000000000000000000000000FFF800000007FFFFFFFFFFFF00000000#256 &&
      t.pc == 0x1005#64) (step s) = true := by decide

/-- 95_test_vectors.md PD24: destination, data and count the same register. -/
theorem test_step_PD24 :
    let s := launch .mode64 [0xC5#8, 0xED#8, 0xE2#8, 0xD2#8]
    let s := setV s 2#4 0x8000000040000000FFFFFFFF7FFFFFFF00000001800000010000000000000007#256
    ends (fun t => t.ymmAt 2#4 == 0xFF00000000800000FFFFFFFF00FFFFFF00000000FF0000000000000000000000#256 &&
      t.pc == 0x1004#64) (step s) = true := by decide

/-- 95_test_vectors.md PD26: 256 bits, immediate 1. -/
theorem test_step_PD26 :
    let s := launch .mode64 [0xC5#8, 0xF5#8, 0x72#8, 0xE2#8, 0x01#8]
    let s := setV s 2#4 0x8000000040000000FFFFFFFF7FFFFFFF00000001800000010000FFFFEDCB1234#256
    ends (fun t => t.ymmAt 1#4 == 0xC000000020000000FFFFFFFF3FFFFFFF00000000C000000000007FFFF6E5891A#256 &&
      t.pc == 0x1005#64) (step s) = true := by decide

/-- 95_test_vectors.md F15: #NM on an MMX row. -/
theorem test_fault_F15 :
    let s := launch .mode64 [0x0F#8, 0xE1#8, 0xC1#8]
    let s := { s with env.TS := true }
    stops (raise .nm) (step s) = true := by decide

/-- 95_test_vectors.md W17: #GP(0) on a misaligned SSE operand. -/
theorem test_fault_W17 :
    let s := launch .mode64 [0x66#8, 0x44#8, 0x0F#8, 0xE1#8, 0x08#8]
    let s := setX s 9#4 0x80007FFFFFF00010123487650001FFFF#128
    let s := setG s 0#4 0x3008#64
    let s := putBytes s 0x3008 [0x04#8, 0x00#8, 0x00#8, 0x00#8, 0x00#8, 0x00#8, 0x00#8, 0x00#8, 0x00#8, 0x00#8,
      0x00#8, 0x00#8, 0x00#8, 0x00#8, 0x00#8, 0x00#8]
    stops (raise .gp) (step s) = true := by decide

/-- 95_test_vectors.md F12: #UD on a VEX row without OSXSAVE. -/
theorem test_fault_F12 :
    let s := launch .mode64 [0xC5#8, 0xE9#8, 0xE1#8, 0xCB#8]
    let s := { s with env.OSXSAVE := false }
    stops (raise .ud) (step s) = true := by decide

/-- 95_test_vectors.md W32: #UD on a 256-bit row without AVX2. -/
theorem test_fault_W32 :
    let s := launch .mode64 [0xC5#8, 0xED#8, 0xE1#8, 0xCB#8]
    let s := setV s 2#4 0x80004000200010000800040002000100FFFF7FFF0001800100FFFF001234EDCB#256
    let s := { s with cfg.avx2 := false }
    stops (raise .ud) (step s) = true := by decide

/-- 70_reset_and_hazards.md R152: a 256-bit row without AVX, AVX2 present. -/
theorem test_fault_noAvx :
    let s := launch .mode64 [0xC5#8, 0xED#8, 0xE1#8, 0xCB#8]
    let s := { s with cfg.avx := false }
    stops (raise .ud) (step s) = true := by decide

/-- 95_test_vectors.md F34: #AC(0) on a misaligned MMX operand. -/
theorem test_fault_F34 :
    let s := launch .mode64 [0x0F#8, 0xE2#8, 0x08#8]
    let s := setG s 0#4 0x3004#64
    let s := { s with env.AM := true, env.CPL := 3#2, rflags := 0x40002#64 }
    stops (raise .ac) (step s) = true := by decide

/-- 95_test_vectors.md F19: #MF on an MMX row. -/
theorem test_fault_F19 :
    let s := launch .mode64 [0x0F#8, 0x72#8, 0xE3#8, 0x10#8]
    let s := { s with x87.sw := 0x80#16 }
    stops (raise .mf) (step s) = true := by decide

/-- 95_test_vectors.md F10: #UD on an SSE2 row without OSFXSR. -/
theorem test_fault_F10 :
    let s := launch .mode64 [0x66#8, 0x0F#8, 0x72#8, 0xE1#8, 0x1F#8]
    let s := { s with env.OSFXSR := false }
    stops (raise .ud) (step s) = true := by decide

/-- 95_test_vectors.md F22: #UD on an MI row with mod 00. -/
theorem test_fault_F22 :
    let s := launch .mode64 [0x0F#8, 0x71#8, 0x23#8, 0x01#8]
    stops (raise .ud) (step s) = true := by decide

/-! ## Witnesses: states and operands that meet the hypotheses of each statement together -/

/-- A SIB operand with REX.X and REX.B. -/
def iSib : Instr := .psrawXmm ⟨[.opSize], some ⟨false, false, true, true⟩⟩ 0#4 (.mem (.sib 2#2 9#4 8#4 .none))

def iMm : Instr := .psrawMm ⟨[], none⟩ 0#3 (.reg 1#3)

def iXmm : Instr := .psradXmm ⟨[.seg .cs, .opSize], none⟩ 1#4 (.reg 2#4)

def iVex : Instr := .vpsradXmmImm ⟨[.seg .cs, .addrSize], none, false, false, false, false, false⟩ 1#4 2#4 12#8

def iYmm : Instr := .vpsrawYmm (vexE false false false false false) 1#4 2#4 (.reg 3#4)

theorem witness_DecodeInvertsEncode : iSib.wf .mode64 = true ∧ iYmm.wf .mode32 = true := by decide

theorem witness_EncodeInvertsDecode :
    decode .mode64 [0x0F#8, 0xE1#8, 0xC1#8, 0x90#8] = .instr iMm [0x90#8] ∧ iMm.len ≤ 15 := by decide

/-- An instruction; #UD; a refusal; bytes cut short after 15 of them, by the end of memory, and by the address space. -/
theorem witness_StepRunsDecodedInstruction :
    let dec (bs : List Byte) : Decoded := decode .mode64 (launch .mode64 bs).window
    let prefixes := launch .mode64 (List.replicate 15 0x66#8)
    let cut := launch .mode64 [0x0F#8, 0xE1#8]
    let last := putBytes { State.reset with pc := 0xFFFFFFFFFFFFFFFF#64 } 0xFFFFFFFFFFFFFFFF [0x0F#8]
    dec [0x0F#8, 0xE1#8, 0xC1#8] = .instr iMm [] ∧ dec [0x0F#8, 0x71#8, 0x23#8, 0x01#8] = .ud ∧
    dec [0xC5#8, 0xF1#8, 0x73#8] = .refused .noRow ∧
    (decode prefixes.mode prefixes.window = .short ∧ prefixes.window.length = 15) ∧
    (decode cut.mode cut.window = .short ∧ cut.window.length = 2 ∧ cut.ip + 2 < pcTop cut.mode) ∧
    (decode last.mode last.window = .short ∧ last.window.length = 1 ∧ ¬ last.ip + 1 < pcTop last.mode) := by decide

theorem witness_StepRunsEncodedInstruction :
    let s := launch .mode64 (encode iMm)
    iMm.wf s.mode = true ∧ s.ip + iMm.len ≤ pcTop s.mode ∧
      ∀ k < iMm.len, s.codeByte (BitVec.ofNat 64 (s.ip + k)) = (encode iMm)[k]? := by decide

/-- At the top of the address space. -/
theorem witness_StepRunsEncodedInstruction_top :
    let s := putBytes { State.reset with pc := 0xFFFFFFFFFFFFFFFD#64 } 0xFFFFFFFFFFFFFFFD (encode iMm)
    iMm.wf s.mode = true ∧ s.ip + iMm.len ≤ pcTop s.mode ∧
      ∀ k < iMm.len, s.codeByte (BitVec.ofNat 64 (s.ip + k)) = (encode iMm)[k]? := by decide

theorem witness_StepMovesPcPastInstruction : ∃ t, step (launch .mode64 (encode iMm)) = .next t :=
  next_of_ends _ (by decide)

/-- The last byte at the top of the address space, in each mode; a readable operand in memory. -/
theorem witness_StepMovesPcPastInstruction_wrap :
    let s : State := { State.reset with pc := 0xFFFFFFFFFFFFFFFD#64 }
    let u : State := { State.reset with mode := .mode32, pc := 0xFFFFFFFD#64, mem := Memory.writeBytes [] 0 (List.replicate 8 1#8) }
    let i : Instr := .psradMm ⟨[], none⟩ 0#3 (.mem (.base 0#4 .none))
    (iMm.wf s.mode = true ∧ PrecheckPasses s iMm ∧ OperandReadable s iMm ∧ pcTop s.mode ≤ s.ip + iMm.len ∧
      exec iMm s = .refused .pcWraps) ∧
    (i.wf u.mode = true ∧ PrecheckPasses u i ∧ OperandReadable u i ∧ pcTop u.mode ≤ u.ip + i.len) :=
  ⟨⟨by decide, (precheck_eq_none _ _).1 (by decide), (fun _ h => by cases h), by decide, rfl⟩,
    ⟨by decide, (precheck_eq_none _ _).1 (by decide),
      (fun _ h => by
        cases h
        exact ⟨readable_of _ _ _ (by decide) (by decide) (by decide), (fun h => by cases h), by decide⟩), by decide⟩⟩

/-- Each head, with just the bytes of the operand and the immediate: none, SIB and displacement, 16-bit displacement. -/
theorem witness_ImmediateRowWithMemoryModIsUd :
    (Head .mode64 [.lock, .rep] (some ⟨false, false, false, true⟩) .o71 [0xF0#8, 0xF3#8, 0x41#8, 0x0F#8, 0x71#8] ∧
      modrmReg 0x23#8 = 4#3 ∧ modrmMod 0x23#8 ≠ 3#2 ∧ memTail .mode64 [.lock, .rep] 0x23#8 [1#8] < [1#8].length) ∧
    (Head .mode64 [] none .o72 [0x0F#8, 0x72#8] ∧ modrmReg 0x24#8 = 4#3 ∧ modrmMod 0x24#8 ≠ 3#2 ∧
      memTail .mode64 [] 0x24#8 [5#8, 0#8, 0#8, 0#8, 0#8, 1#8] < [5#8, 0#8, 0#8, 0#8, 0#8, 1#8].length) ∧
    (Head .mode32 [.addrSize] none .o71 [0x67#8, 0xC5#8, 0xF1#8, 0x71#8] ∧ modrmReg 0x26#8 = 4#3 ∧
      modrmMod 0x26#8 ≠ 3#2 ∧ memTail .mode32 [.addrSize] 0x26#8 [0#8, 0#8, 1#8] < [0#8, 0#8, 1#8].length) ∧
    (Head .mode32 [] none .o72 [0xC4#8, 0xE1#8, 0x71#8, 0x72#8] ∧ modrmReg 0x60#8 = 4#3 ∧ modrmMod 0x60#8 ≠ 3#2 ∧
      memTail .mode32 [] 0x60#8 [0#8, 1#8] < [0#8, 1#8].length) :=
  ⟨⟨.legacy (by decide), by decide⟩, ⟨.legacy (by decide), by decide⟩,
    ⟨.vex2 0xF1#8 (by decide) (by decide), by decide⟩, ⟨.vex3 0xE1#8 0x71#8 (by decide) (by decide) (by decide), by decide⟩⟩

theorem witness_LockPrefixIsUd : iXmm.wf .mode64 = true ∧ iXmm.pfx = [.seg .cs] ++ [.opSize] ∧
    iVex.wf .mode32 = true ∧ iVex.pfx = [] ++ [.seg .cs, .addrSize] := by decide

theorem witness_OtherPrefixesStopRows : iVex.wf .mode64 = true ∧ iVex.pfx = [.seg .cs] ++ [.addrSize] ∧
    iVex.row.cls = .vex128 ∧ iXmm.wf .mode64 = true ∧ iXmm.pfx = [.seg .cs, .opSize] ++ [] ∧ iXmm.row.cls = .sse2 := by
  decide

/-- With a REX and without; a byte of each clause; in front of VEX; pp, mmmmm. -/
theorem witness_BytesOfNoRowAreRefused :
    ((some (⟨false, false, false, true⟩ : Rex)).isSome = true → Mode.mode64 = .mode64) ∧ modrmReg 0xD0#8 ≠ 4#3 ∧
    (∀ op : Op, 0x73#8 ≠ op.byte) ∧
    (0x90#8 ∉ [0x0F#8, 0xC4#8, 0xC5#8] ∧ (∀ p : Pfx, 0x90#8 ≠ p.byte) ∧ (0x90#8).extractLsb' 4 4 ≠ 4#4) ∧
    BeforeVex [.seg .cs, .addrSize] ∧ (0xEA#8).extractLsb' 0 2 ≠ 1#2 ∧ (0xE2#8).extractLsb' 0 5 ≠ 1#5 :=
  ⟨fun _ => rfl, by decide, fun op => by cases op <;> decide,
    ⟨by decide, fun p => by cases p with | seg r => cases r <;> decide | _ => decide, by decide⟩,
    by unfold BeforeVex; decide, by decide, by decide⟩

/-- No VEX prefix; a 16-bit displacement on a legacy XMM row, and none on a VEX row. -/
theorem witness_Mode32FormsAreRefused :
    ((0x69#8).extractLsb' 6 2 ≠ 3#2) ∧
    (let ps := [Pfx.opSize, .addrSize];
      Pfx.addrSize ∈ ps ∧ Pfx.lock ∉ ps ∧ Pfx.repne ∉ ps ∧ Pfx.rep ∉ ps ∧
      Head .mode32 ps none .e1 (ps.map Pfx.byte ++ (rexBytes none ++ [0x0F#8, Op.e1.byte])) ∧
      ps.map Pfx.byte ++ (rexBytes none ++ [0x0F#8, Op.e1.byte]) = ps.map Pfx.byte ++ [0x0F#8, Op.e1.byte] ∧
      modrmMod 0x06#8 ≠ 3#2 ∧ memTail .mode32 ps 0x06#8 [1#8, 2#8] ≤ [1#8, 2#8].length) ∧
    (let ps := [Pfx.addrSize];
      Pfx.addrSize ∈ ps ∧ Pfx.lock ∉ ps ∧ Pfx.repne ∉ ps ∧ Pfx.rep ∉ ps ∧ Pfx.opSize ∉ ps ∧
      Head .mode32 ps none .e2 (ps.map Pfx.byte ++ (rexBytes none ++ [0xC5#8, 0xED#8, Op.e2.byte])) ∧
      modrmMod 0x07#8 ≠ 3#2 ∧ memTail .mode32 ps 0x07#8 [] ≤ ([] : List Byte).length) :=
  ⟨by decide, ⟨by decide, by decide, by decide, by decide, .legacy (by decide), by decide, by decide, by decide⟩,
    ⟨by decide, by decide, by decide, by decide, by decide, .vex2 0xED#8 (by decide) (by decide), by decide, by decide⟩⟩

/-- VEX.L = 1 in the 2-byte form, 0 in the 3-byte form, and a state without AVX2. -/
theorem witness_VexLSelectsVectorWidth :
    decode .mode64 ([].map Pfx.byte ++ 0xC5#8 :: 0xED#8 :: [0xE1#8, 0xCB#8]) = .instr iYmm [] ∧ (0xED#8).getLsbD 2 = true ∧
    decode .mode64 ([Pfx.seg .gs].map Pfx.byte ++ 0xC4#8 :: 0xC1#8 :: 0x69#8 :: [0xE1#8, 0xCB#8]) =
      .instr (.vpsrawXmm ⟨[.seg .gs], none, true, false, false, true, false⟩ 1#4 2#4 (.reg 11#4)) [] ∧ (0x69#8).getLsbD 2 = false ∧
    ({ State.reset with cfg := ⟨true, true, true, false⟩ } : State).cfg.avx2 = false := by decide

theorem witness_VexWIsIgnored :
    decode .mode64 ([].map Pfx.byte ++ 0xC4#8 :: 0xE1#8 :: 0xE9#8 :: [0xE1#8, 0xCB#8]) =
      .instr (.vpsrawXmm (vexE true false false false true) 1#4 2#4 (.reg 3#4)) [] := by decide

/-- Fifteen prefixes; a row whose displacement crosses the fifteenth byte; a row made 16 bytes long by LOCK. -/
theorem witness_OverlongInstructionRaisesGp :
    ((List.replicate 15 Pfx.opSize).length = 15 ∧
      (launch .mode64 (List.replicate 15 0x66#8)).window = (List.replicate 15 Pfx.opSize).map Pfx.byte) ∧
    (let i : Instr := .psrawMm ⟨List.replicate 9 (.seg .cs), none⟩ 0#3 (.mem (.disp32 7#32))
      let s := launch .mode64 ((encode i).take 15)
      i.fieldsWf s.mode = true ∧ 15 < i.len ∧ s.window = (encode i).take 15) ∧
    (let i : Instr := .psrawMm ⟨List.replicate 12 (.seg .cs), none⟩ 0#3 (.reg 1#3)
      let bs := ([].map Pfx.byte ++ (Pfx.lock.byte :: (encode i).drop 0)).take 15
      let s := launch .mode32 bs
      i.fieldsWf s.mode = true ∧ i.pfx = [] ++ i.pfx ∧ 15 < i.len + 1 ∧ s.window = bs) := by decide

/-- A VEX row made 16 bytes long by `66`, and by a REX; an MI encoding of 16 bytes with mod 00 and 16-bit addressing. -/
theorem witness_OverlongInstructionRaisesGp_ud :
    (let i : Instr := .vpsrawYmm ⟨List.replicate 11 .addrSize, none, false, false, false, false, false⟩ 1#4 2#4 (.reg 3#4)
      let bs := (i.pfx.map Pfx.byte ++ (Pfx.opSize.byte :: (encode i).drop i.pfx.length)).take 15
      let cs := (i.pfx.map Pfx.byte ++ ((⟨true, false, false, false⟩ : Rex).byte :: (encode i).drop i.pfx.length)).take 15
      i.fieldsWf .mode64 = true ∧ i.row.cls = .vex256 ∧ i.pfx = i.pfx ++ [] ∧ 15 < i.len + 1 ∧
        (launch .mode64 bs).window = bs ∧ (launch .mode64 cs).window = cs) ∧
    (let ps := List.replicate 12 Pfx.addrSize
      let head := ps.map Pfx.byte ++ (rexBytes none ++ [0x0F#8, Op.o71.byte])
      Head .mode32 ps none .o71 head ∧ modrmReg 0x20#8 = 4#3 ∧ modrmMod 0x20#8 ≠ 3#2 ∧
        [1#8].length = memTail .mode32 ps 0x20#8 [1#8] + 1 ∧ 15 < (head ++ 0x20#8 :: [1#8]).length ∧
        (launch .mode32 ((head ++ 0x20#8 :: [1#8]).take 15)).window = (head ++ 0x20#8 :: [1#8]).take 15) :=
  ⟨by decide, .legacy (by decide), by decide⟩

/-- Where the cases meet: bit 15 with count 0, and with count 1. -/
theorem witness_WordShiftBits : 15 < 16 ∧ 15 + 0 ≤ 15 ∧ ¬ 15 + 1 ≤ 15 := by decide

theorem witness_DoublewordShiftBits : 31 < 32 ∧ 31 + 0 ≤ 31 ∧ ¬ 31 + 1 ≤ 31 := by decide

theorem witness_ShiftLaws : 15 ≤ 15 ∧ 31 ≤ 31 := by decide

theorem witness_WordsShiftIndependently : (256 = 64 ∨ 256 = 128 ∨ 256 = 256) ∧ 15 < 256 / 16 ∧ 3 < 64 / 16 := by decide

theorem witness_DoublewordsShiftIndependently : (256 = 64 ∨ 256 = 128 ∨ 256 = 256) ∧ 7 < 256 / 32 ∧ 1 < 64 / 32 := by
  decide

/-! ### Results -/

/-- RBX points at a count of 2 (16 bytes at 0x2001), RAX at the same count at 0x3000. -/
def ready (m : Mode) : State :=
  putBytes (putBytes (setG (setG (setM (setV (launch m []) 2#4 7#256) 1#3 3#64) 3#4 0x2001#64) 0#4 0x3000#64) 0x2001
    (2#8 :: List.replicate 15 0#8)) 0x3000 (2#8 :: List.replicate 15 0#8)

theorem ready_mmx (m : Mode) : MmxReady (ready m) := by cases m <;> exact ⟨rfl, rfl, rfl, by decide⟩

theorem ready_sse2 (m : Mode) : Sse2Ready (ready m) := by cases m <;> exact ⟨rfl, rfl, rfl, rfl⟩

theorem ready_avx (m : Mode) : VexReady (ready m) .avx := by cases m <;> exact ⟨rfl, rfl, rfl, rfl, rfl, rfl⟩

theorem ready_avx2 (m : Mode) : VexReady (ready m) .avx2 := by cases m <;> exact ⟨rfl, rfl, rfl, rfl, rfl, rfl⟩

/-- The count operand `[rbx]` or `[rax]`. -/
def rbx : MemForm := .base 3#4 .none

def rax : MemForm := .base 0#4 .none

theorem noWrap_of (s : State) (i : Instr) (h : s.ip + i.len < pcTop s.mode) : NoWrap s i := h

theorem countMm_reg (s : State) (i : Instr) (c : Nat) (r : BitVec 3) (h : c = (s.mmAt r).toNat) : CountMm s i c (.reg r) := h

theorem countXmm_reg (s : State) (i : Instr) (al : Bool) (c : Nat) (r : BitVec 4) (h : c = (s.xmmAt r).toNat % 2 ^ 64) :
    CountXmm s i al c (.reg r) := h

theorem witness_PsrawMmShiftsWords :
    let i : Instr := .psrawMm ⟨[], none⟩ 0#3 (.reg 1#3)
    i.wf .mode64 = true ∧ MmxReady (ready .mode64) ∧ CountMm (ready .mode64) i 3 (.reg 1#3) ∧ NoWrap (ready .mode64) i :=
  ⟨by decide, ready_mmx _, countMm_reg _ _ _ _ (by decide), noWrap_of _ _ (by decide)⟩

theorem witness_PsrawMmShiftsWords_memory :
    let i : Instr := .psrawMm ⟨[], none⟩ 0#3 (.mem rbx)
    i.wf .mode32 = true ∧ MmxReady (ready .mode32) ∧ CountMm (ready .mode32) i 2 (.mem rbx) ∧ NoWrap (ready .mode32) i :=
  ⟨by decide, ready_mmx _, ⟨readable_of _ _ _ (by decide) (by decide) (by decide), by decide, by decide, by decide⟩,
    noWrap_of _ _ (by decide)⟩

theorem witness_PsrawXmmShiftsWords :
    let i : Instr := .psrawXmm ⟨[.opSize], none⟩ 0#4 (.reg 2#4)
    i.wf .mode32 = true ∧ Sse2Ready (ready .mode32) ∧ CountXmm (ready .mode32) i true 7 (.reg 2#4) ∧
      NoWrap (ready .mode32) i :=
  ⟨by decide, ready_sse2 _, countXmm_reg _ _ _ _ _ (by decide), noWrap_of _ _ (by decide)⟩

theorem witness_PsrawXmmShiftsWords_memory :
    let i : Instr := .psrawXmm ⟨[.opSize], none⟩ 0#4 (.mem rax)
    i.wf .mode64 = true ∧ Sse2Ready (ready .mode64) ∧ CountXmm (ready .mode64) i true 2 (.mem rax) ∧
      NoWrap (ready .mode64) i :=
  ⟨by decide, ready_sse2 _, ⟨readable_of _ _ _ (by decide) (by decide) (by decide), by decide, by decide, by decide⟩,
    noWrap_of _ _ (by decide)⟩

theorem witness_PsrawMmImmShiftsWords :
    let i : Instr := .psrawMmImm ⟨[], none⟩ 3#3 255#8
    i.wf .mode64 = true ∧ MmxReady (ready .mode64) ∧ NoWrap (ready .mode64) i :=
  ⟨by decide, ready_mmx _, noWrap_of _ _ (by decide)⟩

theorem witness_PsrawXmmImmShiftsWords :
    let i : Instr := .psrawXmmImm ⟨[.opSize], none⟩ 3#4 255#8
    i.wf .mode64 = true ∧ Sse2Ready (ready .mode64) ∧ NoWrap (ready .mode64) i :=
  ⟨by decide, ready_sse2 _, noWrap_of _ _ (by decide)⟩

theorem witness_VpsrawXmmShiftsWords :
    let i : Instr := .vpsrawXmm (vexE false false false false false) 1#4 2#4 (.reg 2#4)
    i.wf .mode64 = true ∧ VexReady (ready .mode64) .avx ∧ CountXmm (ready .mode64) i false 7 (.reg 2#4) ∧
      NoWrap (ready .mode64) i :=
  ⟨by decide, ready_avx _, countXmm_reg _ _ _ _ _ (by decide), noWrap_of _ _ (by decide)⟩

theorem witness_VpsrawXmmShiftsWords_memory :
    let i : Instr := .vpsrawXmm (vexE false false false false false) 1#4 2#4 (.mem rbx)
    i.wf .mode32 = true ∧ VexReady (ready .mode32) .avx ∧ CountXmm (ready .mode32) i false 2 (.mem rbx) ∧
      NoWrap (ready .mode32) i :=
  ⟨by decide, ready_avx _, ⟨readable_of _ _ _ (by decide) (by decide) (by decide), by decide, by decide, by decide⟩,
    noWrap_of _ _ (by decide)⟩

theorem witness_VpsrawXmmImmShiftsWords :
    let i : Instr := .vpsrawXmmImm (vexE false false false false false) 1#4 2#4 255#8
    i.wf .mode64 = true ∧ VexReady (ready .mode64) .avx ∧ NoWrap (ready .mode64) i :=
  ⟨by decide, ready_avx _, noWrap_of _ _ (by decide)⟩

theorem witness_VpsrawYmmShiftsWords :
    let i : Instr := .vpsrawYmm (vexE false false false false false) 1#4 2#4 (.reg 2#4)
    i.wf .mode32 = true ∧ VexReady (ready .mode32) .avx2 ∧ CountXmm (ready .mode32) i false 7 (.reg 2#4) ∧
      NoWrap (ready .mode32) i :=
  ⟨by decide, ready_avx2 _, countXmm_reg _ _ _ _ _ (by decide), noWrap_of _ _ (by decide)⟩

theorem witness_VpsrawYmmShiftsWords_memory :
    let i : Instr := .vpsrawYmm (vexE false false false false false) 1#4 2#4 (.mem rbx)
    i.wf .mode64 = true ∧ VexReady (ready .mode64) .avx2 ∧ CountXmm (ready .mode64) i false 2 (.mem rbx) ∧
      NoWrap (ready .mode64) i :=
  ⟨by decide, ready_avx2 _, ⟨readable_of _ _ _ (by decide) (by decide) (by decide), by decide, by decide, by decide⟩,
    noWrap_of _ _ (by decide)⟩

theorem witness_VpsrawYmmImmShiftsWords :
    let i : Instr := .vpsrawYmmImm (vexE false false false false false) 1#4 2#4 255#8
    i.wf .mode64 = true ∧ VexReady (ready .mode64) .avx2 ∧ NoWrap (ready .mode64) i :=
  ⟨by decide, ready_avx2 _, noWrap_of _ _ (by decide)⟩

theorem witness_PsradMmShiftsDoublewords :
    let i : Instr := .psradMm ⟨[], none⟩ 0#3 (.reg 1#3)
    i.wf .mode64 = true ∧ MmxReady (ready .mode64) ∧ CountMm (ready .mode64) i 3 (.reg 1#3) ∧ NoWrap (ready .mode64) i :=
  ⟨by decide, ready_mmx _, countMm_reg _ _ _ _ (by decide), noWrap_of _ _ (by decide)⟩

theorem witness_PsradMmShiftsDoublewords_memory :
    let i : Instr := .psradMm ⟨[], none⟩ 0#3 (.mem rbx)
    i.wf .mode32 = true ∧ MmxReady (ready .mode32) ∧ CountMm (ready .mode32) i 2 (.mem rbx) ∧ NoWrap (ready .mode32) i :=
  ⟨by decide, ready_mmx _, ⟨readable_of _ _ _ (by decide) (by decide) (by decide), by decide, by decide, by decide⟩,
    noWrap_of _ _ (by decide)⟩

theorem witness_PsradXmmShiftsDoublewords :
    let i : Instr := .psradXmm ⟨[.opSize], none⟩ 0#4 (.reg 2#4)
    i.wf .mode32 = true ∧ Sse2Ready (ready .mode32) ∧ CountXmm (ready .mode32) i true 7 (.reg 2#4) ∧
      NoWrap (ready .mode32) i :=
  ⟨by decide, ready_sse2 _, countXmm_reg _ _ _ _ _ (by decide), noWrap_of _ _ (by decide)⟩

theorem witness_PsradXmmShiftsDoublewords_memory :
    let i : Instr := .psradXmm ⟨[.opSize], none⟩ 0#4 (.mem rax)
    i.wf .mode64 = true ∧ Sse2Ready (ready .mode64) ∧ CountXmm (ready .mode64) i true 2 (.mem rax) ∧
      NoWrap (ready .mode64) i :=
  ⟨by decide, ready_sse2 _, ⟨readable_of _ _ _ (by decide) (by decide) (by decide), by decide, by decide, by decide⟩,
    noWrap_of _ _ (by decide)⟩

theorem witness_PsradMmImmShiftsDoublewords :
    let i : Instr := .psradMmImm ⟨[], none⟩ 3#3 255#8
    i.wf .mode64 = true ∧ MmxReady (ready .mode64) ∧ NoWrap (ready .mode64) i :=
  ⟨by decide, ready_mmx _, noWrap_of _ _ (by decide)⟩

theorem witness_PsradXmmImmShiftsDoublewords :
    let i : Instr := .psradXmmImm ⟨[.opSize], none⟩ 3#4 255#8
    i.wf .mode64 = true ∧ Sse2Ready (ready .mode64) ∧ NoWrap (ready .mode64) i :=
  ⟨by decide, ready_sse2 _, noWrap_of _ _ (by decide)⟩

theorem witness_VpsradXmmShiftsDoublewords :
    let i : Instr := .vpsradXmm (vexE false false false false false) 1#4 2#4 (.reg 2#4)
    i.wf .mode64 = true ∧ VexReady (ready .mode64) .avx ∧ CountXmm (ready .mode64) i false 7 (.reg 2#4) ∧
      NoWrap (ready .mode64) i :=
  ⟨by decide, ready_avx _, countXmm_reg _ _ _ _ _ (by decide), noWrap_of _ _ (by decide)⟩

theorem witness_VpsradXmmShiftsDoublewords_memory :
    let i : Instr := .vpsradXmm (vexE false false false false false) 1#4 2#4 (.mem rbx)
    i.wf .mode32 = true ∧ VexReady (ready .mode32) .avx ∧ CountXmm (ready .mode32) i false 2 (.mem rbx) ∧
      NoWrap (ready .mode32) i :=
  ⟨by decide, ready_avx _, ⟨readable_of _ _ _ (by decide) (by decide) (by decide), by decide, by decide, by decide⟩,
    noWrap_of _ _ (by decide)⟩

theorem witness_VpsradXmmImmShiftsDoublewords :
    let i : Instr := .vpsradXmmImm (vexE false false false false false) 1#4 2#4 255#8
    i.wf .mode64 = true ∧ VexReady (ready .mode64) .avx ∧ NoWrap (ready .mode64) i :=
  ⟨by decide, ready_avx _, noWrap_of _ _ (by decide)⟩

theorem witness_VpsradYmmShiftsDoublewords :
    let i : Instr := .vpsradYmm (vexE false false false false false) 1#4 2#4 (.reg 2#4)
    i.wf .mode32 = true ∧ VexReady (ready .mode32) .avx2 ∧ CountXmm (ready .mode32) i false 7 (.reg 2#4) ∧
      NoWrap (ready .mode32) i :=
  ⟨by decide, ready_avx2 _, countXmm_reg _ _ _ _ _ (by decide), noWrap_of _ _ (by decide)⟩

theorem witness_VpsradYmmShiftsDoublewords_memory :
    let i : Instr := .vpsradYmm (vexE false false false false false) 1#4 2#4 (.mem rbx)
    i.wf .mode64 = true ∧ VexReady (ready .mode64) .avx2 ∧ CountXmm (ready .mode64) i false 2 (.mem rbx) ∧
      NoWrap (ready .mode64) i :=
  ⟨by decide, ready_avx2 _, ⟨readable_of _ _ _ (by decide) (by decide) (by decide), by decide, by decide, by decide⟩,
    noWrap_of _ _ (by decide)⟩

theorem witness_VpsradYmmImmShiftsDoublewords :
    let i : Instr := .vpsradYmmImm (vexE false false false false false) 1#4 2#4 255#8
    i.wf .mode64 = true ∧ VexReady (ready .mode64) .avx2 ∧ NoWrap (ready .mode64) i :=
  ⟨by decide, ready_avx2 _, noWrap_of _ _ (by decide)⟩

/-- Bytes 0 to 7 of a register count of the MMX and XMM rows with a device as memory: a recorded read. -/
theorem test_device_read :
    let s := { ready .mode64 with devices := [⟨0x2001, 0x2001⟩] }
    ends (fun t => t.deviceReads == [⟨0x2001#64, 8⟩]) (exec (.psrawMm ⟨[], none⟩ 0#3 (.mem rbx)) s) = true := by decide

/-! ### Exceptions -/

theorem noUd_of (s : State) (i : Instr) (h : s.udCond i = false) : NoUd s i := (udCond_eq_false s i).1 h

theorem passes_of (s : State) (i : Instr) (h : s.precheck i = none) : PrecheckPasses s i := (precheck_eq_none s i).1 h

theorem not_inside (s : State) (g : SegSel) (off : Addr) (h : s.segOk g off = false) : ¬ InSegment s g off := by
  rw [← segOk_iff, h]; exact Bool.false_ne_true

theorem inside_of (s : State) (a : Access) (n : Nat) (h : ∀ k < n, s.segOk a.seg (a.offset k) = true) :
    ∀ k < n, InSegment s a.seg (a.offset k) := fun k hk => (segOk_iff s _ _).1 (h k hk)

theorem admitted_of (s : State) (a : Access) (n : Nat) (h : ∀ k < n, s.pageFault (s.byteAddr a k) = none) :
    ∀ k < n, Admitted s (s.byteAddr a k) := fun k hk => (pageFault_eq_none s _).1 (h k hk)

theorem not_admitted (s : State) (a : Addr) (c : BitVec 32) (h : s.pageFault a = some c) : ¬ Admitted s a := by
  rw [← pageFault_eq_none, h]; exact Option.some_ne_none c

/-- One state per condition, the rows at the borders of each class. -/
theorem witness_PrecheckRaisesUd :
    let r := State.reset
    iMm.wf .mode64 = true ∧ iXmm.wf .mode64 = true ∧ iVex.wf .mode64 = true ∧ iYmm.wf .mode64 = true ∧
    ({ r with cfg.mmx := false } : State).cfg.has iMm.row.needs = false ∧
    ({ r with cfg.avx2 := false } : State).cfg.has iYmm.row.needs = false ∧
    (iMm.row.cls = .mmx ∧ ({ r with env.EM := true } : State).env.EM = true) ∧
    (iXmm.row.cls = .sse2 ∧ ({ r with env.OSFXSR := false } : State).env.OSFXSR = false) ∧
    (iYmm.row.cls = .vex256 ∧ ({ r with cfg.avx := false } : State).cfg.avx = false) ∧
    (iVex.row.cls = .vex128 ∧ ({ r with env.OSXSAVE := false } : State).env.OSXSAVE = false) ∧
    (iYmm.row.cls = .vex256 ∧ ¬ (({ r with env.XCR0_SSE := false } : State).env.XCR0_SSE = true ∧ r.env.XCR0_AVX = true)) := by
  decide

theorem witness_TaskSwitchedRaisesNm :
    let s := { State.reset with env.TS := true }
    iMm.wf s.mode = true ∧ NoUd s iMm ∧ iYmm.wf s.mode = true ∧ NoUd s iYmm ∧ s.env.TS = true :=
  ⟨by decide, noUd_of _ _ (by decide), by decide, noUd_of _ _ (by decide), rfl⟩

/-- ES set: an MMX row, and a row that is none. -/
theorem witness_PendingX87RaisesMf :
    let s := { State.reset with x87.sw := 0x80#16 }
    iMm.wf s.mode = true ∧ iMm.row.num ∈ [1, 3, 9, 11] ∧ NoUd s iMm ∧ s.env.TS = false ∧ s.x87Pending = true ∧
      iXmm.wf s.mode = true ∧ iXmm.row.num ∉ [1, 3, 9, 11] :=
  ⟨by decide, by decide, noUd_of _ _ (by decide), rfl, by decide, by decide, by decide⟩

/-- The first address that is not canonical, in RAX, RBP and R13. -/
def wild : State := setG (setG (setG State.reset 0#4 0x0000800000000000#64) 5#4 0x0000800000000000#64) 13#4 0x0000800000000000#64

def iRax : Instr := .vpsradXmm (vexE false false false false false) 1#4 2#4 (.mem rax)

def iRbp : Instr := .psradMm ⟨[], none⟩ 1#3 (.mem (.base 5#4 (.d8 0#8)))

def iR13 : Instr := .psrawXmm ⟨[.opSize], some ⟨false, false, false, true⟩⟩ 1#4 (.mem (.base 13#4 (.d8 0#8)))

/-- Each of the three clauses. -/
theorem witness_SegmentViolationRaisesSsOrGp :
    (ReadsOperand wild iRbp (.base 5#4 (.d8 0#8)) (wild.access iRbp (.base 5#4 (.d8 0#8))) ∧
      (∃ k < memBytes iRbp, ¬ InSegment wild (wild.access iRbp (.base 5#4 (.d8 0#8))).seg
        ((wild.access iRbp (.base 5#4 (.d8 0#8))).offset k)) ∧
      (wild.access iRbp (.base 5#4 (.d8 0#8))).seg = .seg .ss) ∧
    (ReadsOperand wild iRax rax (wild.access iRax rax) ∧
      (∃ k < memBytes iRax, ¬ InSegment wild (wild.access iRax rax).seg ((wild.access iRax rax).offset k)) ∧
      (wild.access iRax rax).seg = .seg .ds) ∧
    (ReadsOperand wild iR13 (.base 13#4 (.d8 0#8)) (wild.access iR13 (.base 13#4 (.d8 0#8))) ∧
      (∃ k < memBytes iR13, ¬ InSegment wild (wild.access iR13 (.base 13#4 (.d8 0#8))).seg
        ((wild.access iR13 (.base 13#4 (.d8 0#8))).offset k)) ∧
      (wild.access iR13 (.base 13#4 (.d8 0#8))).seg = .dsOrSs 13#4) :=
  ⟨⟨⟨by decide, by decide, rfl, passes_of _ _ (by decide)⟩, ⟨0, by decide, not_inside _ _ _ (by decide)⟩, by decide⟩,
    ⟨⟨by decide, by decide, rfl, passes_of _ _ (by decide)⟩, ⟨0, by decide, not_inside _ _ _ (by decide)⟩, by decide⟩,
    ⟨⟨by decide, by decide, rfl, passes_of _ _ (by decide)⟩, ⟨0, by decide, not_inside _ _ _ (by decide)⟩, by decide⟩⟩

/-- In Mode32, the last byte of the operand outside the limit of DS, and a null selector in DS. -/
theorem witness_SegmentViolationRaisesSsOrGp_mode32 :
    let s : State := { State.reset with mode := .mode32, env.segs.ds := ⟨0#64, 14#32, false⟩ }
    let u : State := { State.reset with mode := .mode32, env.segs.ds := ⟨0#64, 0xFFFFFFFF#32, true⟩ }
    (ReadsOperand s iRax rax (s.access iRax rax) ∧
      ∃ k < memBytes iRax, ¬ InSegment s (s.access iRax rax).seg ((s.access iRax rax).offset k)) ∧
    (ReadsOperand u iRax rax (u.access iRax rax) ∧
      ∃ k < memBytes iRax, ¬ InSegment u (u.access iRax rax).seg ((u.access iRax rax).offset k)) :=
  ⟨⟨⟨by decide, by decide, rfl, passes_of _ _ (by decide)⟩, 15, by decide, not_inside _ _ _ (by decide)⟩,
    ⟨⟨by decide, by decide, rfl, passes_of _ _ (by decide)⟩, 0, by decide, not_inside _ _ _ (by decide)⟩⟩

def iSse : Instr := .psradXmm ⟨[.opSize], none⟩ 1#4 (.mem rbx)

theorem witness_MisalignedSseOperandRaisesGp :
    let s := ready .mode64
    let a := s.access iSse rbx
    ReadsOperand s iSse rbx a ∧ iSse.row.cls = .sse2 ∧ (∀ k < 16, InSegment s a.seg (a.offset k)) ∧
      (s.byteAddr a 0).toNat % 16 ≠ 0 :=
  ⟨⟨by decide, by decide, rfl, passes_of _ _ (by decide)⟩, by decide, inside_of _ _ _ (by decide), by decide⟩

/-- The page of the operand's last byte not present, at privilege level 3; a supervisor page; a reserved bit. -/
theorem witness_TranslationFailureRaisesPf :
    let s : State := { ready .mode64 with pages := [⟨0x2010, 0x2FFF, .notPresent⟩], env.CPL := 3#2 }
    let i : Instr := .vpsradYmm (vexE false false false false false) 1#4 2#4 (.mem rbx)
    let a := s.access i rbx
    ReadsOperand s i rbx a ∧ SseAligned s i a ∧ (∀ k < memBytes i, InSegment s a.seg (a.offset k)) ∧
      (∃ k < memBytes i, ¬ Admitted s (s.byteAddr a k)) ∧
      (¬ Admitted { s with pages := [⟨0x2010, 0x2FFF, .present true false⟩] } (s.byteAddr a 15)) ∧
      (¬ Admitted { s with pages := [⟨0x2010, 0x2FFF, .present false true⟩] } (s.byteAddr a 15)) :=
  ⟨⟨by decide, by decide, rfl, passes_of _ _ (by decide)⟩, (by intro h; cases h), inside_of _ _ _ (by decide),
    ⟨15, by decide, not_admitted _ _ 4#32 (by decide)⟩, not_admitted _ _ 5#32 (by decide),
    not_admitted _ _ 13#32 (by decide)⟩

/-- Alignment checking on, the operand at 0x2001; and a row that has no such exception. -/
theorem witness_MisalignedMmxOperandRaisesAc :
    let s : State := { ready .mode64 with env.AM := true, env.CPL := 3#2, rflags := 0x40002#64 }
    let i : Instr := .psradMm ⟨[], none⟩ 1#3 (.mem rbx)
    let a := s.access i rbx
    ReadsOperand s i rbx a ∧ i.row.num ∈ [1, 9] ∧ (∀ k < 8, InSegment s a.seg (a.offset k)) ∧
      (∀ k < 8, Admitted s (s.byteAddr a k)) ∧ s.alignCheck = true ∧ (s.byteAddr a 0).toNat % 8 ≠ 0 ∧
      iSse.row.num ∉ [1, 9] :=
  ⟨⟨by decide, by decide, rfl, passes_of _ _ (by decide)⟩, by decide, inside_of _ _ _ (by decide),
    admitted_of _ _ _ (by decide), by decide, by decide, by decide⟩

/-- Only the last byte is outside the launch memory. -/
theorem witness_UnbackedOperandIsStuck :
    let s := setG (ready .mode64) 3#4 0x2002#64
    let i : Instr := .vpsradYmm (vexE false false false false false) 1#4 2#4 (.mem rbx)
    let a := s.access i rbx
    ReadsOperand s i rbx a ∧ SseAligned s i a ∧ (∀ k < memBytes i, InSegment s a.seg (a.offset k)) ∧
      (∀ k < memBytes i, Admitted s (s.byteAddr a k)) ∧
      (i.row.cls = .mmx → s.alignCheck = true → (s.byteAddr a 0).toNat % 8 = 0) ∧
      ∃ k < memBytes i, s.byteAt (s.byteAddr a k) = none :=
  ⟨⟨by decide, by decide, rfl, passes_of _ _ (by decide)⟩, (by intro h; cases h), inside_of _ _ _ (by decide),
    admitted_of _ _ _ (by decide), by decide, ⟨15, by decide, by decide⟩⟩

theorem witness_RowsRaiseOnlyTheirExceptions :
    exec iMm { State.reset with env.TS := true } = .fault (.exception 7 none none) := rfl

theorem witness_HardwareResetDisablesSimd :
    let s : State := { State.reset with env := { Env.hardwareReset with CPL := 3#2, segs.fs.base := 0x7000#64 } }
    iXmm.wf s.mode = true ∧ iYmm.wf s.mode = true ∧ s.env = { Env.hardwareReset with CPL := s.env.CPL, segs := s.env.segs } ∧
      iXmm.row.cls ≠ .mmx ∧
      iYmm.row.cls ≠ .mmx := by decide

/-! ### Addresses -/

theorem witness_EffectiveAddressForms : State.reset.mode = .mode64 ∧ Pfx.addrSize ∉ iSib.pfx := by decide

theorem witness_ShortEffectiveAddressForms :
    ((ready .mode32).mode = .mode32 ∧ Pfx.addrSize ∉ iSib.pfx) ∧ ((ready .mode64).mode = .mode64 ∧ Pfx.addrSize ∈ iVex.pfx) := by
  decide

/-- Two overrides; and base registers of each kind, in Mode64 and (13, taken as 5) in Mode32. -/
theorem witness_OperandSegmentSelection :
    (Instr.psrawMm ⟨[.seg .fs, .addrSize, .seg .gs], none⟩ 0#3 (.mem rax)).pfx =
      [.seg .fs, .addrSize] ++ .seg .gs :: [] ∧ (∀ r', Pfx.seg r' ∉ ([] : List Pfx)) ∧
    (∀ r, Pfx.seg r ∉ iSse.pfx) ∧ effNum .mode64 4#4 = 4#4 ∧ effNum .mode64 13#4 = 13#4 ∧ effNum .mode32 13#4 = 5#4 ∧
    effNum .mode64 3#4 ∉ [4#4, 5#4, 12#4, 13#4] :=
  ⟨rfl, fun _ => by simp, fun r => by simp [iSse, Instr.pfx], by decide⟩

/-- Each clause, without and with `67`; an override of FS, of GS and of another segment. -/
theorem witness_LinearAddressOfByte :
    let i (r : SegReg) : Instr := .psrawMm ⟨[.seg r], none⟩ 0#3 (.mem rax)
    let j : Instr := .psrawMm ⟨[.addrSize, .seg .gs], none⟩ 0#3 (.mem rax)
    State.reset.mode = .mode64 ∧ (∀ r ∈ [SegReg.fs, .gs, .ss], Pfx.addrSize ∉ (i r).pfx) ∧
    (State.reset.access (i .fs) rax).seg = .seg .fs ∧ (State.reset.access (i .gs) rax).seg = .seg .gs ∧
    (State.reset.access (i .ss) rax).seg ≠ .seg .fs ∧ (State.reset.access (i .ss) rax).seg ≠ .seg .gs ∧
    Pfx.addrSize ∈ j.pfx ∧ (State.reset.access j rax).seg = .seg .gs ∧
    (ready .mode32).mode = .mode32 ∧ Pfx.addrSize ∉ (i .ss).pfx := by decide

/-! ### The whole machine -/

theorem witness_NoInstructionWritesMemoryOrSystemState : ∃ t, exec iYmm (ready .mode64) = .next t :=
  next_of_ends _ (by decide)

/-- A row of each class that has a clause. -/
theorem witness_RegisterFilesAreSeparate :
    (∃ t, exec iMm (ready .mode64) = .next t) ∧ iMm.row.cls = .mmx ∧ (∃ t, exec iXmm (ready .mode64) = .next t) ∧
    iXmm.row.cls = .sse2 ∧ (∃ t, exec iVex (ready .mode64) = .next t) ∧ iVex.row.cls = .vex128 :=
  ⟨next_of_ends _ (by decide), by decide, next_of_ends _ (by decide), by decide, next_of_ends _ (by decide), by decide⟩

/-- Another content of V8 and R8; a next state, a fault and a refusal. -/
theorem witness_Mode32HighRegistersUntouched :
    let s := ready .mode32
    let s' := setG (setV s 8#4 1#256) 8#4 1#64
    s.mode = .mode32 ∧ (∃ t, exec iYmm s = .next t) ∧ exec iYmm { s with env.TS := true } = raise .nm ∧
      exec iYmm { s with pc := 0xFFFFFFFC#64 } = .refused .pcWraps ∧
      (∀ j : BitVec 4, j.toNat < 8 → s'.v.get j.toFin = s.v.get j.toFin) ∧
      (∀ j : BitVec 4, j.toNat < 8 → s'.gpr.get j.toFin = s.gpr.get j.toFin) ∧
      s' = { s with v := s'.v, gpr := s'.gpr } ∧ s' ≠ s :=
  ⟨rfl, next_of_ends _ (by decide), rfl, rfl, by decide, by decide, rfl, by decide⟩

theorem witness_FlagsAndMxcsrAreNeverRead :
    (0x8D5#64 : BitVec 64).getLsbD 18 = State.reset.rflags.getLsbD 18 ∧ (0x8D5#64 : BitVec 64) ≠ State.reset.rflags := by
  decide

theorem witness_PrivilegeLevelDoesNotMatter :
    let s : State := { ready .mode64 with pages := [⟨0x2000, 0x2FFF, .present false false⟩] }
    (∀ p ∈ s.pages, ∀ r, p.status ≠ .present true r) ∧ s.rflags.getLsbD 18 = false ∧
      ∃ t, exec (.psradMm ⟨[], none⟩ 1#3 (.mem rbx)) s = .next t :=
  ⟨by decide, by decide, next_of_ends _ (by decide)⟩

theorem witness_ProgramTextIsImmutable : ∃ t, step (launch .mode32 (encode iMm)) = .next t :=
  next_of_ends _ (by decide)

theorem witness_StepKeepsInvariant :
    (launch .mode64 (encode iMm)).Inv ∧ ∃ t, step (launch .mode64 (encode iMm)) = .next t :=
  ⟨⟨by decide, by decide⟩, next_of_ends _ (by decide)⟩

end Sys2Proof.Tests
end

section
/-! Decoding and encoding are inverse to each other (30_encoding.md R50 to R75): the front of an encoding (`LegacyEnc.bytes`,
`VexEnc.bytes`) decides the row, ModRM and what follows it the operands. -/

namespace Sys2Proof

/-! ### Decoding an encoding -/

/-- After the prefixes, REX and `0F op` of a legacy encoding, decoding goes on at ModRM of the row. -/
theorem decode_legacyBytes (m : Mode) (xmm : Bool) (e : LegacyEnc) (op : Op) (bs : List Byte)
    (h : e.wf m xmm = true) : decode m (e.bytes op ++ bs) = decodeLegacyOp m e op bs := by
  simp only [LegacyEnc.wf, Bool.and_eq_true, Bool.not_eq_true'] at h
  obtain ⟨⟨⟨⟨hm, hlock⟩, hrepne⟩, hrep⟩, -⟩ := h
  have hfront := decode_front m e.pfx e.rex 0x0F#8 (op.byte :: bs) hm (by decide) (by decide)
  simp only [LegacyEnc.bytes, List.append_assoc, List.cons_append, List.nil_append]
  simpa [decodeOpcode, decodeLegacy, -List.contains_eq_mem, hlock, hrepne, hrep] using hfront

theorem opSize_of_wf (m : Mode) (xmm : Bool) (e : LegacyEnc) (h : e.wf m xmm = true) :
    e.pfx.contains .opSize = xmm := by
  simp only [LegacyEnc.wf, Bool.and_eq_true, beq_iff_eq] at h
  exact h.2

/-- The fields of the byte after `C5` (R55). -/
theorem vex2_fields (r l : Bool) (v : BitVec 4) (b : Byte)
    (hb : b = BitVec.ofBool (!r) ++ ~~~ v ++ BitVec.ofBool l ++ 1#2) :
    b.getLsbD 7 = !r ∧ vexVvvv b = v ∧ b.getLsbD 2 = l ∧ b.extractLsb' 0 2 = 1#2 ∧
      b.extractLsb' 6 2 = BitVec.ofBool (!r) ++ BitVec.ofBool (!v.msb) := by
  subst hb; revert r l v; decide

/-- The fields of the first byte after `C4` (R55). -/
theorem vex3_fields1 (r x b : Bool) (v1 : Byte)
    (hv : v1 = BitVec.ofBool (!r) ++ BitVec.ofBool (!x) ++ BitVec.ofBool (!b) ++ 1#5) :
    v1.getLsbD 7 = !r ∧ v1.getLsbD 6 = !x ∧ v1.getLsbD 5 = !b ∧ v1.extractLsb' 0 5 = 1#5 ∧
      v1.extractLsb' 6 2 = BitVec.ofBool (!r) ++ BitVec.ofBool (!x) := by
  subst hv; revert r x b; decide

/-- The fields of the second byte after `C4` (R55). -/
theorem vex3_fields2 (w l : Bool) (v : BitVec 4) (v2 : Byte)
    (hv : v2 = BitVec.ofBool w ++ ~~~ v ++ BitVec.ofBool l ++ 1#2) :
    v2.getLsbD 7 = w ∧ vexVvvv v2 = v ∧ v2.getLsbD 2 = l ∧ v2.extractLsb' 0 2 = 1#2 := by
  subst hv; revert w l v; decide

/-- In Mode32 a byte after `C4` or `C5` whose bits 7:6 are set is part of VEX (R55). -/
theorem vexAllowed_of_bits (m : Mode) (v1 : Byte) (a b : Bool)
    (hv : v1.extractLsb' 6 2 = BitVec.ofBool (!a) ++ BitVec.ofBool (!b))
    (h : (m == .mode64 || (!a && !b)) = true) : vexAllowed m v1 = true := by
  cases m
  · rfl
  · simp only [vexAllowed, hv]
    clear hv
    revert a b; decide

theorem rex_none_of_not_bad (pfx : List Pfx) (rex : Option Rex) (h : badVexPfx pfx rex = false) : rex = none := by
  simp only [badVexPfx, Bool.or_eq_false_iff] at h
  obtain ⟨⟨⟨⟨hrex, -⟩, -⟩, -⟩, -⟩ := h
  simpa using hrex

/-- In a well-formed VEX encoding decoding goes on at the opcode, with the fields of the VEX bytes. -/
theorem decode_vexBytes (m : Mode) (e : VexEnc) (v : BitVec 4) (l : Bool) (op : Op) (bs : List Byte)
    (h : e.wf m v = true) : decode m (e.bytes v l op ++ bs) = decodeVexOp m e v l (op.byte :: bs) := by
  obtain ⟨pfx, rex, three, r, x, b, w⟩ := e
  simp only [VexEnc.wf, Bool.and_eq_true, Bool.not_eq_true'] at h
  obtain ⟨⟨hbad, hform⟩, hmode⟩ := h
  obtain rfl := rex_none_of_not_bad pfx rex hbad
  cases three with
  | false =>
    simp only [Bool.false_or, Bool.and_eq_true, Bool.not_eq_true'] at hform
    obtain ⟨⟨rfl, rfl⟩, rfl⟩ := hform
    obtain ⟨hr, hv, hl, hpp, htop⟩ := vex2_fields r l v _ rfl
    have hallow := vexAllowed_of_bits m _ _ _ htop (by simpa using hmode)
    have hfront := decode_front m pfx none 0xC5#8
      ((BitVec.ofBool (!r) ++ ~~~ v ++ BitVec.ofBool l ++ 1#2) :: op.byte :: bs) rfl (by decide) (by decide)
    simp only [VexEnc.bytes, List.append_assoc, List.cons_append, List.nil_append, Bool.false_eq_true, if_false]
    rw [hfront]
    simp [decodeOpcode, decodeVex2, -BitVec.getLsbD_eq_getElem, hallow, hpp, hbad, hr, hv, hl]
  | true =>
    obtain ⟨hr, hx, hb, hmap, htop⟩ := vex3_fields1 r x b _ rfl
    obtain ⟨hw, hv, hl, hpp⟩ := vex3_fields2 w l v _ rfl
    have hallow := vexAllowed_of_bits m _ _ _ htop (by simpa using hmode)
    have hfront := decode_front m pfx none 0xC4#8
      ((BitVec.ofBool (!r) ++ BitVec.ofBool (!x) ++ BitVec.ofBool (!b) ++ 1#5) ::
        (BitVec.ofBool w ++ ~~~ v ++ BitVec.ofBool l ++ 1#2) :: op.byte :: bs) rfl (by decide) (by decide)
    simp only [VexEnc.bytes, List.append_assoc, List.cons_append, List.nil_append, if_true]
    rw [hfront]
    simp [decodeOpcode, decodeVex3, -BitVec.getLsbD_eq_getElem, hallow, hmap, hpp, hbad, hr, hx, hb, hw, hv, hl]

/-- Every well-formed instruction is what its encoding decodes to, whatever bytes follow: the front of the encoding gives
the row, ModRM and what follows give the operands. -/
theorem decode_encode (m : Mode) (i : Instr) (rest : List Byte) (h : i.wf m = true) :
    decode m (encode i ++ rest) = .instr i rest := by
  simp only [Instr.wf, Bool.and_eq_true] at h
  obtain ⟨-, hf⟩ := h
  cases i <;> simp only [Instr.fieldsWf, Bool.and_eq_true] at hf <;>
    simp only [encode, mmRmBytes_eq, xmmRmBytes_eq, List.append_assoc]
  case psrawMm e dst c | psradMm e dst c =>
    obtain ⟨he, hc⟩ := hf
    rw [decode_legacyBytes m false e _ _ he, decodeLegacyOp, opSize_of_wf m false e he]
    exact decodeRm_bytes m e.pfx e.x e.b id id _ dst c rest (rmOk_mm _ _ _ _ c hc)
  case psrawXmm e dst c | psradXmm e dst c =>
    obtain ⟨⟨he, hd⟩, hc⟩ := hf
    rw [decode_legacyBytes m true e _ _ he, decodeLegacyOp, opSize_of_wf m true e he, if_pos rfl]
    simp only [decodeRm_bytes m e.pfx e.x e.b (regNum e.b) regField _ (regField dst) c rest (rmOk_xmm _ _ _ _ c hc),
      regNum_regField e.r dst hd]
  case psrawMmImm e dst imm | psradMmImm e dst imm =>
    rw [decode_legacyBytes m false e _ _ hf, decodeLegacyOp, opSize_of_wf m false e hf]
    exact decodeImm_bytes m e.pfx e.x e.b _ dst imm rest
  case psrawXmmImm e dst imm | psradXmmImm e dst imm =>
    obtain ⟨he, hd⟩ := hf
    rw [decode_legacyBytes m true e _ _ he, decodeLegacyOp, opSize_of_wf m true e he, if_pos rfl]
    simp [decodeImm_bytes, regNum_regField e.b dst hd]
  case vpsrawXmm e dst src c | vpsrawYmm e dst src c | vpsradXmm e dst src c | vpsradYmm e dst src c =>
    obtain ⟨⟨he, hd⟩, hc⟩ := hf
    rw [decode_vexBytes m e _ _ _ _ he]
    simp only [decodeVexOp, op_ofByte_byte,
      decodeRm_bytes m e.pfx e.x e.b (regNum e.b) regField _ (regField dst) c rest (rmOk_xmm _ _ _ _ c hc),
      regNum_regField e.r dst hd]
  case vpsrawXmmImm e dst src imm | vpsrawYmmImm e dst src imm | vpsradXmmImm e dst src imm |
      vpsradYmmImm e dst src imm =>
    obtain ⟨he, hs⟩ := hf
    rw [decode_vexBytes m e _ _ _ _ he]
    simp [decodeVexOp, decodeImm_bytes, regNum_regField e.b src hs]

/-! ### Encoding what was decoded -/

/-- The operand that RM and RVM rows of an MMX row read is a well-formed one. -/
theorem mmRmWf_of_rmOk (m : Mode) (pfx : List Pfx) (x b : Bool) (c : MmRm) (h : rmOk m pfx x b id id c) :
    mmRmWf m pfx x b c = true := by
  cases c with
  | reg r => rfl
  | mem f => simpa [mmRmWf, rmOk] using h

/-- The operand that the other RM and RVM rows read is a well-formed one. -/
theorem xmmRmWf_of_rmOk (m : Mode) (pfx : List Pfx) (x b : Bool) (c : XmmRm) (h : rmOk m pfx x b (regNum b) regField c) :
    xmmRmWf m pfx x b c = true := by
  cases c with
  | reg r =>
    have h' : regNum b (regField r) = r := h
    rw [xmmRmWf, ← h']
    exact numOk_regNum b (regField r)
  | mem f => simpa [xmmRmWf, rmOk] using h

/-- What a legacy row decodes to after its opcode is that row's encoding from ModRM on, with well-formed fields. -/
theorem decodeLegacyOp_instr (m : Mode) (e : LegacyEnc) (op : Op) (bs rest : List Byte) (i : Instr)
    (he : e.wf m (e.pfx.contains .opSize) = true) (h : decodeLegacyOp m e op bs = .instr i rest) :
    e.bytes op ++ bs = encode i ++ rest ∧ i.fieldsWf m = true := by
  unfold decodeLegacyOp at h
  split at h
  · next hx =>
    rw [hx] at he
    cases op <;> simp only at h
    case e1 | e2 =>
      obtain ⟨reg, c, rfl, rfl, hc⟩ := decodeRm_instr _ _ _ _ _ regField _ _ _ _ (regField_regNum e.b) h
      simp [encode, xmmRmBytes_eq, Instr.fieldsWf, he, xmmRmWf_of_rmOk _ _ _ _ c hc]
    case o71 | o72 =>
      obtain ⟨rm, imm, rfl, rfl⟩ := decodeImm_instr _ _ _ _ _ _ _ _ h
      simp [encode, Instr.fieldsWf, he]
  · next hx =>
    rw [Bool.eq_false_iff.2 hx] at he
    cases op <;> simp only at h
    case e1 | e2 =>
      obtain ⟨reg, c, rfl, rfl, hc⟩ := decodeRm_instr _ _ _ _ _ id _ _ _ _ (fun _ => rfl) h
      simp [encode, mmRmBytes_eq, Instr.fieldsWf, he, mmRmWf_of_rmOk _ _ _ _ c hc]
    case o71 | o72 =>
      obtain ⟨rm, imm, rfl, rfl⟩ := decodeImm_instr _ _ _ _ _ _ _ _ h
      simp [encode, Instr.fieldsWf, he]

/-- What the bytes after `0F` decode to. -/
theorem decodeLegacy_instr (m : Mode) (e : LegacyEnc) (bs rest : List Byte) (i : Instr)
    (hm : (e.rex.isNone || m == .mode64) = true) (h : decodeLegacy m e bs = .instr i rest) :
    e.pfx.map Pfx.byte ++ (rexBytes e.rex ++ 0x0F#8 :: bs) = encode i ++ rest ∧ i.fieldsWf m = true := by
  cases bs with
  | nil => cases h
  | cons b bs =>
    simp only [decodeLegacy] at h
    cases hop : Op.ofByte b with
    | none => simp [hop] at h
    | some op =>
      simp only [hop] at h
      split at h
      · exact absurd h (lockUd_ne_instr _ i rest)
      next hlock =>
      split at h
      · cases h
      next hrep =>
      have he : e.wf m (e.pfx.contains .opSize) = true := by
        simp only [Bool.or_eq_true, not_or, Bool.not_eq_true] at hlock hrep
        simp only [LegacyEnc.wf, hm, hlock, hrep.1, hrep.2, beq_self_eq_true]
        decide
      rw [← (decodeLegacyOp_instr m e op bs rest i he h).1, LegacyEnc.bytes, op_byte_of_ofByte b op hop]
      exact ⟨by simp, (decodeLegacyOp_instr m e op bs rest i he h).2⟩

/-- What a VEX row decodes to after its VEX bytes is that row's encoding from the opcode on, with well-formed fields. -/
theorem decodeVexOp_instr (m : Mode) (e : VexEnc) (v : BitVec 4) (l : Bool) (bs rest : List Byte) (i : Instr)
    (he : e.wf m v = true) (h : decodeVexOp m e v l bs = .instr i rest) :
    ∃ op tail, bs = op.byte :: tail ∧ e.bytes v l op ++ tail = encode i ++ rest ∧ i.fieldsWf m = true := by
  cases bs with
  | nil => cases h
  | cons b bs =>
    simp only [decodeVexOp] at h
    cases hop : Op.ofByte b with
    | none => simp [hop] at h
    | some op =>
      refine ⟨op, bs, by rw [op_byte_of_ofByte b op hop], ?_⟩
      rw [hop] at h
      cases op <;> cases l <;> simp only at h
      case e1.false | e1.true | e2.false | e2.true =>
        obtain ⟨reg, c, rfl, rfl, hc⟩ := decodeRm_instr _ _ _ _ _ regField _ _ _ _ (regField_regNum e.b) h
        simp [encode, xmmRmBytes_eq, Instr.fieldsWf, he, xmmRmWf_of_rmOk _ _ _ _ c hc]
      case o71.false | o71.true | o72.false | o72.true =>
        obtain ⟨rm, imm, rfl, rfl⟩ := decodeImm_instr _ _ _ _ _ _ _ _ h
        simp [encode, Instr.fieldsWf, he]

/-- The byte after `C5` is its fields (R55), and in Mode32 its two top bits are those that R55 asks for. -/
theorem vex2_byte (v1 : Byte) (h : v1.extractLsb' 0 2 = 1#2) :
    v1 = BitVec.ofBool (!!v1.getLsbD 7) ++ ~~~ vexVvvv v1 ++ BitVec.ofBool (v1.getLsbD 2) ++ 1#2 ∧
      ((v1.extractLsb' 6 2 == 3#2) = true → (v1.getLsbD 7 && !(vexVvvv v1).msb) = true) := by
  revert v1; decide

/-- The first byte after `C4` is its fields (R55), and in Mode32 its two top bits are those that R55 asks for. -/
theorem vex3_byte1 (v1 : Byte) (h : v1.extractLsb' 0 5 = 1#5) :
    v1 = BitVec.ofBool (!!v1.getLsbD 7) ++ BitVec.ofBool (!!v1.getLsbD 6) ++ BitVec.ofBool (!!v1.getLsbD 5) ++ 1#5 ∧
      ((v1.extractLsb' 6 2 == 3#2) = true → (v1.getLsbD 7 && v1.getLsbD 6) = true) := by
  revert v1; decide

/-- The second byte after `C4` is its fields (R55). -/
theorem vex3_byte2 (v2 : Byte) (h : v2.extractLsb' 0 2 = 1#2) :
    v2 = BitVec.ofBool (v2.getLsbD 7) ++ ~~~ vexVvvv v2 ++ BitVec.ofBool (v2.getLsbD 2) ++ 1#2 := by
  revert v2; decide

/-- A VEX row decodes to an instruction only with nothing in front that R71 forbids. -/
theorem orUd_unless_instr (bad : Bool) (d : Decoded) (i : Instr) (rest : List Byte)
    (h : (if bad then d.orUd else d) = .instr i rest) : bad = false ∧ d = .instr i rest := by
  cases bad with
  | true => exact absurd h (orUd_ne_instr d i rest)
  | false => exact ⟨rfl, h⟩

/-- What the bytes after `C5` decode to. -/
theorem decodeVex2_instr (m : Mode) (pfx : List Pfx) (rex : Option Rex) (bs rest : List Byte) (i : Instr)
    (h : decodeVex2 m pfx rex bs = .instr i rest) :
    pfx.map Pfx.byte ++ (rexBytes rex ++ 0xC5#8 :: bs) = encode i ++ rest ∧ i.fieldsWf m = true := by
  cases bs with
  | nil => cases h
  | cons v1 bs =>
    simp only [decodeVex2] at h
    split at h
    · cases h
    next hallow =>
    obtain ⟨hbad, h⟩ := orUd_unless_instr _ _ i rest h
    split at h
    · next hpp =>
      obtain ⟨hbyte, htop⟩ := vex2_byte v1 hpp
      have he : VexEnc.wf m (vexVvvv v1) ⟨pfx, rex, false, !v1.getLsbD 7, false, false, false⟩ = true := by
        cases m with
        | mode64 => simp [VexEnc.wf, hbad]
        | mode32 =>
          have ht := htop (by simpa [vexAllowed] using hallow)
          simpa [VexEnc.wf, hbad, -BitVec.getLsbD_eq_getElem] using ht
      obtain ⟨op, tail, rfl, hb, hf⟩ := decodeVexOp_instr m _ _ _ bs rest i he h
      refine ⟨?_, hf⟩
      rw [← hb]
      simp only [VexEnc.bytes, Bool.false_eq_true, if_false, ← hbyte]
      simp
    · cases h

/-- What the bytes after `C4` decode to. -/
theorem decodeVex3_instr (m : Mode) (pfx : List Pfx) (rex : Option Rex) (bs rest : List Byte) (i : Instr)
    (h : decodeVex3 m pfx rex bs = .instr i rest) :
    pfx.map Pfx.byte ++ (rexBytes rex ++ 0xC4#8 :: bs) = encode i ++ rest ∧ i.fieldsWf m = true := by
  rcases bs with _ | ⟨v1, _ | ⟨v2, bs⟩⟩
  · cases h
  · simp only [decodeVex3] at h
    split at h <;> cases h
  · simp only [decodeVex3] at h
    split at h
    · cases h
    next hallow =>
    obtain ⟨hbad, h⟩ := orUd_unless_instr _ _ i rest h
    split at h
    · next hpp =>
      obtain ⟨hbyte1, htop⟩ := vex3_byte1 v1 hpp.1
      have he : VexEnc.wf m (vexVvvv v2)
          ⟨pfx, rex, true, !v1.getLsbD 7, !v1.getLsbD 6, !v1.getLsbD 5, v2.getLsbD 7⟩ = true := by
        cases m with
        | mode64 => simp [VexEnc.wf, hbad]
        | mode32 =>
          have ht := htop (by simpa [vexAllowed] using hallow)
          simpa [VexEnc.wf, hbad, -BitVec.getLsbD_eq_getElem] using ht
      obtain ⟨op, tail, rfl, hb, hf⟩ := decodeVexOp_instr m _ _ _ bs rest i he h
      refine ⟨?_, hf⟩
      rw [← hb]
      simp only [VexEnc.bytes, if_true, ← hbyte1, ← vex3_byte2 v2 hpp.2]
      simp
    · cases h

/-- Whatever decodes to an instruction is that instruction's encoding, and its fields are well-formed. -/
theorem decode_instr (m : Mode) (bs rest : List Byte) (i : Instr) (h : decode m bs = .instr i rest) :
    bs = encode i ++ rest ∧ i.fieldsWf m = true := by
  have hpfx := takePfx_eq bs
  obtain ⟨hrex, hm⟩ := takeRex_eq m (takePfx bs).2
  simp only [decode] at h
  generalize takeRex m (takePfx bs).2 = r at h hrex hm
  generalize takePfx bs = p at h hrex hpfx
  rw [hpfx, hrex]
  obtain ⟨rex, _ | ⟨b, tail⟩⟩ := r
  · cases h
  · simp only [decodeOpcode] at h
    split at h
    · next hb => subst hb; exact decodeLegacy_instr m ⟨p.1, rex⟩ tail rest i hm h
    split at h
    · next hb => subst hb; exact decodeVex2_instr m p.1 rex tail rest i h
    split at h
    · next hb => subst hb; exact decodeVex3_instr m p.1 rex tail rest i h
    split at h <;> cases h

end Sys2Proof
end

section
/-! What a next state keeps and which register files it writes (10_state.md R10 to R22), read off `ExecNext`, and how the
step and its pc depend on the bytes at pc (R15). -/

namespace Sys2Proof.Machine

/-! ### Next states -/

/-- What a next state keeps whatever the row: all of `SameSystem`, and the memory list itself; and where pc is. -/
theorem ExecNext.frame {i : Instr} {s t : State} (h : ExecNext i s t) :
    SameSystem s t ∧ t.mem = s.mem ∧ t.pc = BitVec.ofNat 64 (s.ip + i.len) := by
  obtain ⟨-, -, l, ⟨-, d, x, -, rfl⟩ | ⟨-, d, x, -, rfl⟩ | ⟨-, d, x, -, rfl⟩ | ⟨-, d, x, -, rfl⟩⟩ := h
  all_goals exact ⟨⟨rfl, rfl, rfl, rfl, rfl, rfl, rfl, rfl, rfl, fun _ => rfl⟩, rfl, rfl⟩

theorem ExecNext.advanced {i : Instr} {s t : State} (h : ExecNext i s t) : Advanced s t i := by
  obtain ⟨-, -, hpc⟩ := h.frame
  rw [Advanced, hpc, toNat_next_pc s i h.room]

/-- An instruction of any form keeps the invariant: it writes no memory, and pc stays below the top of the mode. -/
theorem ExecNext.inv {i : Instr} {s t : State} (h : ExecNext i s t) (hs : s.Inv) : t.Inv := by
  obtain ⟨hwf, -⟩ := hs
  obtain ⟨hsys, hmem, -⟩ := h.frame
  have hpc : t.pc.toNat = s.ip + i.len := h.advanced
  refine ⟨hmem ▸ hwf, ?_⟩
  rw [hpc, hsys.mode]
  exact h.room

/-- Settles O59: a next state is an `ExecNext` of the decoded instruction, which keeps the invariant. -/
theorem stepKeepsInvariant : Obligations.StepKeepsInvariant := by
  intro s t hs h
  obtain ⟨i, rest, -, hi⟩ := step_next s t h
  exact (exec_next i s t hi).inv hs

/-! ### Which registers -/

theorem ExecNext.mmxRow {i : Instr} {s t : State} (h : ExecNext i s t) (hc : i.row.cls = .mmx) :
    ∃ d, mmDst i = some d ∧ t.v = s.v ∧ X87Marked s.x87 t.x87 d ∧ ∀ r, r ≠ d → t.mmAt r = s.mmAt r := by
  obtain ⟨-, -, l, ⟨-, d, x, hd, rfl⟩ | ⟨hc', -⟩ | ⟨hc', -⟩ | ⟨hc', -⟩⟩ := h
  · exact ⟨d, hd, rfl, afterMmx_marked s.x87 d, fun r hr => mmAt_setMm_other s d r x hr⟩
  all_goals simp [hc] at hc'

/-- A row that is no MMX row writes one vector register, by the rule of its class (R13). -/
theorem ExecNext.vecRow {i : Instr} {s t : State} (h : ExecNext i s t) (hc : i.row.cls ≠ .mmx) :
    ∃ (d : BitVec 4) (y : YmmWord) (l : List DeviceRead), vecDst i = some d ∧ t = (s.setYmm d y).moved i l ∧
      (i.row.cls = .sse2 → ∀ b, 128 ≤ b → y.getLsbD b = (s.ymmAt d).getLsbD b) ∧
      (i.row.cls = .vex128 → ∀ b, 128 ≤ b → y.getLsbD b = false) := by
  obtain ⟨-, -, l, ⟨hc', -⟩ | ⟨hc', d, x, hd, ht⟩ | ⟨hc', d, x, hd, ht⟩ | ⟨hc', d, x, hd, ht⟩⟩ := h
  · exact absurd hc' hc
  · exact ⟨d, _, l, hd, ht, fun _ => getLsbD_keep _ x, fun h => by simp [hc'] at h⟩
  · exact ⟨d, _, l, hd, ht, fun h => by simp [hc'] at h, fun _ => getLsbD_zero x⟩
  · exact ⟨d, x, l, hd, ht, fun h => by simp [hc'] at h, fun h => by simp [hc'] at h⟩

theorem moved_ymmAt (s : State) (i : Instr) (l : List DeviceRead) (r : BitVec 4) :
    (s.moved i l).ymmAt r = s.ymmAt r := rfl

theorem onlyVec_setYmm (s : State) (i : Instr) (l : List DeviceRead) (d : BitVec 4) (y : YmmWord) :
    OnlyVec s ((s.setYmm d y).moved i l) d :=
  ⟨fun j hj => ymm_setYmm_other s d y j hj, rfl, rfl⟩

/-- Settles O54, class by class: an MMX row writes by `setMm`, every other row by `setYmm`. -/
theorem registerFilesAreSeparate : Obligations.RegisterFilesAreSeparate := by
  intro i s t h
  have hn := exec_next i s t h
  refine ⟨hn.mmxRow, fun hc => ?_⟩
  obtain ⟨d, y, l, hd, rfl, hkeep, hzero⟩ := hn.vecRow hc
  refine ⟨d, hd, onlyVec_setYmm s i l d y, ?_, ?_⟩
  all_goals rw [moved_ymmAt, ymmAt_setYmm]; assumption

/-! ### The step by what the window decodes to -/

theorem step_instr (s : State) (i : Instr) (rest : List Byte) (h : decode s.mode s.window = .instr i rest) :
    step s = exec i s := by
  simp [step, State.fetched, h]

/-- Settles O4, one outcome of `decode` at a time. -/
theorem stepRunsDecodedInstruction : Obligations.StepRunsDecodedInstruction := by
  intro s
  refine ⟨step_instr s, fun h => ?_, fun r h => ?_, fun h => ?_⟩
  · simp [step, State.fetched, h]
  · simp [step, State.fetched, h]
  · simp only [step, State.fetched, h, maxLen]
    by_cases h15 : s.window.length = 15
    · simp [h15]
    · by_cases htop : s.ip + s.window.length < pcTop s.mode <;> simp [h15, htop]

/-! ### When a step is refused at the top -/

/-- A read that stops ends the step in a fault, never in a next state or a refusal. -/
theorem memRead_error (s : State) (a : Access) (n : Nat) (al : AlignRule) (r : Result)
    (h : s.memRead a n al = .error r) : ∃ f, r = .fault f := by
  unfold State.memRead at h
  split at h
  · cases h; exact ⟨_, rfl⟩
  split at h
  · cases h; exact ⟨_, rfl⟩
  split at h
  · cases h; exact ⟨_, rfl⟩
  split at h
  · cases h; exact ⟨_, rfl⟩
  split at h <;> cases h
  exact ⟨_, rfl⟩

/-- `Precheck` refuses by the encoding alone, so a refused wrap comes from the instruction itself. -/
theorem checked_wraps (s : State) (i : Instr) (k : Result) (h : s.checked i k = .refused .pcWraps) :
    k = .refused .pcWraps := by
  unfold State.checked at h
  split at h
  · cases h
  · split at h
    · cases h
    · exact h

theorem withMem_wraps (s : State) (i : Instr) (f : MemForm) (n : Nat) (al : AlignRule)
    (k : List Byte → State → Result) (h : s.withMem i f n al k = .refused .pcWraps) :
    ∃ bs, k bs (s.noteRead (s.access i f) n) = .refused .pcWraps := by
  unfold State.withMem at h
  split at h
  · cases h
  · split at h
    · exact ⟨_, h⟩
    · next r hr =>
      obtain ⟨f, rfl⟩ := memRead_error s _ n al r hr
      cases h

/-- Completion is the only place of an instruction that refuses a wrap. -/
theorem exec_wraps (s : State) (i : Instr) (h : exec i s = .refused .pcWraps) : pcTop s.mode ≤ s.ip + i.len := by
  rw [exec_checked] at h
  have hb := checked_wraps s i _ h
  cases hm : memOperand i with
  | none =>
    obtain ⟨u, hu, hip, hmode⟩ := body_noMem s i hm
    rw [hu, complete_wraps] at hb
    rwa [← hip, ← hmode]
  | some f =>
    obtain ⟨k, hk, hu⟩ := body_mem s i f hm
    rw [hk] at hb
    obtain ⟨bs, hw⟩ := withMem_wraps s i f _ _ k hb
    obtain ⟨u, hu, hip, hmode⟩ := hu bs (s.noteRead (s.access i f) (memBytes i))
    rw [hu, complete_wraps, hip, hmode] at hw
    simpa using hw

theorem alignRule_eq_sse16 (i : Instr) : alignRule i = .sse16 ↔ i.row.cls = .sse2 := by
  unfold alignRule
  cases i.row.cls <;> simp

theorem alignRule_eq_mmx8 (i : Instr) : alignRule i = .mmx8 ↔ i.row.cls = .mmx := by
  unfold alignRule
  cases i.row.cls <;> simp

theorem load_present (s : State) (a : Access) (n : Nat) (h : ∀ k < n, (s.byteAt (s.byteAddr a k)).isSome = true) :
    ∃ bs, s.load a 0 n = .ok bs := by
  choose! g hg using fun k hk => Option.isSome_iff_exists.1 (h k hk)
  exact ⟨_, load_ok s a n 0 g fun j _ hj => hg j (by omega)⟩

/-- A memory operand that passes every check is read, by the alignment rule of its class. -/
theorem withMem_readable (s : State) (i : Instr) (f : MemForm) (k : List Byte → State → Result)
    (hwf : i.wf s.mode = true) (hf : memOperand i = some f) (hr : OperandReadable s i) :
    ∃ bs, s.withMem i f (memBytes i) (alignRule i) k = k bs (s.noteRead (s.access i f) (memBytes i)) := by
  obtain ⟨⟨hin, hadm, hpres⟩, h16, h8⟩ := hr f hf
  have hread := memRead_passes s (s.access i f) (memBytes i) (alignRule i)
    (fun k hk => (segOk_iff s _ _).2 (hin k hk)) (fun h => h16 ((alignRule_eq_sse16 i).1 h))
    (fun k hk => (pageFault_eq_none s _).2 (hadm k hk)) (fun h => h8 ((alignRule_eq_mmx8 i).1 h))
  obtain ⟨bs, hload⟩ := load_present s _ _ hpres
  rw [hload] at hread
  exact ⟨bs, by rw [State.withMem, wf_not_addr16 s.mode i f hwf hf, hread]; rfl⟩

/-- A well-formed instruction whose checks pass reaches completion, which refuses the wrap. -/
theorem exec_refuses_wrap (s : State) (i : Instr) (hwf : i.wf s.mode = true) (hp : PrecheckPasses s i)
    (hr : OperandReadable s i) (htop : pcTop s.mode ≤ s.ip + i.len) : exec i s = .refused .pcWraps := by
  rw [exec_checked, checked_passes s i _ (wf_not_reserved s.mode i hwf) hp]
  cases hm : memOperand i with
  | none =>
    obtain ⟨u, hu, hip, hmode⟩ := body_noMem s i hm
    rw [hu, complete_wraps]
    rwa [hip, hmode]
  | some f =>
    obtain ⟨k, hk, hu⟩ := body_mem s i f hm
    obtain ⟨bs, hw⟩ := withMem_readable s i f k hwf hm hr
    obtain ⟨u, hu, hip, hmode⟩ := hu bs (s.noteRead (s.access i f) (memBytes i))
    rw [hk, hw, hu, complete_wraps, hip, hmode]
    simpa using htop

/-! ### The step and the encoding -/

/-- Settles O5: the window begins with the encoding, which decodes to the instruction. -/
theorem stepRunsEncodedInstruction : Obligations.StepRunsEncodedInstruction := by
  intro s i hwf htop hcode
  have hlen : (encode i).length = i.len := Laws.EncodeLength.all i
  obtain ⟨rest, hw⟩ := codeBytes_take s (encode i) s.ip maxLen (hlen ▸ wf_len s.mode i hwf) (hlen ▸ htop) (hlen ▸ hcode)
  exact step_instr s i rest (by rw [State.window, hw]; exact decode_encode s.mode i rest hwf)

/-- An instruction that the window decodes to lies in the window, so it has at most 15 bytes. -/
theorem len_le_of_window (s : State) (i : Instr) (rest : List Byte) (h : decode s.mode s.window = .instr i rest) :
    i.len ≤ 15 := by
  have hw : s.window.length ≤ 15 := codeBytes_length s s.ip maxLen
  have hlen : (encode i).length = i.len := Laws.EncodeLength.all i
  rw [(decode_instr s.mode s.window rest i h).1, List.length_append] at hw
  omega

/-- Settles O6: `ExecNext` has the new pc, and completion is the one refusal of a wrap. -/
theorem stepMovesPcPastInstruction : Obligations.StepMovesPcPastInstruction := by
  refine ⟨fun s t h => ?_, exec_refuses_wrap, exec_wraps⟩
  obtain ⟨i, rest, hd, hi⟩ := step_next s t h
  exact ⟨i, rest, hd, three_le_len i, len_le_of_window s i rest hd, (exec_next i s t hi).advanced⟩

end Sys2Proof.Machine
end

section
/-! What an instruction does not read (10_state.md R11 to R17): two states that read the same run side by side, and every
relation between them that the writes keep holds of the outcomes. -/

namespace Sys2Proof.Machine

/-! ### Two runs side by side -/

/-- Two outcomes of the same kind: next states related by `R`, the same fault, or the same refusal. -/
def Matches (R : State → State → Prop) : Result → Result → Prop
  | .next t, .next t' => R t t'
  | .fault r, .fault r' => r' = r
  | .refused r, .refused r' => r' = r
  | _, _ => False

/-- `s'` differs from `s` at most in registers and flags that an instruction reads through `ymmAt`, `gprAt` and
`alignCheck`, or not at all, and those three read the same. -/
structure SameReads (s s' : State) : Prop where
  fields : s' = { s with v := s'.v, gpr := s'.gpr, rflags := s'.rflags, mxcsr := s'.mxcsr }
  ymm    : ∀ r, s'.ymmAt r = s.ymmAt r
  gpr    : ∀ r, s'.gprAt r = s.gprAt r
  ac     : s'.alignCheck = s.alignCheck

/-- A relation between states that every write of an instruction keeps when both states do it, and under which pc and the
mode are equal. -/
structure KeptByWrites (R : State → State → Prop) : Prop where
  mode  : ∀ {t t'}, R t t' → t'.mode = t.mode
  pc    : ∀ {t t'}, R t t' → t'.pc = t.pc
  setMm : ∀ {t t'} d x, R t t' →
    R { t.setMm d x with x87 := (t.setMm d x).x87.afterMmx } { t'.setMm d x with x87 := (t'.setMm d x).x87.afterMmx }
  setYmm : ∀ {t t'} d x, R t t' → R (t.setYmm d x) (t'.setYmm d x)
  setPc  : ∀ {t t'} p, R t t' → R { t with pc := p } { t' with pc := p }
  noted  : ∀ {t t'} l, R t t' → R { t with deviceReads := l } { t' with deviceReads := l }

section
variable {R : State → State → Prop} {s s' : State}

/-! What both states read is the same. -/

theorem SameReads.mmAt (h : SameReads s s') (r : BitVec 3) : s'.mmAt r = s.mmAt r := by
  rw [h.fields]; rfl

theorem SameReads.xmmAt (h : SameReads s s') (r : BitVec 4) : s'.xmmAt r = s.xmmAt r := by
  rw [State.xmmAt, h.ymm]; rfl

theorem SameReads.mode (h : SameReads s s') : s'.mode = s.mode := by rw [h.fields]

theorem SameReads.precheck (h : SameReads s s') (i : Instr) : s'.precheck i = s.precheck i := by
  rw [h.fields]; rfl

theorem SameReads.indexValue (h : SameReads s s') (r : BitVec 4) : s'.indexValue r = s.indexValue r := by
  simp only [State.indexValue, h.gpr]

theorem SameReads.ea64 (h : SameReads s s') (n : Nat) (f : MemForm) : s'.ea64 n f = s.ea64 n f := by
  have hpc : s'.pc = s.pc := by rw [h.fields]
  cases f <;> simp only [State.ea64, h.gpr, h.indexValue, h.mode, hpc]

theorem SameReads.access (h : SameReads s s') (i : Instr) (f : MemForm) : s'.access i f = s.access i f := by
  simp only [State.access, h.mode, h.ea64]

theorem SameReads.segOk (h : SameReads s s') (g : SegSel) (off : Addr) : s'.segOk g off = s.segOk g off := by
  rw [h.fields]; rfl

theorem SameReads.byteAddr (h : SameReads s s') (a : Access) (k : Nat) : s'.byteAddr a k = s.byteAddr a k := by
  rw [h.fields]; rfl

theorem SameReads.failing (h : SameReads s s') (a : Access) (n : Nat) : s'.failing a n = s.failing a n := by
  rw [h.fields]; rfl

theorem SameReads.isDevice (h : SameReads s s') (a : Addr) : s'.isDevice a = s.isDevice a := by
  rw [h.fields]; rfl

theorem SameReads.byteAt (h : SameReads s s') (a : Addr) : s'.byteAt a = s.byteAt a := by
  rw [h.fields]; rfl

theorem SameReads.load (h : SameReads s s') (a : Access) (k n : Nat) : s'.load a k n = s.load a k n := by
  induction n generalizing k with
  | zero => rfl
  | succ n ih => simp only [State.load, h.byteAt, h.byteAddr, ih]

theorem SameReads.memRead (h : SameReads s s') (a : Access) (n : Nat) (al : AlignRule) :
    s'.memRead a n al = s.memRead a n al := by
  simp only [State.memRead, h.segOk, h.byteAddr, h.failing, h.ac, h.load]

/-- Both states record the same device reads. -/
theorem SameReads.noteRead (h : SameReads s s') (a : Access) (n : Nat) :
    ∃ l, s.noteRead a n = { s with deviceReads := l } ∧ s'.noteRead a n = { s' with deviceReads := l } := by
  have hl : s'.deviceReads = s.deviceReads := by rw [h.fields]
  simp only [State.noteRead, h.isDevice, h.byteAddr]
  split
  · exact ⟨_, rfl, by rw [hl]⟩
  · exact ⟨_, rfl, by rw [← hl]⟩

/-! Each operation keeps two runs side by side. -/

theorem SameReads.checked (h : SameReads s s') (i : Instr) (k k' : Result) (hk : Matches R k k') :
    Matches R (s.checked i k) (s'.checked i k') := by
  unfold State.checked
  rw [h.precheck]
  split
  · rfl
  · split
    · rfl
    · exact hk

theorem SameReads.withMem (h : SameReads s s') (i : Instr) (f : MemForm) (n : Nat) (al : AlignRule)
    (k k' : List Byte → State → Result)
    (hk : ∀ bs l, Matches R (k bs { s with deviceReads := l }) (k' bs { s' with deviceReads := l })) :
    Matches R (s.withMem i f n al k) (s'.withMem i f n al k') := by
  unfold State.withMem
  rw [h.mode, h.access, h.memRead]
  split
  · rfl
  · split
    · next bs _ =>
      obtain ⟨l, hl, hl'⟩ := h.noteRead (s.access i f) n
      rw [hl, hl']
      exact hk bs l
    · next r hr =>
      obtain ⟨e, rfl⟩ := memRead_error s _ n al r hr
      rfl

theorem SameReads.sameDeviceReads (h : SameReads s s') : { s' with deviceReads := s.deviceReads } = s' := by
  have hl : s'.deviceReads = s.deviceReads := by rw [h.fields]
  rw [← hl]

theorem SameReads.withCountMm (h : SameReads s s') (i : Instr) (c : MmRm) (k k' : Nat → State → Result)
    (hk : ∀ n l, Matches R (k n { s with deviceReads := l }) (k' n { s' with deviceReads := l })) :
    Matches R (s.withCountMm i c k) (s'.withCountMm i c k') := by
  cases c with
  | reg r =>
    have hr := hk (s.mmAt r).toNat s.deviceReads
    rw [h.sameDeviceReads] at hr
    simpa only [State.withCountMm, h.mmAt] using hr
  | mem f => exact h.withMem i f 8 .mmx8 _ _ fun bs l => hk _ l

theorem SameReads.withCountXmm (h : SameReads s s') (i : Instr) (al : AlignRule) (c : XmmRm)
    (k k' : Nat → State → Result)
    (hk : ∀ n l, Matches R (k n { s with deviceReads := l }) (k' n { s' with deviceReads := l })) :
    Matches R (s.withCountXmm i al c k) (s'.withCountXmm i al c k') := by
  cases c with
  | reg r =>
    have hr := hk ((s.xmmAt r).extractLsb' 0 64).toNat s.deviceReads
    rw [h.sameDeviceReads] at hr
    simpa only [State.withCountXmm, h.xmmAt] using hr
  | mem f => exact h.withMem i f 16 al _ _ fun bs l => hk _ l

theorem KeptByWrites.complete (hR : KeptByWrites R) (i : Instr) (h : R s s') :
    Matches R (s.complete i) (s'.complete i) := by
  have hmode := hR.mode h
  have hip : s'.ip = s.ip := by rw [State.ip, hR.pc h, hmode, ← State.ip]
  by_cases hw : NoWrap s i
  · have hw' : NoWrap s' i := by rwa [NoWrap, hip, hmode]
    rw [complete_next s i hw, complete_next s' i hw', hip]
    exact hR.setPc _ h
  · have htop : pcTop s.mode ≤ s.ip + i.len := Nat.le_of_not_lt hw
    rw [(complete_wraps s i).2 htop, (complete_wraps s' i).2 (by rwa [hip, hmode])]
    rfl

end

/-- Two runs of an instruction: from states that read the same and are related, the outcomes match. -/
theorem exec_matches {R : State → State → Prop} (hR : KeptByWrites R) (i : Instr) {s s' : State} (hs : SameReads s s')
    (h : R s s') : Matches R (exec i s) (exec i s') := by
  rw [exec_checked, exec_checked]
  refine hs.checked i _ _ ?_
  cases i <;> simp only [State.body, setXmmKeep_eq, setXmmZero_eq, hs.mmAt, hs.xmmAt, hs.ymm]
  case psrawMm | psradMm =>
    exact hs.withCountMm _ _ _ _ fun n l => hR.complete _ (hR.setMm _ _ (hR.noted l h))
  case psrawMmImm | psradMmImm => exact hR.complete _ (hR.setMm _ _ h)
  case psrawXmm e d _ | psradXmm e d _ =>
    refine hs.withCountXmm _ _ _ _ _ fun n l => ?_
    exact hs.ymm d ▸ hR.complete _ (hR.setYmm _ _ (hR.noted l h))
  case vpsrawXmm | vpsrawYmm | vpsradXmm | vpsradYmm =>
    exact hs.withCountXmm _ _ _ _ _ fun n l => hR.complete _ (hR.setYmm _ _ (hR.noted l h))
  all_goals exact hR.complete _ (hR.setYmm _ _ h)

/-! ### RFLAGS and MXCSR -/

/-- The second state is the first with these flags and this MXCSR. -/
def WithFlags (fl : BitVec 64) (mx : BitVec 32) (t t' : State) : Prop := t' = { t with rflags := fl, mxcsr := mx }

theorem withFlags_kept (fl : BitVec 64) (mx : BitVec 32) : KeptByWrites (WithFlags fl mx) where
  mode := by rintro t _ rfl; rfl
  pc := by rintro t _ rfl; rfl
  setMm := by rintro t _ d x rfl; rfl
  setYmm := by rintro t _ d x rfl; rfl
  setPc := by rintro t _ p rfl; rfl
  noted := by rintro t _ l rfl; rfl

theorem withFlags_sameReads (s : State) (fl : BitVec 64) (mx : BitVec 32)
    (h : fl.getLsbD 18 = s.rflags.getLsbD 18) : SameReads s { s with rflags := fl, mxcsr := mx } where
  fields := rfl
  ymm _ := rfl
  gpr _ := rfl
  ac := by simp only [State.alignCheck, h]

/-- Settles O56: two runs side by side, the relation being that the flags and MXCSR are the new ones. -/
theorem flagsAndMxcsrAreNeverRead : Obligations.FlagsAndMxcsrAreNeverRead := by
  intro i s fl mx h
  have hm := exec_matches (withFlags_kept fl mx) i (withFlags_sameReads s fl mx h) rfl
  revert hm
  cases exec i s <;> cases exec i { s with rflags := fl, mxcsr := mx } <;> simp [Matches, WithFlags]

/-! ### Registers 8 to 15 in Mode32 -/

/-- In Mode32, the second state is the first with these general registers and other vector registers, of which 0 to 7
are those of the first state and 8 to 15 those of `v`. -/
structure HighSwapped (v : Vector YmmWord 16) (gpr : Vector Addr 16) (t t' : State) : Prop where
  mode32 : t.mode = .mode32
  fields : t' = { t with v := t'.v, gpr := gpr }
  low    : ∀ j : BitVec 4, j.toNat < 8 → t'.v.get j.toFin = t.v.get j.toFin
  high   : ∀ j : BitVec 4, 8 ≤ j.toNat → t'.v.get j.toFin = v.get j.toFin

theorem effNum_mode32_lt (r : BitVec 4) : (effNum .mode32 r).toNat < 8 := by
  revert r; decide

/-- In Mode32 a write of a vector register leaves 8 to 15 alone (D24). -/
theorem setYmm_high (s : State) (hm : s.mode = .mode32) (d : BitVec 4) (x : YmmWord) (j : BitVec 4)
    (hj : 8 ≤ j.toNat) : (s.setYmm d x).v.get j.toFin = s.v.get j.toFin := by
  refine ymm_setYmm_other s d x j fun e => ?_
  have := effNum_mode32_lt d
  rw [e, hm] at hj
  omega

theorem HighSwapped.setYmm {v : Vector YmmWord 16} {gpr : Vector Addr 16} {t t' : State} (h : HighSwapped v gpr t t')
    (d : BitVec 4) (x : YmmWord) : HighSwapped v gpr (t.setYmm d x) (t'.setYmm d x) where
  mode32 := h.mode32
  fields := by rw [h.fields]; rfl
  low j hj := by
    have hm : t'.mode = t.mode := by rw [h.fields]
    by_cases he : j = effNum t.mode d
    · subst he
      have e : (t'.setYmm d x).ymmAt d = (t.setYmm d x).ymmAt d := by rw [ymmAt_setYmm, ymmAt_setYmm]
      simpa only [State.ymmAt, setYmm_mode, hm] using e
    · rw [ymm_setYmm_other t d x j he, ymm_setYmm_other t' d x j (hm ▸ he), h.low j hj]
  high j hj := by
    have hm : t'.mode = .mode32 := by rw [h.fields]; exact h.mode32
    rw [setYmm_high t' hm d x j hj, h.high j hj]

theorem highSwapped_kept (v : Vector YmmWord 16) (gpr : Vector Addr 16) : KeptByWrites (HighSwapped v gpr) where
  mode h := by rw [h.fields]
  pc h := by rw [h.fields]
  setMm d x h := ⟨h.mode32, by rw [h.fields]; rfl, h.low, h.high⟩
  setYmm d x h := h.setYmm d x
  setPc p h := ⟨h.mode32, by rw [h.fields], h.low, h.high⟩
  noted l h := ⟨h.mode32, by rw [h.fields], h.low, h.high⟩

/-- In Mode32 the register accessors see numbers 0 to 7 alone. -/
theorem HighSwapped.sameReads {v : Vector YmmWord 16} {gpr : Vector Addr 16} {s s' : State}
    (h : HighSwapped v gpr s s') (hg : ∀ j : BitVec 4, j.toNat < 8 → s'.gpr.get j.toFin = s.gpr.get j.toFin) :
    SameReads s s' := by
  have hm : s'.mode = .mode32 := by rw [h.fields]; exact h.mode32
  refine ⟨?_, fun r => ?_, fun r => ?_, ?_⟩
  · have hgpr : s'.gpr = gpr := by rw [h.fields]
    have hfl : s'.rflags = s.rflags := by rw [h.fields]
    have hmx : s'.mxcsr = s.mxcsr := by rw [h.fields]
    rw [hgpr, hfl, hmx]
    exact h.fields
  · simp only [State.ymmAt, hm, h.mode32]
    exact h.low _ (effNum_mode32_lt r)
  · simp only [State.gprAt, hm, h.mode32, hg _ (effNum_mode32_lt r)]
  · rw [h.fields]; rfl

/-- An instruction in Mode32 keeps the vector registers 8 to 15. -/
theorem ExecNext.high {i : Instr} {s t : State} (h : ExecNext i s t) (hm : s.mode = .mode32) (j : BitVec 4)
    (hj : 8 ≤ j.toNat) : t.v.get j.toFin = s.v.get j.toFin := by
  by_cases hc : i.row.cls = .mmx
  · obtain ⟨d, -, hv, -⟩ := h.mmxRow hc
    rw [hv]
  · obtain ⟨d, y, l, -, rfl, -⟩ := h.vecRow hc
    exact setYmm_high s hm d y j hj

/-- Settles O55: registers 8 to 15 are not written, and two runs that differ in them alone stay side by side. -/
theorem mode32HighRegistersUntouched : Obligations.Mode32HighRegistersUntouched := by
  intro i s hm
  refine ⟨fun t h j hj => (exec_next i s t h).high hm j hj, fun s' hv hg hs => ?_⟩
  have hR : HighSwapped s'.v s'.gpr s s' := ⟨hm, hs, hv, fun _ _ => rfl⟩
  have hx := exec_matches (highSwapped_kept s'.v s'.gpr) i (hR.sameReads hg) hR
  revert hx
  cases exec i s <;> cases exec i s' <;> simp only [Matches, false_implies]
  case next.next t t' => exact fun h => ⟨t', rfl, h.fields, h.low, h.high⟩
  all_goals rintro rfl; rfl

end Sys2Proof.Machine
end

section
/-! A prefix put into an encoding (20_memory.md R40, 30_encoding.md R71): decoding reads the same row and operands under the
new prefixes, so the instruction is whole, and LOCK makes it #UD. -/

namespace Sys2Proof

/-! ### Prefixes put into an encoding -/

/-- The bytes after the prefixes of an encoding begin with REX or the opcode, so no prefix is read from them. -/
theorem takePfx_rexBytes (rex : Option Rex) (b : Byte) (bs : List Byte) (hb : Pfx.ofByte b = none) :
    takePfx (rexBytes rex ++ b :: bs) = ([], rexBytes rex ++ b :: bs) := by
  cases rex with
  | none => exact takePfx_stop b bs hb
  | some r => exact takePfx_stop r.byte (b :: bs) (ofByte_rex r)

/-- `bs` is the bytes of the prefixes `ps`, and what follows them begins with no further prefix. -/
def PfxFront (ps : List Pfx) (bs : List Byte) : Prop :=
  ∃ t, bs = ps.map Pfx.byte ++ t ∧ ∀ rest, takePfx (t ++ rest) = ([], t ++ rest)

theorem pfxFront_legacyBytes (e : LegacyEnc) (op : Op) (bs : List Byte) : PfxFront e.pfx (e.bytes op ++ bs) := by
  refine ⟨rexBytes e.rex ++ 0x0F#8 :: op.byte :: bs, by simp [LegacyEnc.bytes], fun rest => ?_⟩
  simpa using takePfx_rexBytes e.rex 0x0F#8 (op.byte :: (bs ++ rest)) (by decide)

theorem pfxFront_vexBytes (e : VexEnc) (v : BitVec 4) (l : Bool) (op : Op) (bs : List Byte) :
    PfxFront e.pfx (e.bytes v l op ++ bs) := by
  obtain ⟨pfx, rex, three, r, x, b, w⟩ := e
  refine ⟨_, by rw [VexEnc.bytes, List.append_assoc], fun rest => ?_⟩
  cases three with
  | false => simpa using takePfx_rexBytes rex 0xC5#8 _ (by decide)
  | true => simpa using takePfx_rexBytes rex 0xC4#8 _ (by decide)

theorem pfxFront_encode (i : Instr) : PfxFront i.pfx (encode i) := by
  cases i
  case psrawMm | psrawXmm | psrawMmImm | psrawXmmImm | psradMm | psradXmm | psradMmImm | psradXmmImm =>
    exact pfxFront_legacyBytes ..
  all_goals exact pfxFront_vexBytes ..

/-- Where prefixes end, decoding goes on at REX. -/
theorem decode_afterPfx (m : Mode) (ps : List Pfx) (t : List Byte) (ht : takePfx t = ([], t)) :
    decode m (ps.map Pfx.byte ++ t) = decodeOpcode m ps (takeRex m t).1 (takeRex m t).2 := by
  simp [decode, takePfx_append, ht]

/-- A prefix put into a well-formed encoding changes the prefixes that decoding from the opcode on sees, and no other part of
what it sees. -/
theorem decode_insertPfx (m : Mode) (i : Instr) (p q : List Pfx) (x : Pfx) (rest : List Byte) (hwf : i.wf m = true)
    (hp : i.pfx = p ++ q) :
    ∃ rex bs, decodeOpcode m (p ++ q) rex bs = .instr i rest ∧
      decode m (p.map Pfx.byte ++ (x.byte :: ((encode i).drop p.length ++ rest))) =
        decodeOpcode m (p ++ x :: q) rex bs := by
  obtain ⟨t, henc, hstop⟩ := pfxFront_encode i
  have hdec := decode_encode m i rest hwf
  rw [henc, hp, List.append_assoc, decode_afterPfx m _ _ (hstop rest)] at hdec
  refine ⟨_, _, hdec, ?_⟩
  rw [← decode_afterPfx m _ _ (hstop rest), henc, hp]
  simp

/-! ### Decoding under other prefixes -/

/-- With the same address size the operands of RM and RVM rows are read as before, whatever else the prefixes are. -/
theorem decodeRm_otherPfx {w : Nat} (m : Mode) (ps ps' : List Pfx) (x b : Bool) (number : BitVec 3 → BitVec w)
    (field : BitVec w → BitVec 3) (build build' : BitVec 3 → RegMem w → Instr) (bs rest : List Byte) (i : Instr)
    (ha : addr16 m ps' = addr16 m ps) (hn : ∀ f, field (number f) = f)
    (h : decodeRm m ps x b number build bs = .instr i rest) :
    ∃ i', decodeRm m ps' x b number build' bs = .instr i' rest := by
  obtain ⟨reg, c, -, rfl, hc⟩ := decodeRm_instr m ps x b number field build bs rest i hn h
  refine ⟨_, decodeRm_bytes m ps' x b number field build' reg c rest ?_⟩
  cases c with
  | reg r => exact hc
  | mem f => exact ⟨ha.trans hc.1, hc.2⟩

theorem decodeImm_otherPfx (m : Mode) (ps ps' : List Pfx) (x b : Bool) (build build' : BitVec 3 → BitVec 8 → Instr)
    (bs rest : List Byte) (i : Instr) (h : decodeImm m ps x b build bs = .instr i rest) :
    ∃ i', decodeImm m ps' x b build' bs = .instr i' rest := by
  obtain ⟨rm, imm, -, rfl⟩ := decodeImm_instr m ps x b build bs rest i h
  exact ⟨_, decodeImm_bytes m ps' x b build' rm imm rest⟩

theorem decodeLegacyOp_otherPfx (m : Mode) (ps ps' : List Pfx) (rex : Option Rex) (op : Op) (bs rest : List Byte)
    (i : Instr) (ha : addr16 m ps' = addr16 m ps) (h66 : ps'.contains .opSize = ps.contains .opSize)
    (h : decodeLegacyOp m ⟨ps, rex⟩ op bs = .instr i rest) :
    ∃ i', decodeLegacyOp m ⟨ps', rex⟩ op bs = .instr i' rest := by
  simp only [decodeLegacyOp, h66] at h ⊢
  split_ifs at h ⊢
  · cases op
    case e1 | e2 => exact decodeRm_otherPfx m ps ps' _ _ _ regField _ _ bs rest i ha (regField_regNum _) h
    case o71 | o72 => exact decodeImm_otherPfx m ps ps' _ _ _ _ bs rest i h
  · cases op
    case e1 | e2 => exact decodeRm_otherPfx m ps ps' _ _ id id _ _ bs rest i ha (fun _ => rfl) h
    case o71 | o72 => exact decodeImm_otherPfx m ps ps' _ _ _ _ bs rest i h

theorem decodeVexOp_otherPfx (m : Mode) (e : VexEnc) (ps' : List Pfx) (rex' : Option Rex) (v : BitVec 4) (l : Bool)
    (bs rest : List Byte) (i : Instr) (ha : addr16 m ps' = addr16 m e.pfx)
    (h : decodeVexOp m e v l bs = .instr i rest) :
    ∃ i', decodeVexOp m { e with pfx := ps', rex := rex' } v l bs = .instr i' rest := by
  cases bs with
  | nil => cases h
  | cons b bs =>
    simp only [decodeVexOp] at h ⊢
    cases hop : Op.ofByte b with
    | none => simp [hop] at h
    | some op =>
      rw [hop] at h
      cases op <;> cases l
      case e1.false | e1.true | e2.false | e2.true =>
        exact decodeRm_otherPfx m e.pfx ps' _ _ _ regField _ _ bs rest i ha (regField_regNum _) h
      case o71.false | o71.true | o72.false | o72.true =>
        exact decodeImm_otherPfx m e.pfx ps' _ _ _ _ bs rest i h

/-! ### LOCK, and prefixes that VEX does not admit -/

/-- LOCK makes a legacy row #UD (R71). -/
theorem decodeLegacy_lock (m : Mode) (ps ps' : List Pfx) (rex : Option Rex) (bs rest : List Byte) (i : Instr)
    (ha : addr16 m ps' = addr16 m ps) (h66 : ps'.contains .opSize = ps.contains .opSize)
    (hlock : ps'.contains .lock = true) (h : decodeLegacy m ⟨ps, rex⟩ bs = .instr i rest) :
    decodeLegacy m ⟨ps', rex⟩ bs = .ud := by
  cases bs with
  | nil => cases h
  | cons b bs =>
    simp only [decodeLegacy] at h ⊢
    cases hop : Op.ofByte b with
    | none => simp [hop] at h
    | some op =>
      simp only [hop] at h
      split at h
      · exact absurd h (lockUd_ne_instr _ i rest)
      split at h
      · cases h
      obtain ⟨i', h'⟩ := decodeLegacyOp_otherPfx m ps ps' rex op bs rest i ha h66 h
      simp only [if_pos hlock]
      exact congrArg Decoded.lockUd h'

/-- What R71 forbids in front of a VEX prefix makes a row of the 2-byte form #UD. -/
theorem decodeVex2_bad (m : Mode) (ps ps' : List Pfx) (rex rex' : Option Rex) (bs rest : List Byte) (i : Instr)
    (ha : addr16 m ps' = addr16 m ps) (hbad : badVexPfx ps' rex' = true) (h : decodeVex2 m ps rex bs = .instr i rest) :
    decodeVex2 m ps' rex' bs = .ud := by
  cases bs with
  | nil => cases h
  | cons v1 bs =>
    simp only [decodeVex2] at h ⊢
    split at h
    · cases h
    next hallow =>
    obtain ⟨-, h⟩ := orUd_unless_instr _ _ i rest h
    split at h
    · next hpp =>
      obtain ⟨i', h'⟩ := decodeVexOp_otherPfx m _ ps' rex' _ _ bs rest i ha h
      rw [if_neg hallow, if_pos hbad, if_pos hpp]
      exact congrArg Decoded.orUd h'
    · cases h

/-- The same for the 3-byte form. -/
theorem decodeVex3_bad (m : Mode) (ps ps' : List Pfx) (rex rex' : Option Rex) (bs rest : List Byte) (i : Instr)
    (ha : addr16 m ps' = addr16 m ps) (hbad : badVexPfx ps' rex' = true) (h : decodeVex3 m ps rex bs = .instr i rest) :
    decodeVex3 m ps' rex' bs = .ud := by
  rcases bs with _ | ⟨v1, _ | ⟨v2, bs⟩⟩
  · cases h
  · simp only [decodeVex3] at h
    split at h <;> cases h
  · simp only [decodeVex3] at h ⊢
    split at h
    · cases h
    next hallow =>
    obtain ⟨-, h⟩ := orUd_unless_instr _ _ i rest h
    split at h
    · next hpp =>
      obtain ⟨i', h'⟩ := decodeVexOp_otherPfx m _ ps' rex' _ _ bs rest i ha h
      rw [if_neg hallow, if_pos hbad, if_pos hpp]
      exact congrArg Decoded.orUd h'
    · cases h

theorem badVexPfx_lock (ps : List Pfx) (rex : Option Rex) (h : ps.contains .lock = true) : badVexPfx ps rex = true := by
  rw [badVexPfx, h, Bool.or_true]

/-- LOCK makes every row #UD, as long as the other prefixes select the same row and the same address size. -/
theorem decodeOpcode_lock (m : Mode) (ps ps' : List Pfx) (rex : Option Rex) (bs rest : List Byte) (i : Instr)
    (ha : addr16 m ps' = addr16 m ps) (h66 : ps'.contains .opSize = ps.contains .opSize)
    (hlock : ps'.contains .lock = true) (h : decodeOpcode m ps rex bs = .instr i rest) :
    decodeOpcode m ps' rex bs = .ud := by
  have hbad := badVexPfx_lock ps' rex hlock
  cases bs with
  | nil => cases h
  | cons b bs =>
    simp only [decodeOpcode] at h ⊢
    split_ifs at h ⊢
    · exact decodeLegacy_lock m ps ps' rex bs rest i ha h66 hlock h
    · exact decodeVex2_bad m ps ps' rex rex bs rest i ha hbad h
    · exact decodeVex3_bad m ps ps' rex rex bs rest i ha hbad h

/-- Settles O8: LOCK changes neither the row nor the address size, so what follows the prefixes holds a whole instruction,
which LOCK makes #UD. -/
theorem lockPrefixIsUd : Obligations.LockPrefixIsUd := by
  intro m i p q rest hwf hp
  obtain ⟨rex, bs, hi, hdec⟩ := decode_insertPfx m i p q .lock rest hwf hp
  rw [hdec]
  refine decodeOpcode_lock m (p ++ q) _ rex bs rest i ?_ (by simp) (by simp) hi
  cases m <;> simp [addr16]

end Sys2Proof
end

section
/-! What an instruction reads of memory (20_memory.md R30 to R37) and that it writes none of it. -/

namespace Sys2Proof.Machine

/-! ### The frame on memory -/

/-- Settles O53. -/
theorem noInstructionWritesMemoryOrSystemState : Obligations.NoInstructionWritesMemoryOrSystemState := by
  intro i s t h
  obtain ⟨hsys, hmem, -⟩ := (exec_next i s t h).frame
  exact ⟨hsys, hmem⟩

theorem SameSystem.segOf {s t : State} (h : SameSystem s t) (g : SegSel) : t.segOf g = s.segOf g := by
  cases g <;> simp only [State.segOf, h.env]

theorem SameSystem.linear {s t : State} (h : SameSystem s t) (g : SegSel) (off : Addr) :
    t.linear g off = s.linear g off := by
  simp only [State.linear, State.segBase, h.segOf, h.mode, h.env]

theorem SameSystem.segOk {s t : State} (h : SameSystem s t) (g : SegSel) (off : Addr) :
    t.segOk g off = s.segOk g off := by
  rw [State.segOk, State.segOk, h.mode, h.linear, h.segOf]

theorem SameSystem.pageFault {s t : State} (h : SameSystem s t) (a : Addr) : t.pageFault a = s.pageFault a := by
  simp only [State.pageFault, State.pageStatus, h.pages, h.env]

theorem SameSystem.isDevice {s t : State} (h : SameSystem s t) (a : Addr) : t.isDevice a = s.isDevice a := by
  simp only [State.isDevice, h.devices]

/-- A code byte is read off the system state and the memory alone. -/
theorem SameSystem.codeByte {s t : State} (h : SameSystem s t) (off : Addr) : t.codeByte off = s.codeByte off := by
  simp only [State.codeByte, h.linear, h.segOk, h.pageFault, h.isDevice, h.mem]

/-- Settles O58: a next state of a step has the system state and the memory of the one before. -/
theorem programTextIsImmutable : Obligations.ProgramTextIsImmutable := by
  intro s t off h
  obtain ⟨i, rest, -, hi⟩ := step_next s t h
  obtain ⟨hsys, -, -⟩ := (exec_next i s t hi).frame
  exact hsys.codeByte off

/-! ### Reads that stop -/

/-- Past `Precheck`, a read that stops is the outcome of the instruction. -/
theorem exec_of_memRead_error {s : State} {i : Instr} {f : MemForm} {a : Access} {r : Result} (h : ReadsOperand s i f a)
    (hr : s.memRead a (memBytes i) (alignRule i) = .error r) : exec i s = r := by
  obtain ⟨hwf, hf, rfl, hp⟩ := h
  obtain ⟨k, hbody, -⟩ := body_mem s i f hf
  rw [exec_checked, checked_passes s i _ (wf_not_reserved s.mode i hwf) hp, hbody, State.withMem,
    wf_not_addr16 s.mode i f hwf hf, hr]
  rfl

theorem memBytes_of_ne_mmx (i : Instr) (h : i.row.cls ≠ .mmx) : memBytes i = 16 := if_neg h

/-- A misaligned operand inside its segment: #GP before translation is looked at (60_exceptions.md R129). -/
theorem memRead_misaligned (s : State) (a : Access) (n : Nat) (hin : ∀ k < n, InSegment s a.seg (a.offset k))
    (h16 : (s.byteAddr a 0).toNat % 16 ≠ 0) : s.memRead a n .sse16 = .error (raise .gp) := by
  have hs : ∀ k < n, s.segOk a.seg (a.offset k) = true := fun k hk => (segOk_iff s _ _).2 (hin k hk)
  rw [State.memRead, if_neg (by simpa using hs), if_pos ⟨rfl, h16⟩]

/-- Settles O42. -/
theorem misalignedSseOperandRaisesGp : Obligations.MisalignedSseOperandRaisesGp := by
  intro s i f a h hc hin h16
  refine exec_of_memRead_error h ?_
  rw [memBytes_of_ne_mmx i (by simp [hc]), (alignRule_eq_sse16 i).2 hc]
  exact memRead_misaligned s a 16 hin h16

/-- Settles O45: every check passes, so the read loads the bytes, and loading stops at a missing one. -/
theorem unbackedOperandIsStuck : Obligations.UnbackedOperandIsStuck := by
  rintro s i f a h h16 hin hadm h8 ⟨j, hj, hnone⟩
  obtain ⟨x, hload, k, -, hk, rfl, hx⟩ := load_error s a (memBytes i) 0 j ⟨by omega, by omega⟩ hnone
  refine ⟨k, by omega, hx, exec_of_memRead_error h ?_⟩
  rw [memRead_passes s a (memBytes i) (alignRule i) (fun k hk => (segOk_iff s _ _).2 (hin k hk))
    (fun he => h16 ((alignRule_eq_sse16 i).1 he)) (fun k hk => (pageFault_eq_none s _).2 (hadm k hk))
    (fun he => h8 ((alignRule_eq_mmx8 i).1 he)), hload]

end Sys2Proof.Machine
end

section
/-! The round trip of encoding and decoding, and words worked out by hand (30_encoding.md R50 to R75). -/

namespace Sys2Proof

/-- Settles O2: `decode_encode`, the front of the encoding first and the operands from ModRM on. -/
theorem decodeInvertsEncode : Obligations.DecodeInvertsEncode := decode_encode

/-- Settles O3: `decode_instr`, and well-formedness is well-formed fields within 15 bytes. -/
theorem encodeInvertsDecode : Obligations.EncodeInvertsDecode := by
  intro m bs rest i h
  obtain ⟨hbs, hfields⟩ := decode_instr m bs rest i h
  refine ⟨hbs, fun hlen => ?_⟩
  rw [Instr.wf, hfields, Bool.and_true]
  exact decide_eq_true hlen

/-- Settles O1: the decoder run on each of the sixteen words. -/
theorem handAssembledWordsDecode : Obligations.HandAssembledWordsDecode := by
  unfold Obligations.HandAssembledWordsDecode
  decide

/-- Settles O14: after a REX decoding goes on at `0F`, and the MMX rows take the 3-bit fields as they stand. -/
theorem rexNeverExtendsMmxNumbers : Obligations.RexNeverExtendsMmxNumbers := by
  intro r reg rm imm rest
  have hdec : ∀ bs, decode .mode64 (r.byte :: 0x0F#8 :: bs) = decodeLegacy .mode64 ⟨[], some r⟩ bs :=
    fun bs => decode_rex [] r (0x0F#8 :: bs)
  have hops : Op.ofByte 0xE1#8 = some .e1 ∧ Op.ofByte 0xE2#8 = some .e2 ∧ Op.ofByte 0x71#8 = some .o71 ∧
      Op.ofByte 0x72#8 = some .o72 := by decide
  simp [hdec, decodeLegacy, hops, decodeLegacyOp, decodeRm, decodeImm]

end Sys2Proof
end

section
/-! The rows that a VEX prefix selects (30_encoding.md R55, R68, R69), and the prefixes that may not stand in front of a
row (R71). -/

namespace Sys2Proof

open Sys2Proof.Machine

/-! ### What gave an instruction -/

/-- An instruction comes from one of the three layouts (R50). -/
theorem decodeOpcode_instr_cases (m : Mode) (ps : List Pfx) (rex : Option Rex) (bs rest : List Byte) (i : Instr)
    (h : decodeOpcode m ps rex bs = .instr i rest) :
    (∃ t, bs = 0x0F#8 :: t ∧ decodeLegacy m ⟨ps, rex⟩ t = .instr i rest) ∨
    (∃ t, bs = 0xC5#8 :: t ∧ decodeVex2 m ps rex t = .instr i rest) ∨
    (∃ t, bs = 0xC4#8 :: t ∧ decodeVex3 m ps rex t = .instr i rest) := by
  cases bs with
  | nil => cases h
  | cons b t =>
    simp only [decodeOpcode] at h
    split_ifs at h with h0F hC5 hC4
    · exact .inl ⟨t, by rw [h0F], h⟩
    · exact .inr (.inl ⟨t, by rw [hC5], h⟩)
    · exact .inr (.inr ⟨t, by rw [hC4], h⟩)

theorem decodeLegacy_inv (m : Mode) (e : LegacyEnc) (bs rest : List Byte) (i : Instr)
    (h : decodeLegacy m e bs = .instr i rest) :
    ∃ op t, bs = op.byte :: t ∧ e.pfx.contains .lock = false ∧ decodeLegacyOp m e op t = .instr i rest := by
  cases bs with
  | nil => cases h
  | cons b t =>
    simp only [decodeLegacy] at h
    cases hop : Op.ofByte b with
    | none => simp [hop] at h
    | some op =>
      simp only [hop] at h
      split at h
      · exact absurd h (lockUd_ne_instr _ i rest)
      next hlock =>
      split at h
      · cases h
      exact ⟨op, t, by rw [op_byte_of_ofByte b op hop], by simpa using hlock, h⟩

theorem decodeVex2_inv (m : Mode) (ps : List Pfx) (rex : Option Rex) (v1 : Byte) (bs rest : List Byte) (i : Instr)
    (h : decodeVex2 m ps rex (v1 :: bs) = .instr i rest) :
    badVexPfx ps rex = false ∧ decodeVexOp m ⟨ps, rex, false, !v1.getLsbD 7, false, false, false⟩ (vexVvvv v1)
      (v1.getLsbD 2) bs = .instr i rest := by
  simp only [decodeVex2] at h
  split at h
  · cases h
  obtain ⟨hbad, h⟩ := orUd_unless_instr _ _ i rest h
  split at h
  · exact ⟨hbad, h⟩
  · cases h

theorem decodeVex3_inv (m : Mode) (ps : List Pfx) (rex : Option Rex) (v1 v2 : Byte) (bs rest : List Byte) (i : Instr)
    (h : decodeVex3 m ps rex (v1 :: v2 :: bs) = .instr i rest) :
    vexAllowed m v1 = true ∧ badVexPfx ps rex = false ∧ v1.extractLsb' 0 5 = 1#5 ∧ v2.extractLsb' 0 2 = 1#2 ∧
      decodeVexOp m ⟨ps, rex, true, !v1.getLsbD 7, !v1.getLsbD 6, !v1.getLsbD 5, v2.getLsbD 7⟩ (vexVvvv v2)
        (v2.getLsbD 2) bs = .instr i rest := by
  simp only [decodeVex3] at h
  split at h
  · cases h
  next hallow =>
  obtain ⟨hbad, h⟩ := orUd_unless_instr _ _ i rest h
  split at h
  · next hpp => exact ⟨by simpa using hallow, hbad, hpp.1, hpp.2, h⟩
  · cases h

/-! ### Classes -/

theorem decodeLegacyOp_cls (m : Mode) (e : LegacyEnc) (op : Op) (bs rest : List Byte) (i : Instr)
    (h : decodeLegacyOp m e op bs = .instr i rest) : i.row.cls = .mmx ∨ i.row.cls = .sse2 := by
  unfold decodeLegacyOp at h
  split at h <;> cases op
  case isTrue.e1 | isTrue.e2 =>
    obtain ⟨_, _, rfl, -⟩ := decodeRm_instr _ _ _ _ _ regField _ _ _ _ (regField_regNum e.b) h
    exact .inr rfl
  case isTrue.o71 | isTrue.o72 =>
    obtain ⟨_, _, rfl, -⟩ := decodeImm_instr _ _ _ _ _ _ _ _ h
    exact .inr rfl
  case isFalse.e1 | isFalse.e2 =>
    obtain ⟨_, _, rfl, -⟩ := decodeRm_instr _ _ _ _ _ id _ _ _ _ (fun _ => rfl) h
    exact .inl rfl
  case isFalse.o71 | isFalse.o72 =>
    obtain ⟨_, _, rfl, -⟩ := decodeImm_instr _ _ _ _ _ _ _ _ h
    exact .inl rfl

/-- VEX.L selects the class of a VEX row (R68). -/
theorem decodeVexOp_cls (m : Mode) (e : VexEnc) (v : BitVec 4) (l : Bool) (bs rest : List Byte) (i : Instr)
    (h : decodeVexOp m e v l bs = .instr i rest) : i.row.cls = if l then .vex256 else .vex128 := by
  cases bs with
  | nil => cases h
  | cons b bs =>
    simp only [decodeVexOp] at h
    cases hop : Op.ofByte b with
    | none => simp [hop] at h
    | some op =>
      rw [hop] at h
      cases op <;> cases l
      case e1.false | e1.true | e2.false | e2.true =>
        obtain ⟨_, _, rfl, -⟩ := decodeRm_instr _ _ _ _ _ regField _ _ _ _ (regField_regNum e.b) h
        rfl
      all_goals
        obtain ⟨_, _, rfl, -⟩ := decodeImm_instr _ _ _ _ _ _ _ _ h
        rfl

theorem decodeLegacy_cls (m : Mode) (e : LegacyEnc) (bs rest : List Byte) (i : Instr)
    (h : decodeLegacy m e bs = .instr i rest) : i.row.cls = .mmx ∨ i.row.cls = .sse2 := by
  obtain ⟨op, t, -, -, hop⟩ := decodeLegacy_inv m e bs rest i h
  exact decodeLegacyOp_cls m e op t rest i hop

theorem decodeVex2_cls (m : Mode) (ps : List Pfx) (rex : Option Rex) (bs rest : List Byte) (i : Instr)
    (h : decodeVex2 m ps rex bs = .instr i rest) : i.row.cls = .vex128 ∨ i.row.cls = .vex256 := by
  cases bs with
  | nil => cases h
  | cons v1 bs =>
    rw [decodeVexOp_cls m _ _ _ bs rest i (decodeVex2_inv m ps rex v1 bs rest i h).2]
    split <;> simp

theorem decodeVex3_cls (m : Mode) (ps : List Pfx) (rex : Option Rex) (bs rest : List Byte) (i : Instr)
    (h : decodeVex3 m ps rex bs = .instr i rest) : i.row.cls = .vex128 ∨ i.row.cls = .vex256 := by
  rcases bs with _ | ⟨v1, _ | ⟨v2, bs⟩⟩
  · cases h
  · simp only [decodeVex3] at h
    split at h <;> cases h
  · obtain ⟨-, -, -, -, hop⟩ := decodeVex3_inv m ps rex v1 v2 bs rest i h
    rw [decodeVexOp_cls m _ _ _ bs rest i hop]
    split <;> simp

/-! ### VEX.L -/

theorem row_of_vex128 (i : Instr) (h : i.row.cls = .vex128) : i.row.num ∈ [5, 6, 13, 14] ∧ i.row.needs = .avx := by
  cases i <;> simp [Instr.row] at h ⊢

theorem row_of_vex256 (i : Instr) (h : i.row.cls = .vex256) : i.row.num ∈ [7, 8, 15, 16] ∧ i.row.needs = .avx2 := by
  cases i <;> simp [Instr.row] at h ⊢

/-- Without its feature flag a VEX row is #UD (60_exceptions.md R121). -/
theorem exec_vex_without_flag (s : State) (i : Instr) (hc : i.row.cls = .vex128 ∨ i.row.cls = .vex256)
    (hf : s.cfg.has i.row.needs = false) : exec i s = raise .ud := by
  have hres : i.reservedPfx = false := by
    rcases hc with hc | hc <;> simp [Instr.reservedPfx, hc]
  have hpre : s.precheck i = some .ud := by simp [State.precheck, State.udCond, hf]
  rw [exec_checked, checked_raises s i _ .ud hres hpre]

/-- What the bytes of a VEX encoding of either form decode to is the row of its opcode and L. -/
theorem decode_vex_cls (m : Mode) (ps : List Pfx) (v1 v2 : Byte) (three : Bool) (rest rest' : List Byte) (i : Instr)
    (h : decode m (ps.map Pfx.byte ++ (if three then 0xC4#8 :: v1 :: v2 :: rest else 0xC5#8 :: v1 :: rest)) =
      .instr i rest') :
    i.row.cls = if (if three then v2.getLsbD 2 else v1.getLsbD 2) then .vex256 else .vex128 := by
  cases three with
  | false =>
    have hfront := decode_front m ps none 0xC5#8 (v1 :: rest) rfl (by decide) (by decide)
    exact decodeVexOp_cls m _ _ _ rest rest' i (decodeVex2_inv m ps none v1 rest rest' i (hfront.symm.trans h)).2
  | true =>
    have hfront := decode_front m ps none 0xC4#8 (v1 :: v2 :: rest) rfl (by decide) (by decide)
    obtain ⟨-, -, -, -, hop⟩ := decodeVex3_inv m ps none v1 v2 rest rest' i (hfront.symm.trans h)
    exact decodeVexOp_cls m _ _ _ rest rest' i hop

/-- Settles O12: L selects the class, the class the row and its flag. -/
theorem vexLSelectsVectorWidth : Obligations.VexLSelectsVectorWidth := by
  intro m ps v1 v2 three rest rest' i h l
  have hcls : i.row.cls = if l then .vex256 else .vex128 := decode_vex_cls m ps v1 v2 three rest rest' i h
  refine ⟨fun hl => row_of_vex128 i (by simp [hcls, hl]), fun hl => ?_⟩
  have h256 : i.row.cls = .vex256 := by simp [hcls, hl]
  obtain ⟨hnum, hneeds⟩ := row_of_vex256 i h256
  exact ⟨hnum, hneeds, fun s hs => exec_vex_without_flag s i (.inr h256) (by rw [hneeds]; exact hs)⟩

/-! ### VEX.W -/

/-- VEX.W selects nothing: another W gives the same row with the same operands and length (R69). -/
theorem decodeVexOp_otherW (m : Mode) (e : VexEnc) (w : Bool) (v : BitVec 4) (l : Bool) (bs rest : List Byte) (i : Instr)
    (h : decodeVexOp m e v l bs = .instr i rest) :
    ∃ j, decodeVexOp m { e with w := w } v l bs = .instr j rest ∧ j.row = i.row ∧ ∀ s, exec j s = exec i s := by
  cases bs with
  | nil => cases h
  | cons b bs =>
    simp only [decodeVexOp] at h ⊢
    cases hop : Op.ofByte b with
    | none => simp [hop] at h
    | some op =>
      rw [hop] at h
      cases op <;> cases l
      case e1.false | e1.true | e2.false | e2.true =>
        obtain ⟨reg, c, rfl, rfl, hc⟩ := decodeRm_instr _ _ _ _ _ regField _ _ _ _ (regField_regNum e.b) h
        exact ⟨_, decodeRm_bytes m e.pfx e.x e.b (regNum e.b) regField _ reg c rest hc, rfl, fun _ => rfl⟩
      all_goals
        obtain ⟨rm, imm, rfl, rfl⟩ := decodeImm_instr _ _ _ _ _ _ _ _ h
        exact ⟨_, decodeImm_bytes m e.pfx e.x e.b _ rm imm rest, rfl, fun _ => rfl⟩

/-- Turning W over leaves the other fields of the last VEX byte as they are (R55). -/
theorem vex3_byte2_turnW (v2 : Byte) :
    (v2 ^^^ 0x80#8).extractLsb' 0 2 = v2.extractLsb' 0 2 ∧ vexVvvv (v2 ^^^ 0x80#8) = vexVvvv v2 ∧
      (v2 ^^^ 0x80#8).getLsbD 2 = v2.getLsbD 2 := by
  revert v2; decide

/-- Settles O13: the bytes give the same fields but W, which selects nothing. -/
theorem vexWIsIgnored : Obligations.VexWIsIgnored := by
  intro m ps v1 v2 rest rest' i h
  have hfront (v2 : Byte) : decode m (ps.map Pfx.byte ++ 0xC4#8 :: v1 :: v2 :: rest) =
      decodeVex3 m ps none (v1 :: v2 :: rest) :=
    decode_front m ps none 0xC4#8 (v1 :: v2 :: rest) rfl (by decide) (by decide)
  rw [hfront] at h
  obtain ⟨hallow, hbad, hmap, hpp, hop⟩ := decodeVex3_inv m ps none v1 v2 rest rest' i h
  obtain ⟨hpp', hv, hl⟩ := vex3_byte2_turnW v2
  obtain ⟨j, hj, hsame⟩ := decodeVexOp_otherW m _ ((v2 ^^^ 0x80#8).getLsbD 7) _ _ rest rest' i hop
  refine ⟨j, ?_, hsame⟩
  rw [hfront, ← hj]
  simp only [decodeVex3, hallow, hbad, hmap, hpp', hpp, hv, hl,
    Bool.not_true, Bool.false_eq_true, if_false, and_self, if_true]

/-! ### Prefixes in front of a row -/

/-- What R71 forbids in front of VEX makes a VEX row #UD, as long as the address size is the same. -/
theorem decodeOpcode_badVex (m : Mode) (ps ps' : List Pfx) (rex rex' : Option Rex) (bs rest : List Byte) (i : Instr)
    (hc : i.row.cls = .vex128 ∨ i.row.cls = .vex256) (ha : addr16 m ps' = addr16 m ps)
    (hbad : badVexPfx ps' rex' = true) (h : decodeOpcode m ps rex bs = .instr i rest) :
    decodeOpcode m ps' rex' bs = .ud := by
  rcases decodeOpcode_instr_cases m ps rex bs rest i h with ⟨t, rfl, ht⟩ | ⟨t, rfl, ht⟩ | ⟨t, rfl, ht⟩
  · have hl := decodeLegacy_cls m _ t rest i ht
    rcases hc with hc | hc <;> simp [hc] at hl
  · exact decodeVex2_bad m ps ps' rex rex' t rest i ha hbad ht
  · exact decodeVex3_bad m ps ps' rex rex' t rest i ha hbad ht

/-- `F2` or `F3`, without LOCK, refuses a legacy row. -/
theorem decodeOpcode_reserved (m : Mode) (ps ps' : List Pfx) (rex rex' : Option Rex) (bs rest : List Byte) (i : Instr)
    (hc : i.row.cls = .mmx ∨ i.row.cls = .sse2) (hlock : ps'.contains .lock = ps.contains .lock)
    (hrep : (ps'.contains .repne || ps'.contains .rep) = true) (h : decodeOpcode m ps rex bs = .instr i rest) :
    decodeOpcode m ps' rex' bs = .refused .reservedPfx := by
  rcases decodeOpcode_instr_cases m ps rex bs rest i h with ⟨t, rfl, ht⟩ | ⟨t, rfl, ht⟩ | ⟨t, rfl, ht⟩
  · obtain ⟨op, t, rfl, hnolock, -⟩ := decodeLegacy_inv m ⟨ps, rex⟩ t rest i ht
    have hnolock' : ps'.contains .lock = false := hlock.trans hnolock
    simp only [decodeOpcode, decodeLegacy, op_ofByte_byte, hnolock', hrep, Bool.false_eq_true, if_false, if_true]
  · have hv := decodeVex2_cls m ps rex t rest i ht
    rcases hc with hc | hc <;> simp [hc] at hv
  · have hv := decodeVex3_cls m ps rex t rest i ht
    rcases hc with hc | hc <;> simp [hc] at hv

theorem rex_none_of_vex (m : Mode) (ps : List Pfx) (rex : Option Rex) (bs rest : List Byte) (i : Instr)
    (hc : i.row.cls = .vex128 ∨ i.row.cls = .vex256) (h : decodeOpcode m ps rex bs = .instr i rest) : rex = none := by
  by_contra hrex
  have hbad : badVexPfx ps rex = true := by
    obtain ⟨r, rfl⟩ := Option.ne_none_iff_exists'.1 hrex
    simp [badVexPfx]
  simp [decodeOpcode_badVex m ps ps rex rex bs rest i hc rfl hbad h] at h

/-- A well-formed VEX encoding has no REX, so what follows its prefixes is read from the VEX prefix on. -/
theorem decodeOpcode_vexTail (m : Mode) (i : Instr) (rest : List Byte) (hwf : i.wf m = true)
    (hc : i.row.cls = .vex128 ∨ i.row.cls = .vex256) :
    decodeOpcode m i.pfx none ((encode i).drop i.pfx.length ++ rest) = .instr i rest := by
  obtain ⟨t, henc, hstop⟩ := pfxFront_encode i
  have hdrop : (encode i).drop i.pfx.length = t := by rw [henc]; simp
  have hdec := decode_encode m i rest hwf
  rw [henc, List.append_assoc, decode_afterPfx m _ _ (hstop rest)] at hdec
  have hrex := rex_none_of_vex m i.pfx _ _ rest i hc hdec
  have htail : t ++ rest = (takeRex m (t ++ rest)).2 := by
    simpa [hrex, rexBytes] using (takeRex_eq m (t ++ rest)).1
  rw [hrex] at hdec
  rw [hdrop, htail, hdec]

/-- Settles O9: the row and the address size stay, and R71 says what the prefix does to the row. -/
theorem otherPrefixesStopRows : Obligations.OtherPrefixesStopRows := by
  intro m i p q rest hwf hp
  refine ⟨fun hc => ⟨fun x hx => ?_, fun hm r => ?_⟩, fun hc x hx => ?_⟩
  · obtain ⟨rex, bs, hi, hdec⟩ := decode_insertPfx m i p q x rest hwf hp
    rw [hdec]
    refine decodeOpcode_badVex m (p ++ q) _ rex rex bs rest i hc ?_ ?_ hi
    · rcases hx with rfl | rfl | rfl <;> cases m <;> simp [addr16]
    · rcases hx with rfl | rfl | rfl <;> simp [badVexPfx]
  · subst hm
    rw [decode_rex]
    exact decodeOpcode_badVex .mode64 i.pfx i.pfx none (some r) _ rest i hc rfl (by simp [badVexPfx])
      (decodeOpcode_vexTail .mode64 i rest hwf hc)
  · obtain ⟨rex, bs, hi, hdec⟩ := decode_insertPfx m i p q x rest hwf hp
    rw [hdec]
    refine decodeOpcode_reserved m (p ++ q) _ rex rex bs rest i hc ?_ ?_ hi
    · rcases hx with rfl | rfl <;> simp
    · rcases hx with rfl | rfl <;> simp

end Sys2Proof
end

section
/-! The layouts of R50 under any prefixes (30_encoding.md R55, R61, R67, R71 to R73): what the opcode bytes select, how
many bytes a row takes from ModRM on, and what decoding gives when the bytes are of no row or end too early. -/

namespace Sys2Proof

open Sys2Proof.Machine

/-! ### From ModRM on -/

/-- `d` decodes a row with this opcode from ModRM on, under these prefixes. -/
def RowDecoder (m : Mode) (ps : List Pfx) (op : Op) (d : List Byte → Decoded) : Prop :=
  match op with
  | .e1 | .e2 => ∃ (w : Nat) (x b : Bool) (number : BitVec 3 → BitVec w) (build : BitVec 3 → RegMem w → Instr),
      ∀ bs, d bs = decodeRm m ps x b number build bs
  | .o71 | .o72 => ∃ (x b : Bool) (build : BitVec 3 → BitVec 8 → Instr), ∀ bs, d bs = decodeImm m ps x b build bs

theorem rowDecoder_legacy (m : Mode) (e : LegacyEnc) (op : Op) : RowDecoder m e.pfx op (decodeLegacyOp m e op) := by
  by_cases h66 : e.pfx.contains .opSize = true <;> cases op
  case pos.e1 | pos.e2 => exact ⟨_, _, _, _, _, fun _ => if_pos h66⟩
  case pos.o71 | pos.o72 => exact ⟨_, _, _, fun _ => if_pos h66⟩
  case neg.e1 | neg.e2 => exact ⟨_, _, _, _, _, fun _ => if_neg h66⟩
  case neg.o71 | neg.o72 => exact ⟨_, _, _, fun _ => if_neg h66⟩

theorem rowDecoder_vex (m : Mode) (e : VexEnc) (v : BitVec 4) (l : Bool) (op : Op) :
    RowDecoder m e.pfx op (fun bs => decodeVexOp m e v l (op.byte :: bs)) := by
  cases op <;> cases l
  case e1.false | e1.true | e2.false | e2.true =>
    exact ⟨_, _, _, _, _, fun _ => by simp only [decodeVexOp, op_ofByte_byte]; rfl⟩
  case o71.false | o71.true | o72.false | o72.true =>
    exact ⟨_, _, _, fun _ => by simp only [decodeVexOp, op_ofByte_byte]; rfl⟩

theorem RowDecoder.nil {m : Mode} {ps : List Pfx} {op : Op} {d : List Byte → Decoded} (h : RowDecoder m ps op d) :
    d [] = .short := by
  cases op
  case e1 | e2 => obtain ⟨_, _, _, _, _, hd⟩ := h; rw [hd]; rfl
  case o71 | o72 => obtain ⟨_, _, _, hd⟩ := h; rw [hd]; rfl

/-- A row with an immediate, by its opcode (R57, R59). -/
theorem RowDecoder.imm {m : Mode} {ps : List Pfx} {op : Op} {d : List Byte → Decoded} (h : RowDecoder m ps op d)
    (hop : op = .o71 ∨ op = .o72) : ∃ x b build, ∀ bs, d bs = decodeImm m ps x b build bs := by
  rcases hop with rfl | rfl <;> exact h

/-- Another /digit than 4 is another instruction (R73). -/
theorem RowDecoder.otherDigit {m : Mode} {ps : List Pfx} {op : Op} {d : List Byte → Decoded}
    (h : RowDecoder m ps op d)
    (hop : op = .o71 ∨ op = .o72) (modrm : Byte) (bs : List Byte) (h4 : modrmReg modrm ≠ 4#3) :
    d (modrm :: bs) = .refused .noRow := by
  obtain ⟨x, b, build, hd⟩ := h.imm hop
  simp only [hd, decodeImm, if_pos h4]

/-- An immediate row with mod other than 11 is #UD once it is whole (R67). -/
theorem RowDecoder.memModUd {m : Mode} {ps : List Pfx} {op : Op} {d : List Byte → Decoded} (h : RowDecoder m ps op d)
    (hop : op = .o71 ∨ op = .o72) (modrm : Byte) (bs : List Byte) (h4 : modrmReg modrm = 4#3)
    (h3 : modrmMod modrm ≠ 3#2) (hlen : memTail m ps modrm bs < bs.length) : d (modrm :: bs) = .ud := by
  obtain ⟨x, b, build, hd⟩ := h.imm hop
  rw [hd, decodeImm_memMod m ps x b build modrm bs h4 h3, if_pos hlen]

/-- A memory operand with a 16-bit address is refused once it is whole (R61). -/
theorem RowDecoder.refuses16 {m : Mode} {ps : List Pfx} {op : Op} {d : List Byte → Decoded} (h : RowDecoder m ps op d)
    (hop : op = .e1 ∨ op = .e2) (modrm : Byte) (bs : List Byte) (ha : addr16 m ps = true)
    (h3 : modrmMod modrm ≠ 3#2) (hlen : memTail m ps modrm bs ≤ bs.length) :
    d (modrm :: bs) = .refused .addressing16 := by
  obtain ⟨w, x, b, number, build, hd⟩ :
      ∃ w x b number build, ∀ bs, d bs = decodeRm (w := w) m ps x b number build bs := by
    rcases hop with rfl | rfl <;> exact h
  rw [hd, decodeRm, if_neg h3, if_pos ha, afterMem_eq x b m ps modrm bs h3, if_pos hlen]

/-! ### Whole rows and rows cut short -/

/-- SIB and displacement bytes after this ModRM (R61, R72). -/
def operandLen (m : Mode) (ps : List Pfx) (modrm : Byte) (bs : List Byte) : Nat :=
  if modrmMod modrm = 3#2 then 0 else memTail m ps modrm bs

/-- ModRM and `bs` are all of a row with this opcode from ModRM on: the operand, and the immediate if there is one. -/
def WholeTail (m : Mode) (ps : List Pfx) (op : Op) (modrm : Byte) (bs : List Byte) : Prop :=
  match op with
  | .e1 | .e2 => bs.length = operandLen m ps modrm bs
  | .o71 | .o72 => modrmReg modrm = 4#3 ∧ bs.length = operandLen m ps modrm bs + 1

/-- The prefixes fix the length of an operand by `67` alone. -/
theorem WholeTail.otherPfx {m : Mode} {ps ps' : List Pfx} {op : Op} {modrm : Byte} {bs : List Byte}
    (h : WholeTail m ps op modrm bs) (h67 : Pfx.addrSize ∈ ps' ↔ Pfx.addrSize ∈ ps) :
    WholeTail m ps' op modrm bs := by
  have hlen : operandLen m ps' modrm bs = operandLen m ps modrm bs := by simp only [operandLen, memTail, h67]
  unfold WholeTail at h ⊢
  rwa [hlen]

theorem decodeRm_short {w : Nat} (m : Mode) (ps : List Pfx) (x b : Bool) (number : BitVec 3 → BitVec w)
    (build : BitVec 3 → RegMem w → Instr) (modrm : Byte) (bs : List Byte) (h3 : modrmMod modrm ≠ 3#2)
    (h : bs.length < memTail m ps modrm bs) : decodeRm m ps x b number build (modrm :: bs) = .short := by
  rw [decodeRm, if_neg h3]
  split
  · rw [afterMem_eq x b m ps modrm bs h3, if_neg (by omega)]
  · next ha =>
    have hnone := takeMem_len x b m ps modrm bs h3 (by simpa using ha)
    rw [if_neg (by omega), Option.map_eq_none_iff] at hnone
    rw [hnone]

theorem memTail_take_pos (m : Mode) (ps : List Pfx) (modrm : Byte) (bs : List Byte) (n : Nat) (hn : 0 < n) :
    memTail m ps modrm (bs.take n) = memTail m ps modrm bs := by
  obtain ⟨k, rfl⟩ := Nat.exists_eq_succ_of_ne_zero hn.ne'
  cases bs <;> rfl

/-- A row cut short after ModRM is unfinished. -/
theorem RowDecoder.cut {m : Mode} {ps : List Pfx} {op : Op} {d : List Byte → Decoded} (h : RowDecoder m ps op d)
    (modrm : Byte) (bs : List Byte) (hw : WholeTail m ps op modrm bs) (n : Nat) (hn : n < bs.length) :
    d (modrm :: bs.take n) = .short := by
  have hlen : (bs.take n).length = n := by rw [List.length_take]; omega
  cases op
  case e1 | e2 =>
    obtain ⟨w, x, b, number, build, hd⟩ := h
    simp only [WholeTail, operandLen] at hw
    split at hw
    · omega
    next h3 =>
    have htail : ¬ memTail m ps modrm (bs.take n) ≤ (bs.take n).length := fun hle => by
      have := memTail_take m ps modrm bs n hle
      omega
    rw [hd]
    exact decodeRm_short m ps x b number build modrm _ h3 (not_le.1 htail)
  case o71 | o72 =>
    obtain ⟨x, b, build, hd⟩ := h
    obtain ⟨h4, hw⟩ := hw
    rw [hd]
    simp only [operandLen] at hw
    split at hw
    · next h3 =>
      obtain rfl : n = 0 := by omega
      simp [decodeImm, h4, h3]
    · next h3 =>
      have htail : ¬ memTail m ps modrm (bs.take n) < (bs.take n).length := fun hlt => by
        have := memTail_take_pos m ps modrm bs n (by omega)
        omega
      rw [decodeImm_memMod m ps x b build modrm _ h4 h3, if_neg htail]

/-- The operand that an encoding writes after ModRM is as long as ModRM says. -/
theorem rmBytes_whole {w : Nat} (m : Mode) (ps : List Pfx) (x b : Bool) (number : BitVec 3 → BitVec w)
    (field : BitVec w → BitVec 3) (reg : BitVec 3) (c : RegMem w) (h : rmOk m ps x b number field c) :
    ∃ modrm bs, rmBytes field reg c = modrm :: bs ∧ bs.length = operandLen m ps modrm bs := by
  cases c with
  | reg r => exact ⟨_, [], rfl, by simp [operandLen]⟩
  | mem f =>
    obtain ⟨ha, hf⟩ := h
    obtain ⟨modrm, bs, hb, h3, -, htake⟩ := takeMem_bytes x b reg f [] hf
    rw [List.append_nil] at htake
    refine ⟨modrm, bs, hb, ?_⟩
    have hlen := takeMem_len x b m ps modrm bs h3 ha
    simp only [htake, Option.map_some] at hlen
    split at hlen
    · have hdrop : bs.length ≤ memTail m ps modrm bs := by simpa using hlen
      rw [operandLen, if_neg h3]
      omega
    · cases hlen

/-! ### Opcode bytes -/

/-- The bytes of a layout from `0F` or the VEX prefix to the opcode (R50, R55); `vex` tells the VEX layouts. -/
inductive OpcodeBytes (m : Mode) (op : Op) : (vex : Bool) → List Byte → Prop where
  | legacy : OpcodeBytes m op false [0x0F#8, op.byte]
  | vex2 (v1 : Byte) (h1 : vexAllowed m v1 = true) (hp : v1.extractLsb' 0 2 = 1#2) :
      OpcodeBytes m op true [0xC5#8, v1, op.byte]
  | vex3 (v1 v2 : Byte) (h1 : vexAllowed m v1 = true) (hm : v1.extractLsb' 0 5 = 1#5)
      (hp : v2.extractLsb' 0 2 = 1#2) :
      OpcodeBytes m op true [0xC4#8, v1, v2, op.byte]

/-- The prefixes let a row be read: `F2` and `F3` without LOCK refuse a legacy row before (R71). -/
def RowReached (vex : Bool) (ps : List Pfx) : Prop :=
  vex = true ∨ Pfx.lock ∈ ps ∨ (Pfx.repne ∉ ps ∧ Pfx.rep ∉ ps)

/-- What the prefixes and REX make of the outcome of a row (R71). -/
def underPfx (vex : Bool) (ps : List Pfx) (rex : Option Rex) (d : Decoded) : Decoded :=
  if vex then (if badVexPfx ps rex then d.orUd else d) else if ps.contains .lock then d.lockUd else d

@[simp] theorem underPfx_short (vex : Bool) (ps : List Pfx) (rex : Option Rex) : underPfx vex ps rex .short = .short := by
  unfold underPfx; split_ifs <;> rfl

@[simp] theorem underPfx_ud (vex : Bool) (ps : List Pfx) (rex : Option Rex) : underPfx vex ps rex .ud = .ud := by
  unfold underPfx; split_ifs <;> rfl

theorem vexAllowed_iff (m : Mode) (v1 : Byte) :
    vexAllowed m v1 = true ↔ (m = .mode32 → v1.extractLsb' 6 2 = 3#2) := by
  cases m <;> simp [vexAllowed]

/-- A head of R50 and R55 is prefixes, REX and opcode bytes. -/
theorem opcodeBytes_of_head {m : Mode} {ps : List Pfx} {rex : Option Rex} {op : Op} {head : List Byte}
    (h : Head m ps rex op head) :
    ∃ vex ob, OpcodeBytes m op vex ob ∧ RowReached vex ps ∧ head = ps.map Pfx.byte ++ (rexBytes rex ++ ob) := by
  cases h with
  | legacy h => exact ⟨_, _, .legacy, .inr h, rfl⟩
  | vex2 v1 h1 hp => exact ⟨_, _, .vex2 v1 ((vexAllowed_iff m v1).2 h1) hp, .inl rfl, rfl⟩
  | vex3 v1 v2 h1 hm hp => exact ⟨_, _, .vex3 v1 v2 ((vexAllowed_iff m v1).2 h1) hm hp, .inl rfl, rfl⟩

/-- Opcode bytes begin with a byte that is neither a prefix nor a REX. -/
theorem OpcodeBytes.first {m : Mode} {op : Op} {vex : Bool} {ob : List Byte} (h : OpcodeBytes m op vex ob) :
    ∃ b t, ob = b :: t ∧ b.extractLsb' 4 4 ≠ 4#4 ∧ Pfx.ofByte b = none := by
  cases h <;> exact ⟨_, _, rfl, by decide, by decide⟩

/-- Opcode bytes select a row, and the prefixes act on its outcome. -/
theorem OpcodeBytes.row {m : Mode} {op : Op} {vex : Bool} {ob : List Byte} (h : OpcodeBytes m op vex ob) (ps : List Pfx)
    (rex : Option Rex) (hr : RowReached vex ps) :
    ∃ d, RowDecoder m ps op d ∧ ∀ bs, decodeOpcode m ps rex (ob ++ bs) = underPfx vex ps rex (d bs) := by
  cases h with
  | legacy =>
    refine ⟨_, rowDecoder_legacy m ⟨ps, rex⟩ op, fun bs => ?_⟩
    have hrep : Pfx.lock ∉ ps → Pfx.repne ∉ ps ∧ Pfx.rep ∉ ps := by
      rcases hr with hr | hr | hr
      · cases hr
      · exact fun hn => absurd hr hn
      · exact fun _ => hr
    by_cases hlock : Pfx.lock ∈ ps
    · simp [decodeOpcode, decodeLegacy, underPfx, hlock]
    · simp [decodeOpcode, decodeLegacy, underPfx, hlock, hrep hlock]
  | vex2 v1 h1 hp =>
    exact ⟨_, rowDecoder_vex m ⟨ps, rex, false, _, _, _, _⟩ _ _ op, fun bs => by
      simp only [List.cons_append, List.nil_append, decodeOpcode, decodeVex2, h1, hp]; rfl⟩
  | vex3 v1 v2 h1 hm hp =>
    exact ⟨_, rowDecoder_vex m ⟨ps, rex, true, _, _, _, _⟩ _ _ op, fun bs => by
      simp only [List.cons_append, List.nil_append, decodeOpcode, decodeVex3, h1, hm, hp]; rfl⟩

/-- After prefixes, REX and opcode bytes, decoding is that of the row. -/
theorem OpcodeBytes.decodes {m : Mode} {op : Op} {vex : Bool} {ob : List Byte} (h : OpcodeBytes m op vex ob)
    (ps : List Pfx) (rex : Option Rex) (hr : RowReached vex ps) (hm : rex.isNone || m == .mode64) :
    ∃ d, RowDecoder m ps op d ∧
      ∀ bs, decode m (ps.map Pfx.byte ++ (rexBytes rex ++ ob) ++ bs) = underPfx vex ps rex (d bs) := by
  obtain ⟨d, hd, hdec⟩ := h.row ps rex hr
  obtain ⟨b, t, rfl, hnib, hpfx⟩ := h.first
  refine ⟨d, hd, fun bs => ?_⟩
  rw [← hdec, List.append_assoc, List.append_assoc]
  exact decode_front m ps rex b (t ++ bs) hm hnib hpfx

/-- Opcode bytes cut short are unfinished, whatever the prefixes. -/
theorem OpcodeBytes.cut {m : Mode} {op : Op} {vex : Bool} {ob : List Byte} (h : OpcodeBytes m op vex ob) (ps : List Pfx)
    (rex : Option Rex) (n : Nat) (hn : n < ob.length) : decodeOpcode m ps rex (ob.take n) = .short := by
  cases h with
  | legacy =>
    match n, hn with
    | 0, _ | 1, _ => rfl
  | vex2 v1 h1 hp =>
    match n, hn with
    | 0, _ | 1, _ => rfl
    | 2, _ => simp [decodeOpcode, decodeVex2, h1, hp, decodeVexOp, Decoded.orUd]
  | vex3 v1 v2 h1 hm hp =>
    match n, hn with
    | 0, _ | 1, _ => rfl
    | 2, _ => simp [decodeOpcode, decodeVex3, h1]
    | 3, _ => simp [decodeOpcode, decodeVex3, h1, hm, hp, decodeVexOp, Decoded.orUd]

/-- The opcode bytes and the tail of a row cut short are unfinished. -/
theorem decodeOpcode_cut {m : Mode} {op : Op} {vex : Bool} {ob : List Byte} (h : OpcodeBytes m op vex ob)
    (ps : List Pfx) (rex : Option Rex) (hr : RowReached vex ps) (modrm : Byte) (bs : List Byte)
    (hw : WholeTail m ps op modrm bs) (n : Nat) (hn : n < (ob ++ modrm :: bs).length) :
    decodeOpcode m ps rex ((ob ++ modrm :: bs).take n) = .short := by
  by_cases hob : n < ob.length
  · rw [List.take_append_of_le_length (by omega)]
    exact h.cut ps rex n hob
  · obtain ⟨d, hd, hdec⟩ := h.row ps rex hr
    obtain ⟨k, rfl⟩ := Nat.exists_eq_add_of_le (not_lt.1 hob)
    rw [List.take_length_add_append, hdec]
    cases k with
    | zero => simp [hd.nil]
    | succ k =>
      rw [List.take_succ_cons, hd.cut modrm bs hw k (by simp at hn; omega), underPfx_short]

/-! ### The front cut short -/

/-- Prefixes alone are unfinished. -/
theorem decode_pfxOnly (m : Mode) (ps : List Pfx) : decode m (ps.map Pfx.byte) = .short := by
  have h := decode_afterPfx m ps [] rfl
  rwa [List.append_nil] at h

/-- If what follows prefixes and REX is unfinished wherever it is cut, so are the bytes with prefixes and REX. -/
theorem decode_cut (m : Mode) (ps : List Pfx) (rex : Option Rex) (b : Byte) (t : List Byte)
    (hm : rex.isNone || m == .mode64) (h4 : b.extractLsb' 4 4 ≠ 4#4) (hp : Pfx.ofByte b = none)
    (hcut : ∀ n < (b :: t).length, decodeOpcode m ps rex ((b :: t).take n) = .short) (n : Nat)
    (hn : n < (ps.map Pfx.byte ++ (rexBytes rex ++ b :: t)).length) :
    decode m ((ps.map Pfx.byte ++ (rexBytes rex ++ b :: t)).take n) = .short := by
  rcases Nat.le_or_le n (ps.map Pfx.byte).length with hle | hle
  · rw [List.take_append_of_le_length hle, ← List.map_take]
    exact decode_pfxOnly m _
  obtain ⟨k, rfl⟩ := Nat.exists_eq_add_of_le hle
  rw [List.length_append] at hn
  rw [List.take_length_add_append]
  cases rex with
  | none =>
    cases k with
    | zero => simpa using decode_pfxOnly m ps
    | succ k => exact (decode_front m ps none b (t.take k) hm h4 hp).trans (hcut (k + 1) (by simpa [rexBytes] using hn))
  | some r =>
    match k with
    | 0 => simpa using decode_pfxOnly m ps
    | 1 =>
      obtain rfl : m = .mode64 := by simpa using hm
      exact decode_rex ps r []
    | k + 2 =>
      exact (decode_front m ps (some r) b (t.take k) hm h4 hp).trans (hcut (k + 1) (by simpa [rexBytes] using hn))

/-- A row under any prefixes and REX, cut short anywhere, is unfinished. -/
theorem decode_row_cut {m : Mode} {op : Op} {vex : Bool} {ob : List Byte} (h : OpcodeBytes m op vex ob) (ps : List Pfx)
    (rex : Option Rex) (hr : RowReached vex ps) (hm : rex.isNone || m == .mode64) (modrm : Byte) (bs : List Byte)
    (hw : WholeTail m ps op modrm bs) (n : Nat)
    (hn : n < (ps.map Pfx.byte ++ (rexBytes rex ++ (ob ++ modrm :: bs))).length) :
    decode m ((ps.map Pfx.byte ++ (rexBytes rex ++ (ob ++ modrm :: bs))).take n) = .short := by
  have hcut := decodeOpcode_cut h ps rex hr modrm bs hw
  obtain ⟨b, t, rfl, h4, hp⟩ := h.first
  exact decode_cut m ps rex b (t ++ modrm :: bs) hm h4 hp hcut n hn

end Sys2Proof
end

section
/-! The statements on bytes that give no instruction (30_encoding.md R55, R61, R67, R72, R73): which are #UD, which are
refused, and which are longer than 15 bytes. -/

namespace Sys2Proof

open Sys2Proof.Machine

/-! ### #UD -/

theorem rex_mode (m : Mode) (rex : Option Rex) (h : rex.isSome = true → m = .mode64) :
    (rex.isNone || m == .mode64) = true := by
  cases rex with
  | none => rfl
  | some r => simp [h rfl]

/-- Settles O7: the opcode bytes select an immediate row, which is #UD, and so it is under any prefixes. -/
theorem immediateRowWithMemoryModIsUd : Obligations.ImmediateRowWithMemoryModIsUd := by
  intro m ps rex op head modrm rest hm hop hhead h4 h3 hlen
  obtain ⟨vex, ob, hob, hr, rfl⟩ := opcodeBytes_of_head hhead
  obtain ⟨d, hd, hdec⟩ := hob.decodes ps rex hr (rex_mode m rex hm)
  rw [hdec, hd.memModUd hop modrm rest h4 h3 hlen, underPfx_ud]

/-! ### Bytes of no row -/

/-- `0F` and an opcode in scope with another /digit than 4: refused, with `F2` or `F3` by R71, else by R73. -/
theorem decodeLegacy_otherDigit (m : Mode) (e : LegacyEnc) (op : Op) (modrm : Byte) (bs : List Byte)
    (hop : op = .o71 ∨ op = .o72) (h4 : modrmReg modrm ≠ 4#3) :
    ∃ r, decodeLegacy m e (op.byte :: modrm :: bs) = .refused r := by
  have hrow := (rowDecoder_legacy m e op).otherDigit hop modrm bs h4
  simp only [decodeLegacy, op_ofByte_byte, hrow]
  split_ifs
  · exact ⟨.noRow, rfl⟩
  · exact ⟨.reservedPfx, rfl⟩
  · exact ⟨.noRow, rfl⟩

theorem decodeLegacy_otherOp (m : Mode) (e : LegacyEnc) (b : Byte) (bs : List Byte) (hb : ∀ op : Op, b ≠ op.byte) :
    decodeLegacy m e (b :: bs) = .refused .noRow := by
  simp only [decodeLegacy, op_ofByte_none b hb]

theorem decodeVexOp_otherOp (m : Mode) (e : VexEnc) (v : BitVec 4) (l : Bool) (b : Byte) (bs : List Byte)
    (hb : ∀ op : Op, b ≠ op.byte) : decodeVexOp m e v l (b :: bs) = .refused .noRow := by
  simp only [decodeVexOp, op_ofByte_none b hb]

theorem decodeVexOp_otherDigit (m : Mode) (e : VexEnc) (v : BitVec 4) (l : Bool) (op : Op) (modrm : Byte)
    (bs : List Byte) (hop : op = .o71 ∨ op = .o72) (h4 : modrmReg modrm ≠ 4#3) :
    decodeVexOp m e v l (op.byte :: modrm :: bs) = .refused .noRow :=
  (rowDecoder_vex m e v l op).otherDigit hop modrm bs h4

/-- A first opcode byte that begins no layout (R50). -/
theorem decodeOpcode_otherByte (m : Mode) (ps : List Pfx) (rex : Option Rex) (b : Byte) (bs : List Byte)
    (hb : b ∉ [0x0F#8, 0xC4#8, 0xC5#8]) (hp : ∀ p : Pfx, b ≠ p.byte) :
    decodeOpcode m ps rex (b :: bs) = .refused .noRow := by
  simp only [List.mem_cons, List.not_mem_nil, or_false, not_or] at hb
  obtain ⟨h0F, hC4, hC5⟩ := hb
  simp [decodeOpcode, h0F, hC4, hC5, ofByte_none b hp]

/-- No prefix byte begins a layout, so after a REX it is out of place (R71). -/
theorem decodeOpcode_pfxAfterRex (m : Mode) (ps : List Pfx) (r : Rex) (p : Pfx) (bs : List Byte) :
    decodeOpcode m ps (some r) (p.byte :: bs) = .refused .rexNotLast := by
  have hne : p.byte ≠ 0x0F#8 ∧ p.byte ≠ 0xC5#8 ∧ p.byte ≠ 0xC4#8 := by
    cases p with
    | seg s => cases s <;> decide
    | _ => decide
  simp [decodeOpcode, hne]

/-- Decoding goes on at the opcode after prefixes and REX, when the byte there is no prefix and is not read as a REX. -/
theorem decode_front_unlessRex (m : Mode) (ps : List Pfx) (rex : Option Rex) (b : Byte) (bs : List Byte)
    (hm : rex.isSome = true → m = .mode64) (h4 : m = .mode64 → rex = none → b.extractLsb' 4 4 ≠ 4#4)
    (hp : Pfx.ofByte b = none) :
    decode m (ps.map Pfx.byte ++ (rexBytes rex ++ b :: bs)) = decodeOpcode m ps rex (b :: bs) := by
  cases rex with
  | some r =>
    obtain rfl := hm rfl
    exact decode_rex ps r (b :: bs)
  | none =>
    cases m with
    | mode64 => exact decode_front .mode64 ps none b bs rfl (h4 rfl rfl) hp
    | mode32 => exact decode_afterPfx .mode32 ps (b :: bs) (takePfx_stop b bs hp)

theorem badVexPfx_of_beforeVex (ps : List Pfx) (h : BeforeVex ps) : badVexPfx ps none = false := by
  obtain ⟨h66, hF2, hF3, hF0⟩ := h
  simp [badVexPfx, h66, hF2, hF3, hF0]

/-- The 2-byte form with nothing in front that R71 forbids is refused if its pp or what follows it is of no row. -/
theorem decodeVex2_refused (m : Mode) (ps : List Pfx) (v1 : Byte) (bs : List Byte) (hps : BeforeVex ps)
    (h : v1.extractLsb' 0 2 ≠ 1#2 ∨ ∀ e v l, decodeVexOp m e v l bs = .refused .noRow) :
    decodeVex2 m ps none (v1 :: bs) = .refused .noRow := by
  simp only [decodeVex2, badVexPfx_of_beforeVex ps hps, Bool.false_eq_true, if_false]
  split_ifs with hallow hpp
  · rfl
  · exact h.resolve_left (not_not.2 hpp) _ _ _
  · rfl

/-- The same for the 3-byte form, with mmmmm. -/
theorem decodeVex3_refused (m : Mode) (ps : List Pfx) (v1 v2 : Byte) (bs : List Byte) (hps : BeforeVex ps)
    (h : (v1.extractLsb' 0 5 ≠ 1#5 ∨ v2.extractLsb' 0 2 ≠ 1#2) ∨
      ∀ e v l, decodeVexOp m e v l bs = .refused .noRow) :
    decodeVex3 m ps none (v1 :: v2 :: bs) = .refused .noRow := by
  simp only [decodeVex3, badVexPfx_of_beforeVex ps hps, Bool.false_eq_true, if_false]
  split_ifs with hallow hpp
  · rfl
  · exact h.resolve_left (fun hn => hn.elim (· hpp.1) (· hpp.2)) _ _ _
  · rfl

/-- Settles O10: decoding reaches the byte that no row has, and refuses it. -/
theorem bytesOfNoRowAreRefused : Obligations.BytesOfNoRowAreRefused := by
  intro m ps rex rest hm legacy vex
  have hlegacy : ∀ bs, legacy (0x0F#8 :: bs) = decodeLegacy m ⟨ps, rex⟩ bs := fun bs =>
    decode_front m ps rex 0x0F#8 bs (rex_mode m rex hm) (by decide) (by decide)
  have hvex2 : ∀ bs, vex (0xC5#8 :: bs) = decodeVex2 m ps none bs := fun bs =>
    decode_front m ps none 0xC5#8 bs rfl (by decide) (by decide)
  have hvex3 : ∀ bs, vex (0xC4#8 :: bs) = decodeVex3 m ps none bs := fun bs =>
    decode_front m ps none 0xC4#8 bs rfl (by decide) (by decide)
  refine ⟨fun op modrm hop h4 => ?_, fun b hb => ?_, fun b hb hp h4 => ?_, fun hrex p => ?_, fun hps v1 v2 =>
    ⟨fun hpp => ?_, fun hpp => ?_, fun b hb => ⟨?_, ?_⟩, fun op modrm hop h4 => ⟨?_, ?_⟩⟩⟩
  · rw [hlegacy]; exact decodeLegacy_otherDigit m _ op modrm rest hop h4
  · rw [hlegacy]; exact decodeLegacy_otherOp m _ b rest hb
  · exact (decode_front_unlessRex m ps rex b rest hm h4 (ofByte_none b hp)).trans
      (decodeOpcode_otherByte m ps rex b rest hb hp)
  · obtain ⟨r, rfl⟩ := Option.isSome_iff_exists.1 hrex
    obtain rfl := hm rfl
    exact (decode_rex ps r (p.byte :: rest)).trans (decodeOpcode_pfxAfterRex _ ps r p rest)
  · rw [hvex2]; exact decodeVex2_refused m ps v1 rest hps (.inl hpp)
  · rw [hvex3]; exact decodeVex3_refused m ps v1 v2 rest hps (.inl hpp)
  · rw [hvex2]; exact decodeVex2_refused m ps v1 _ hps (.inr fun e v l => decodeVexOp_otherOp m e v l b rest hb)
  · rw [hvex3]; exact decodeVex3_refused m ps v1 v2 _ hps (.inr fun e v l => decodeVexOp_otherOp m e v l b rest hb)
  · rw [hvex2]
    exact decodeVex2_refused m ps v1 _ hps (.inr fun e v l => decodeVexOp_otherDigit m e v l op modrm rest hop h4)
  · rw [hvex3]
    exact decodeVex3_refused m ps v1 v2 _ hps (.inr fun e v l => decodeVexOp_otherDigit m e v l op modrm rest hop h4)

/-! ### Mode32 -/

theorem vexAllowed_mode32_false (v1 : Byte) (h : v1.extractLsb' 6 2 ≠ 3#2) : vexAllowed .mode32 v1 = false := by
  simpa [vexAllowed] using h

/-- In Mode32 `C4` and `C5` whose next byte has other bits 7:6 than 11 are no VEX prefix (R55). -/
theorem decode_mode32_notVex (ps : List Pfx) (b v1 : Byte) (rest : List Byte) (hb : b = 0xC4#8 ∨ b = 0xC5#8)
    (h : v1.extractLsb' 6 2 ≠ 3#2) :
    decode .mode32 (ps.map Pfx.byte ++ (b :: v1 :: rest)) = .refused .noRow := by
  have hno := vexAllowed_mode32_false v1 h
  rcases hb with rfl | rfl
  · refine (decode_front .mode32 ps none 0xC4#8 (v1 :: rest) rfl (by decide) (by decide)).trans ?_
    cases rest <;> simp [decodeOpcode, decodeVex3, hno]
  · refine (decode_front .mode32 ps none 0xC5#8 (v1 :: rest) rfl (by decide) (by decide)).trans ?_
    simp [decodeOpcode, decodeVex2, hno]

/-- Without LOCK, and without what R71 forbids in front of VEX, the prefixes leave the outcome of the row as it is. -/
theorem underPfx_plain (vex : Bool) (ps : List Pfx) (rex : Option Rex) (d : Decoded) (hlock : Pfx.lock ∉ ps)
    (hbad : vex = true → badVexPfx ps rex = false) : underPfx vex ps rex d = d := by
  cases vex with
  | false => simp [underPfx, hlock]
  | true => simp [underPfx, hbad rfl]

/-- Settles O11: bits 7:6 of the byte after `C4` or `C5`, and the operand of the row that the opcode bytes select. -/
theorem mode32FormsAreRefused : Obligations.Mode32FormsAreRefused := by
  refine ⟨decode_mode32_notVex, fun ps op head modrm rest h67 hlock hF2 hF3 hop hhead h66 h3 hlen => ?_⟩
  obtain ⟨vex, ob, hob, hr, rfl⟩ := opcodeBytes_of_head hhead
  have hbad : vex = true → badVexPfx ps none = false := by
    rintro rfl
    have hno66 : Pfx.opSize ∉ ps := fun h => by
      have hob0F : ob = [0x0F#8, op.byte] := by simpa [rexBytes] using h66 h
      cases hob <;> simp at hob0F
    exact badVexPfx_of_beforeVex ps ⟨hno66, hF2, hF3, hlock⟩
  obtain ⟨d, hd, hdec⟩ := hob.decodes ps none hr rfl
  have ha : addr16 .mode32 ps = true := by simpa [addr16] using h67
  rw [hdec, hd.refuses16 hop modrm rest ha h3 hlen, underPfx_plain vex ps none _ hlock hbad]

/-! ### The 15-byte limit -/

theorem step_of_fifteen_short (s : State) (hlen : s.window.length = 15) (h : decode s.mode s.window = .short) :
    step s = raise .gp := by
  simp [step, State.fetched, h, hlen, maxLen]

/-- A row of more than 15 bytes, under any prefixes and REX that let it be reached, raises #GP(0). -/
theorem step_overlong (s : State) {op : Op} {vex : Bool} {ob : List Byte} (hob : OpcodeBytes s.mode op vex ob)
    (ps : List Pfx) (rex : Option Rex) (hr : RowReached vex ps) (hm : rex.isNone || s.mode == .mode64) (modrm : Byte)
    (bs : List Byte) (hw : WholeTail s.mode ps op modrm bs)
    (hlen : 15 < (ps.map Pfx.byte ++ (rexBytes rex ++ (ob ++ modrm :: bs))).length)
    (hwin : s.window = (ps.map Pfx.byte ++ (rexBytes rex ++ (ob ++ modrm :: bs))).take 15) : step s = raise .gp := by
  refine step_of_fifteen_short s ?_ ?_
  · rw [hwin, List.length_take]; omega
  · rw [hwin]; exact decode_row_cut hob ps rex hr hm modrm bs hw 15 hlen

/-- The row is a VEX row. -/
def Instr.isVex (i : Instr) : Bool := decide (i.row.cls = .vex128 ∨ i.row.cls = .vex256)

/-- The encoding of an instruction, taken apart: opcode bytes, ModRM and a whole tail. -/
structure Layout (m : Mode) (i : Instr) (ob : List Byte) (modrm : Byte) (bs : List Byte) : Prop where
  opcode : OpcodeBytes m i.row.op i.isVex ob
  bytes : encode i = i.pfx.map Pfx.byte ++ (rexBytes i.rex ++ (ob ++ modrm :: bs))
  whole : WholeTail m i.pfx i.row.op modrm bs
  mode : (i.rex.isNone || m == .mode64) = true
  reached : RowReached i.isVex i.pfx
  vexRex : i.isVex = true → i.rex = none

/-- The layout of a legacy row. -/
theorem layout_legacy (m : Mode) (xmm : Bool) (e : LegacyEnc) (i : Instr) (modrm : Byte) (bs : List Byte)
    (he : e.wf m xmm = true) (hv : i.isVex = false) (hp : i.pfx = e.pfx) (hr : i.rex = e.rex)
    (henc : encode i = e.bytes i.row.op ++ modrm :: bs) (hw : WholeTail m e.pfx i.row.op modrm bs) :
    ∃ ob modrm bs, Layout m i ob modrm bs := by
  simp only [LegacyEnc.wf, Bool.and_eq_true, Bool.not_eq_true'] at he
  obtain ⟨⟨⟨⟨hm, -⟩, hrepne⟩, hrep⟩, -⟩ := he
  rw [← hp] at hw hrepne hrep
  rw [← hr] at hm
  exact ⟨[0x0F#8, i.row.op.byte], modrm, bs, hv ▸ OpcodeBytes.legacy, by simp [henc, LegacyEnc.bytes, hp, hr], hw, hm,
    .inr (.inr ⟨not_mem_of_contains hrepne, not_mem_of_contains hrep⟩), by simp [hv]⟩

/-- The bytes of a well-formed VEX encoding are prefixes and opcode bytes. -/
theorem vexBytes_opcodeBytes (m : Mode) (e : VexEnc) (v : BitVec 4) (l : Bool) (op : Op) (h : e.wf m v = true) :
    e.rex = none ∧ ∃ ob, OpcodeBytes m op true ob ∧
      e.bytes v l op = e.pfx.map Pfx.byte ++ (rexBytes e.rex ++ ob) := by
  obtain ⟨pfx, rex, three, r, x, b, w⟩ := e
  simp only [VexEnc.wf, Bool.and_eq_true, Bool.not_eq_true'] at h
  obtain ⟨⟨hbad, -⟩, hmode⟩ := h
  refine ⟨rex_none_of_not_bad pfx rex hbad, ?_⟩
  cases three with
  | false =>
    obtain ⟨-, -, -, hpp, htop⟩ := vex2_fields r l v _ rfl
    exact ⟨_, .vex2 _ (vexAllowed_of_bits m _ _ _ htop (by simpa using hmode)) hpp, rfl⟩
  | true =>
    obtain ⟨-, -, -, hmap, htop⟩ := vex3_fields1 r x b _ rfl
    obtain ⟨-, -, -, hpp⟩ := vex3_fields2 w l v _ rfl
    exact ⟨_, .vex3 _ _ (vexAllowed_of_bits m _ _ _ htop (by simpa using hmode)) hmap hpp, rfl⟩

/-- The layout of a VEX row, whose class gives L. -/
theorem layout_vex (m : Mode) (e : VexEnc) (v : BitVec 4) (i : Instr) (modrm : Byte) (bs : List Byte)
    (he : e.wf m v = true) (hv : i.isVex = true) (hp : i.pfx = e.pfx) (hr : i.rex = e.rex)
    (henc : encode i = e.bytes v (decide (i.row.cls = .vex256)) i.row.op ++ modrm :: bs)
    (hw : WholeTail m e.pfx i.row.op modrm bs) : ∃ ob modrm bs, Layout m i ob modrm bs := by
  obtain ⟨hrex, ob, hob, hbytes⟩ := vexBytes_opcodeBytes m e v (decide (i.row.cls = .vex256)) i.row.op he
  exact ⟨ob, modrm, bs, hv ▸ hob, by simp [henc, hbytes, hp, hr], hp ▸ hw, by simp [hr, hrex], .inl hv,
    fun _ => hr.trans hrex⟩

theorem mmRmBytes_whole (m : Mode) (ps : List Pfx) (x b : Bool) (reg : BitVec 3) (c : MmRm)
    (h : mmRmWf m ps x b c = true) :
    ∃ modrm bs, mmRmBytes reg c = modrm :: bs ∧ bs.length = operandLen m ps modrm bs :=
  mmRmBytes_eq reg c ▸ rmBytes_whole m ps x b id id reg c (rmOk_mm m ps x b c h)

theorem xmmRmBytes_whole (m : Mode) (ps : List Pfx) (x b : Bool) (reg : BitVec 3) (c : XmmRm)
    (h : xmmRmWf m ps x b c = true) :
    ∃ modrm bs, xmmRmBytes reg c = modrm :: bs ∧ bs.length = operandLen m ps modrm bs :=
  xmmRmBytes_eq reg c ▸ rmBytes_whole m ps x b (regNum b) regField reg c (rmOk_xmm m ps x b c h)

/-- ModRM with mod 11 and /digit 4, and an immediate, are whole (R57, R59). -/
theorem immBytes_whole (m : Mode) (ps : List Pfx) (rm : BitVec 3) (imm : Byte) :
    modrmReg (byte233 3#2 4#3 rm) = 4#3 ∧ [imm].length = operandLen m ps (byte233 3#2 4#3 rm) [imm] + 1 := by
  simp [operandLen]

/-- Every instruction with well-formed fields, of any length, has a layout. -/
theorem exists_layout (m : Mode) (i : Instr) (h : i.fieldsWf m = true) : ∃ ob modrm bs, Layout m i ob modrm bs := by
  cases i <;> simp only [Instr.fieldsWf, Bool.and_eq_true] at h
  case psrawMm e dst c | psradMm e dst c =>
    obtain ⟨he, hc⟩ := h
    obtain ⟨modrm, bs, hb, hw⟩ := mmRmBytes_whole m e.pfx e.x e.b dst c hc
    exact layout_legacy m false e _ modrm bs he rfl rfl rfl (by rw [encode, hb]; rfl) hw
  case psrawXmm e dst c | psradXmm e dst c =>
    obtain ⟨⟨he, -⟩, hc⟩ := h
    obtain ⟨modrm, bs, hb, hw⟩ := xmmRmBytes_whole m e.pfx e.x e.b (regField dst) c hc
    exact layout_legacy m true e _ modrm bs he rfl rfl rfl (by rw [encode, hb]; rfl) hw
  case psrawMmImm e dst imm | psradMmImm e dst imm =>
    exact layout_legacy m false e _ _ [imm] h rfl rfl rfl rfl (immBytes_whole m e.pfx dst imm)
  case psrawXmmImm e dst imm | psradXmmImm e dst imm =>
    exact layout_legacy m true e _ _ [imm] h.1 rfl rfl rfl rfl (immBytes_whole m e.pfx (regField dst) imm)
  case vpsrawXmm e dst src c | vpsrawYmm e dst src c | vpsradXmm e dst src c | vpsradYmm e dst src c =>
    obtain ⟨⟨he, -⟩, hc⟩ := h
    obtain ⟨modrm, bs, hb, hw⟩ := xmmRmBytes_whole m e.pfx e.x e.b (regField dst) c hc
    exact layout_vex m e src _ modrm bs he rfl rfl rfl (by rw [encode, hb]; rfl) hw
  case vpsrawXmmImm e dst src imm | vpsrawYmmImm e dst src imm | vpsradXmmImm e dst src imm |
      vpsradYmmImm e dst src imm =>
    exact layout_vex m e dst _ _ [imm] h.1 rfl rfl rfl rfl (immBytes_whole m e.pfx (regField src) imm)

/-- An instruction of more than 15 bytes raises #GP(0). -/
theorem step_overlong_instr (s : State) (i : Instr) (hi : i.fieldsWf s.mode = true) (hlen : 15 < i.len)
    (hwin : s.window = (encode i).take 15) : step s = raise .gp := by
  obtain ⟨ob, modrm, bs, hl⟩ := exists_layout s.mode i hi
  have hlen' : (encode i).length = i.len := Laws.EncodeLength.all i
  rw [hl.bytes] at hwin hlen'
  exact step_overlong s hl.opcode i.pfx i.rex hl.reached hl.mode modrm bs hl.whole (hlen' ▸ hlen) hwin

/-- So does one made longer by LOCK, or by a prefix that R71 forbids in front of VEX. -/
theorem step_overlong_pfx (s : State) (i : Instr) (p q : List Pfx) (x : Pfx) (hi : i.fieldsWf s.mode = true)
    (hp : i.pfx = p ++ q)
    (hx : x = .lock ∨ ((i.row.cls = .vex128 ∨ i.row.cls = .vex256) ∧ (x = .opSize ∨ x = .repne ∨ x = .rep)))
    (hlen : 15 < i.len + 1) (hwin : s.window = (p.map Pfx.byte ++ (x.byte :: (encode i).drop p.length)).take 15) :
    step s = raise .gp := by
  obtain ⟨ob, modrm, bs, hl⟩ := exists_layout s.mode i hi
  have hlen' : (encode i).length = i.len := Laws.EncodeLength.all i
  have hbytes := hl.bytes
  rw [hp] at hbytes
  have hnew : p.map Pfx.byte ++ (x.byte :: (encode i).drop p.length) =
      (p ++ x :: q).map Pfx.byte ++ (rexBytes i.rex ++ (ob ++ modrm :: bs)) := by rw [hbytes]; simp
  have h67 : Pfx.addrSize ∈ p ++ x :: q ↔ Pfx.addrSize ∈ i.pfx := by
    rcases hx with rfl | ⟨-, rfl | rfl | rfl⟩ <;> simp [hp]
  have hr : RowReached i.isVex (p ++ x :: q) := by
    rcases hx with rfl | ⟨hc, -⟩
    · exact .inr (.inl (by simp))
    · exact .inl (decide_eq_true hc)
  rw [hnew] at hwin
  refine step_overlong s hl.opcode _ i.rex hr hl.mode modrm bs (hl.whole.otherPfx h67) ?_ hwin
  rw [← hlen', hbytes] at hlen
  simp only [List.map_append, List.map_cons, List.length_append, List.length_cons] at hlen ⊢
  omega

/-- And one made longer by a REX in front of VEX. -/
theorem step_overlong_rex (s : State) (i : Instr) (r : Rex) (hi : i.fieldsWf s.mode = true) (hm : s.mode = .mode64)
    (hc : i.row.cls = .vex128 ∨ i.row.cls = .vex256) (hlen : 15 < i.len + 1)
    (hwin : s.window = (i.pfx.map Pfx.byte ++ (r.byte :: (encode i).drop i.pfx.length)).take 15) :
    step s = raise .gp := by
  obtain ⟨ob, modrm, bs, hl⟩ := exists_layout s.mode i hi
  have hlen' : (encode i).length = i.len := Laws.EncodeLength.all i
  have hbytes := hl.bytes
  rw [hl.vexRex (decide_eq_true hc)] at hbytes
  have hnew : i.pfx.map Pfx.byte ++ (r.byte :: (encode i).drop i.pfx.length) =
      i.pfx.map Pfx.byte ++ (rexBytes (some r) ++ (ob ++ modrm :: bs)) := by rw [hbytes]; simp [rexBytes]
  rw [hnew] at hwin
  refine step_overlong s hl.opcode i.pfx (some r) hl.reached (by simp [hm]) modrm bs hl.whole ?_ hwin
  rw [← hlen', hbytes] at hlen
  simp only [rexBytes, List.length_append, List.length_cons, List.length_nil] at hlen ⊢
  omega

/-- An immediate row with mod other than 11, whole, and longer than 15 bytes raises #GP(0) and not #UD. -/
theorem step_overlong_memMod (s : State) (ps : List Pfx) (rex : Option Rex) (op : Op) (head : List Byte) (modrm : Byte)
    (rest : List Byte) (hm : rex.isSome = true → s.mode = .mode64) (hop : op = .o71 ∨ op = .o72)
    (hhead : Head s.mode ps rex op head) (h4 : modrmReg modrm = 4#3) (h3 : modrmMod modrm ≠ 3#2)
    (hrest : rest.length = memTail s.mode ps modrm rest + 1) (hlen : 15 < (head ++ modrm :: rest).length)
    (hwin : s.window = (head ++ modrm :: rest).take 15) : step s = raise .gp := by
  obtain ⟨vex, ob, hob, hr, rfl⟩ := opcodeBytes_of_head hhead
  have hw : WholeTail s.mode ps op modrm rest := by
    rcases hop with rfl | rfl <;> exact ⟨h4, by rw [operandLen, if_neg h3, hrest]⟩
  simp only [List.append_assoc] at hwin hlen
  exact step_overlong s hob ps rex hr (rex_mode s.mode rex hm) modrm rest hw hlen hwin

/-- Settles O15: prefixes alone and rows cut short are unfinished, and fifteen unfinished bytes raise #GP(0). -/
theorem overlongInstructionRaisesGp : Obligations.OverlongInstructionRaisesGp := by
  refine ⟨fun s ps hlen hwin => ?_, step_overlong_instr, step_overlong_pfx, step_overlong_rex, step_overlong_memMod⟩
  exact step_of_fifteen_short s (by rw [hwin, List.length_map, hlen]) (by rw [hwin]; exact decode_pfxOnly s.mode ps)

end Sys2Proof
end

section
/-! The address of a memory operand (30_encoding.md R61 to R64, 20_memory.md R32): the sums in 64 and in 32 bits, the
segment, and the linear address of each byte. -/

namespace Sys2Proof.Machine

/-! ### The effective address -/

/-- The index register shifted left by the scale is its product with 1, 2, 4 or 8 (R62). -/
theorem shiftLeft_scale (a : Addr) (sc : BitVec 2) : a <<< sc.toNat = a * BitVec.ofNat 64 (2 ^ sc.toNat) := by
  apply BitVec.eq_of_toNat_eq
  simp [Nat.shiftLeft_eq]

/-- The index of a SIB form, as a product (R62). -/
theorem indexValue_scaled (s : State) (sc : BitVec 2) (x : BitVec 4) :
    s.indexValue x <<< sc.toNat = if x = 4#4 then 0#64 else s.gprAt x * BitVec.ofNat 64 (2 ^ sc.toNat) := by
  unfold State.indexValue
  split_ifs
  · simp
  · exact shiftLeft_scale _ _

theorem wideAddr_iff (m : Mode) (ps : List Pfx) : wideAddr m ps = true ↔ m = .mode64 ∧ Pfx.addrSize ∉ ps := by
  cases m <;> simp [wideAddr]

/-- Settles O49: with 64-bit addresses the sum of R61 and R62 is not cut. -/
theorem effectiveAddressForms : Obligations.EffectiveAddressForms := by
  intro s i hm h67 d8 d32
  have hea : ∀ f, (s.access i f).ea = s.ea64 i.len f := fun f => by
    simp [State.access, (wideAddr_iff s.mode i.pfx).2 ⟨hm, h67⟩, trunc]
  refine ⟨fun b => ⟨?_, ?_, ?_⟩, fun sc x b => ?_, ?_⟩
  · simp [hea, State.ea64, Disp.value]
  · rw [hea]; rfl
  · rw [hea]; rfl
  · simp [hea, State.ea64, Disp.value, indexValue_scaled]
  · simp [hea, State.ea64, hm]

/-- A displacement of 8 bits is sign-extended to the address size (R61). -/
theorem setWidth_signExtend8 (d : BitVec 8) : (d.signExtend 64).setWidth 32 = d.signExtend 32 := by
  revert d; decide

theorem setWidth_signExtend32 (d : BitVec 32) : (d.signExtend 64).setWidth 32 = d := by
  ext j hj
  simp [BitVec.getLsbD_signExtend, hj]; omega

theorem setWidth_add32 (a b : Addr) : (a + b).setWidth 32 = a.setWidth 32 + b.setWidth 32 :=
  BitVec.setWidth_add a b (by decide)

/-- The index of a SIB form in 32 bits (R62). -/
theorem setWidth_indexValue (s : State) (sc : BitVec 2) (x : BitVec 4) :
    (s.indexValue x <<< sc.toNat).setWidth 32 =
      if x = 4#4 then 0#32 else (s.gprAt x).setWidth 32 * BitVec.ofNat 32 (2 ^ sc.toNat) := by
  rw [indexValue_scaled]
  split_ifs
  · rfl
  · rw [BitVec.setWidth_mul _ _ (by decide), BitVec.setWidth_ofNat_of_le (by decide)]

/-- Settles O50: the sum of R61 and R62 taken to 32 bits term by term. -/
theorem shortEffectiveAddressForms : Obligations.ShortEffectiveAddressForms := by
  intro s i hshort ea reg
  have hnarrow : wideAddr s.mode i.pfx = false := by
    rw [Bool.eq_false_iff, ne_eq, wideAddr_iff]
    rintro ⟨hm, h67⟩
    rcases hshort with ⟨hm', -⟩ | ⟨-, h67'⟩
    · simp [hm] at hm'
    · exact h67 h67'
  have hacc : ∀ f, (s.access i f).ea = ((s.ea64 i.len f).setWidth 32).setWidth 64 := fun f => by
    simp [State.access, hnarrow, trunc]
  have hea : ∀ f, ea f = (s.ea64 i.len f).setWidth 32 := fun f => by
    simp only [ea, hacc]
    exact BitVec.setWidth_setWidth_of_le _ (by decide)
  refine ⟨fun f => ?_, fun d8 d32 => ⟨fun b => ?_, fun sc x b => ?_, fun hm => ?_, fun hm => ?_⟩⟩
  · rw [hacc, BitVec.toNat_setWidth_of_le (by decide)]
    exact BitVec.isLt _
  · simp only [hea, State.ea64, Disp.value, setWidth_add32, setWidth_signExtend8, setWidth_signExtend32]
    simp [reg]
  · simp only [hea, State.ea64, Disp.value, setWidth_add32, setWidth_signExtend8, setWidth_signExtend32,
      setWidth_indexValue]
    simp [reg]
  · simp only [hea, State.ea64, hm, setWidth_signExtend32]
  · simp only [hea, State.ea64, hm, setWidth_add32, setWidth_signExtend32]
    rw [BitVec.setWidth_ofNat_of_le (by decide)]

/-! ### The segment -/

theorem lastOverride_append (ps qs : List Pfx) (r : SegReg) (h : lastOverride qs = some r) :
    lastOverride (ps ++ qs) = some r := by
  induction ps with
  | nil => exact h
  | cons p ps ih => simp [lastOverride, ih]

theorem lastOverride_none (ps : List Pfx) (h : ∀ r, Pfx.seg r ∉ ps) : lastOverride ps = none := by
  induction ps with
  | nil => rfl
  | cons p ps ih =>
    have hps : lastOverride ps = none := ih fun r hr => h r (List.mem_cons_of_mem p hr)
    cases p with
    | seg r => exact absurd List.mem_cons_self (h r)
    | _ => simp [lastOverride, hps]

/-- The default segment of a base register, by its number (R63). -/
theorem baseSeg_cases (m : Mode) (b : BitVec 4) :
    (effNum m b = 4#4 ∨ effNum m b = 5#4 → baseSeg m b = .seg .ss) ∧
    (effNum m b = 12#4 ∨ effNum m b = 13#4 → baseSeg m b = .dsOrSs (effNum m b)) ∧
    (effNum m b ∉ [4#4, 5#4, 12#4, 13#4] → baseSeg m b = .seg .ds) := by
  unfold baseSeg
  generalize effNum m b = n
  refine ⟨fun h => if_pos h, fun h => ?_, fun h => ?_⟩
  · have h45 : ¬ (n = 4#4 ∨ n = 5#4) := by rcases h with rfl | rfl <;> decide
    simp [h45, h]
  · simp only [List.mem_cons, List.not_mem_nil, or_false, not_or] at h
    simp [h]

/-- Settles O51: an override wins over the default segment of the form. -/
theorem operandSegmentSelection : Obligations.OperandSegmentSelection := by
  intro s i
  have hdef (hno : ∀ r, Pfx.seg r ∉ i.pfx) (f : MemForm) : (s.access i f).seg = defaultSeg s.mode f := by
    simp [State.access, operandSeg, lastOverride_none i.pfx hno]
  refine ⟨fun f p q r hp hq => ?_, fun hno => ⟨fun f b hf => ?_, fun f hf => ?_⟩⟩
  · have hlast : lastOverride (.seg r :: q) = some r := by simp [lastOverride, lastOverride_none q hq]
    simp [State.access, operandSeg, hp, lastOverride_append p _ r hlast]
  · have hseg : (s.access i f).seg = baseSeg s.mode b := by
      rcases hf with ⟨d, rfl⟩ | ⟨sc, x, d, rfl⟩ <;> simp [hdef hno, defaultSeg]
    rw [hseg]
    exact baseSeg_cases s.mode b
  · rcases hf with ⟨sc, x, d, rfl⟩ | ⟨d, rfl⟩ <;> simp [hdef hno, defaultSeg]

/-! ### The linear address -/

theorem access_wide (s : State) (i : Instr) (f : MemForm) : (s.access i f).wide = wideAddr s.mode i.pfx := rfl

/-- The offset of byte `k` with 64-bit addresses, and with 32-bit addresses (R32). -/
theorem access_offset (s : State) (i : Instr) (f : MemForm) (k : Nat) :
    (s.access i f).offset k =
      if wideAddr s.mode i.pfx then (s.access i f).ea + BitVec.ofNat 64 k
      else ((s.access i f).ea.setWidth 32 + BitVec.ofNat 32 k).setWidth 64 := by
  simp only [Access.offset, trunc, access_wide, setWidth_add32, BitVec.setWidth_ofNat_of_le (show 32 ≤ 64 by decide)]

theorem byteAddr_mode64 (s : State) (a : Access) (k : Nat) (hm : s.mode = .mode64) :
    s.byteAddr a k = s.segBase a.seg + a.offset k := by
  simp [State.byteAddr, State.linear, trunc, hm]

/-- In Mode64 only FS and GS have a base (R64). -/
theorem segBase_mode64_other (s : State) (g : SegSel) (hm : s.mode = .mode64) (hfs : g ≠ .seg .fs)
    (hgs : g ≠ .seg .gs) : s.segBase g = 0#64 := by
  unfold State.segBase
  rw [hm]
  split <;> simp_all

/-- Settles O52: the offset in the width of the effective address, and the base of the segment by mode. -/
theorem linearAddressOfByte : Obligations.LinearAddressOfByte := by
  constructor
  · intro s i f k hm a off
    have hoff : a.offset k = off := by
      rw [access_offset]
      by_cases h67 : Pfx.addrSize ∈ i.pfx <;> simp [a, off, wideAddr, hm, h67]
    rw [byteAddr_mode64 s a k hm, hoff]
    refine ⟨fun hg => ?_, fun hg => ?_, fun hfs hgs => ?_⟩
    · simp [State.segBase, hm, hg]
    · simp [State.segBase, hm, hg]
    · rw [segBase_mode64_other s a.seg hm hfs hgs, BitVec.zero_add]
  · intro s i f k hm h67 a
    have hoff : a.offset k = (a.ea.setWidth 32 + BitVec.ofNat 32 k).setWidth 64 := by
      rw [access_offset, hm]; rfl
    have hlin : s.byteAddr a k = ((s.segOf a.seg).base.setWidth 32 +
        (a.ea.setWidth 32 + BitVec.ofNat 32 k)).setWidth 64 := by
      simp only [State.byteAddr, State.linear, trunc, hm, State.segBase, hoff, setWidth_add32]
      simp
    rw [hlin, BitVec.toNat_setWidth_of_le (by decide), BitVec.setWidth_setWidth_of_le _ (by decide)]
    exact ⟨BitVec.isLt _, BitVec.setWidth_eq _⟩

end Sys2Proof.Machine
end

section
/-! The shift of one element and of a vector of elements (40_shift_core.md R90 to R95): capping the count at the width
loses nothing, so `sra16` and `sra32` are the arithmetic shift by the count itself. -/

namespace Sys2Proof.Machine

/-! ### One element -/

/-- Bit `i` of an arithmetic shift, with the top bit for every place beyond it. -/
theorem getLsbD_sshiftRight_of_lt {w : Nat} (x : BitVec w) (c i : Nat) (hi : i < w) :
    (x.sshiftRight c).getLsbD i = if i + c ≤ w - 1 then x.getLsbD (i + c) else x.getLsbD (w - 1) := by
  have hle : i + c < w ↔ i + c ≤ w - 1 := by omega
  rw [BitVec.getLsbD_sshiftRight, BitVec.msb_eq_getLsbD_last]
  simp only [Nat.not_le.mpr hi, decide_false, Bool.not_false, Bool.true_and, Nat.add_comm c i, hle]

/-- From the width less one on, the arithmetic shift gives the sign in every bit. -/
theorem sshiftRight_sign_fill {w : Nat} (x : BitVec w) (c : Nat) (hc : w ≤ c + 1) :
    x.sshiftRight c = if x.msb then BitVec.allOnes w else 0#w := by
  have hbit (j : Nat) (hj : j < w) : (x.sshiftRight c)[j] = x.msb := by
    rw [← BitVec.getLsbD_eq_getElem, getLsbD_sshiftRight_of_lt x c j hj, BitVec.msb_eq_getLsbD_last]
    split_ifs with hlast
    · rw [show j + c = w - 1 by omega]
    · rfl
  ext j hj
  rw [hbit j hj]
  cases x.msb <;> simp

/-- The cap of R90 and R91 loses nothing: the width as count shifts as any greater one does. -/
theorem sshiftRight_width_eq {w : Nat} (x : BitVec w) (c : Nat) (hc : w ≤ c) : x.sshiftRight w = x.sshiftRight c := by
  rw [sshiftRight_sign_fill x w (Nat.le_succ w), sshiftRight_sign_fill x c (Nat.le_succ_of_le hc)]

theorem sra16_eq_sshiftRight (x : BitVec 16) (c : Nat) : sra16 x c = x.sshiftRight c := by
  unfold sra16
  split_ifs with hc
  · exact sshiftRight_width_eq x c hc
  · rfl

theorem sra32_eq_sshiftRight (x : BitVec 32) (c : Nat) : sra32 x c = x.sshiftRight c := by
  unfold sra32
  split_ifs with hc
  · exact sshiftRight_width_eq x c hc
  · rfl

/-- The arithmetic shift is division by `2 ^ c` with the quotient rounded down. -/
theorem toInt_sshiftRight_eq_fdiv {w : Nat} (x : BitVec w) (c : Nat) : (x.sshiftRight c).toInt = x.toInt.fdiv (2 ^ c) := by
  rw [BitVec.toInt_sshiftRight, Int.shiftRight_eq_div_pow, Int.fdiv_eq_ediv_of_nonneg _ (by positivity)]
  push_cast
  rfl

theorem allOnes_sshiftRight (w c : Nat) : (BitVec.allOnes w).sshiftRight c = BitVec.allOnes w := by
  rw [← BitVec.not_zero, ← BitVec.not_sshiftRight, BitVec.zero_sshiftRight]

/-- Settles O16: the bits of the arithmetic shift at width 16. -/
theorem wordShiftBits : Obligations.WordShiftBits := by
  intro x c i hi
  rw [sra16_eq_sshiftRight, getLsbD_sshiftRight_of_lt x c i hi]

/-- Settles O17: the bits of the arithmetic shift at width 32. -/
theorem doublewordShiftBits : Obligations.DoublewordShiftBits := by
  intro x c i hi
  rw [sra32_eq_sshiftRight, getLsbD_sshiftRight_of_lt x c i hi]

/-- Settles O18: each law is one of the arithmetic shift at any width, taken at 16 and at 32. -/
theorem shiftLaws : Obligations.ShiftLaws := by
  unfold Obligations.ShiftLaws
  simp only [sra16_eq_sshiftRight, sra32_eq_sshiftRight]
  refine ⟨fun x => BitVec.sshiftRight_zero, fun x => BitVec.sshiftRight_zero,
    toInt_sshiftRight_eq_fdiv, toInt_sshiftRight_eq_fdiv, fun x c hc => ?_, fun x c hc => ?_,
    fun x a b => BitVec.sshiftRight_add.symm, fun x a b => BitVec.sshiftRight_add.symm, fun c => ?_⟩
  · exact sshiftRight_sign_fill x c (Nat.succ_le_succ hc)
  · exact sshiftRight_sign_fill x c (Nat.succ_le_succ hc)
  · exact ⟨BitVec.zero_sshiftRight, allOnes_sshiftRight 16 c, BitVec.zero_sshiftRight, allOnes_sshiftRight 32 c⟩

/-- Settles O21: the fourteen elements of R99, each evaluated. -/
theorem workedElements : Obligations.WorkedElements := by
  unfold Obligations.WorkedElements
  decide

/-! ### A vector of elements -/

/-- The three vector lengths of R94 and R95 are whole numbers of doublewords. -/
theorem vector_length_dvd {n : Nat} (hn : n = 64 ∨ n = 128 ∨ n = 256) : 32 ∣ n := by
  rcases hn with rfl | rfl | rfl <;> decide

/-- Lane `k` of a vector of whole lanes ends within it. -/
theorem lane_end_le {n w k : Nat} (hd : w ∣ n) (hk : k < n / w) : w * (k + 1) ≤ n :=
  (Nat.mul_le_mul_left w hk).trans_eq (Nat.mul_div_cancel' hd)

/-- Settles O19: `extractLsb'_mapLanes` with lanes of 16 bits. -/
theorem wordsShiftIndependently : Obligations.WordsShiftIndependently := by
  intro n hn x c k hk
  have hd : 16 ∣ n := Nat.dvd_trans (by decide) (vector_length_dvd hn)
  exact extractLsb'_mapLanes 16 (sra16 · c) x k (by decide) hd (lane_end_le hd hk)

/-- Settles O20: `extractLsb'_mapLanes` with lanes of 32 bits. -/
theorem doublewordsShiftIndependently : Obligations.DoublewordsShiftIndependently := by
  intro n hn x c k hk
  have hd : 32 ∣ n := vector_length_dvd hn
  exact extractLsb'_mapLanes 32 (sra32 · c) x k (by decide) hd (lane_end_le hd hk)

end Sys2Proof.Machine
end

section
/-! Completion of a row with its result and its whole frame (10_state.md R13, R22; 70_reset_and_hazards.md R152): the
checks pass, the lanes are the arithmetic shift, and one lemma per class says what its write leaves behind. Nothing there
depends on the element width; the rows of PSRAW and VPSRAW (41_psraw.md R100 to R107) follow. -/

namespace Sys2Proof.Machine

/-! ### The lanes of a result -/

/-- A lane function that is the arithmetic shift by `c`, on whole lanes, gives `ShiftedRight` (R94, R95). -/
theorem shiftedRight_mapLanes {n w c : Nat} (f : BitVec w → BitVec w) (x : BitVec n) (hw : 0 < w) (hd : w ∣ n)
    (hf : ∀ y, f y = y.sshiftRight c) : ShiftedRight w c x (mapLanes w f x (n / w)) := by
  intro b hb
  have hlt : b % w < w := Nat.mod_lt b hw
  have hb' : w * (b / w) + b % w = b := Nat.div_add_mod b w
  rw [getLsbD_mapLanes_all w f x b hw hd hb, hf, getLsbD_sshiftRight_of_lt _ c _ hlt]
  split_ifs with hc
  · rw [BitVec.getLsbD_extractLsb', decide_eq_true (by omega), Bool.true_and, min_eq_left (by omega),
      ← Nat.add_assoc, hb']
  · rw [BitVec.getLsbD_extractLsb', decide_eq_true (by omega), Bool.true_and, min_eq_right (by omega)]

theorem shiftedRight_sraWords {n : Nat} (x : BitVec n) (c : Nat) (hd : 16 ∣ n) : ShiftedRight 16 c x (sraWords x c) :=
  shiftedRight_mapLanes _ x (by decide) hd fun y => sra16_eq_sshiftRight y c

/-! ### The checks pass under the premises of R152 -/

/-- The premises of the MMX rows exclude every #UD, #NM and #MF. -/
theorem MmxReady.passes {s : State} {i : Instr} (h : MmxReady s) (hwf : i.wf s.mode = true) (hc : i.row.cls = .mmx)
    (hn : i.row.needs = .mmx) : PrecheckPasses s i := by
  refine ⟨wf_noUd s i hwf ?_ ?_, h.ts, fun _ => h.pending⟩
  · rw [hn]; exact h.flag
  · rw [hc]; exact h.em

/-- The premises of the legacy SSE2 rows exclude every #UD and #NM; #MF is not theirs. -/
theorem Sse2Ready.passes {s : State} {i : Instr} (h : Sse2Ready s) (hwf : i.wf s.mode = true) (hc : i.row.cls = .sse2)
    (hn : i.row.needs = .sse2) : PrecheckPasses s i := by
  refine ⟨wf_noUd s i hwf ?_ ?_, h.ts, by simp [hc]⟩
  · rw [hn]; exact h.flag
  · rw [hc]; exact ⟨h.em, h.osfxsr⟩

/-- The premises of the VEX rows, for the flag the row needs, exclude every #UD and #NM. -/
theorem VexReady.passes {s : State} {i : Instr} (h : VexReady s i.row.needs) (hwf : i.wf s.mode = true)
    (hc : i.row.cls = .vex128 ∨ i.row.cls = .vex256) : PrecheckPasses s i := by
  rcases hc with hc | hc
  all_goals
    refine ⟨wf_noUd s i hwf h.flag ?_, h.ts, by simp [hc]⟩
    rw [hc]
    exact ⟨h.avxFlag, h.osxsave, h.sse, h.avx⟩

/-! ### Completion -/

/-- The instruction gives a next state that meets `P`, with pc past it, these device reads recorded, and nothing of
`SameSystem` changed. -/
def CompletesWith (s : State) (i : Instr) (P : State → Prop) (l : List DeviceRead) : Prop :=
  ∃ t, exec i s = .next t ∧ P t ∧ Advanced s t i ∧ t.deviceReads = l ∧ SameSystem s t

/-- The reads recorded with the count operand are those `CountNoted` asks for. -/
theorem CompletesWith.noted {s : State} {i : Instr} {P : State → Prop} {l : List DeviceRead} {w n : Nat}
    {count : RegMem w} (h : CompletesWith s i P l) (hn : ∀ t : State, t.deviceReads = l → CountNoted s t i n count) :
    ∃ t, exec i s = .next t ∧ P t ∧ Advanced s t i ∧ CountNoted s t i n count ∧ SameSystem s t := by
  obtain ⟨t, ht, hP, hadv, hl, hsys⟩ := h
  exact ⟨t, ht, hP, hadv, hn t hl, hsys⟩

/-- An instruction whose checks pass and whose body completes from `v` ends in `v` with pc moved. -/
theorem completesWith_of_body {s v : State} {i : Instr} {P : State → Prop} {l : List DeviceRead}
    (hwf : i.wf s.mode = true) (hp : PrecheckPasses s i) (hb : s.body i = State.complete { v with deviceReads := l } i)
    (hw : NoWrap v i) (hP : P (v.moved i l)) : CompletesWith s i P l := by
  have h : exec i s = .next (v.moved i l) := by
    rw [exec_checked, checked_passes s i _ (wf_not_reserved s.mode i hwf) hp, hb]
    exact complete_next { v with deviceReads := l } i hw
  have hnext := exec_next i s _ h
  exact ⟨v.moved i l, h, hP, hnext.advanced, rfl, hnext.frame.1⟩

/-- A row that reads an `mm/m64` operand that holds the count `c` goes on with `c`, with the read recorded. -/
theorem body_countMm {s : State} {i : Instr} {c : Nat} {count : MmRm} {k : Nat → State → Result}
    (hb : s.body i = s.withCountMm i count k) (hwf : i.wf s.mode = true)
    (hm : ∀ f, count = .mem f → memOperand i = some f) (hc : CountMm s i c count) :
    ∃ l, s.body i = k c { s with deviceReads := l } ∧ ∀ t : State, t.deviceReads = l → CountNoted s t i 8 count := by
  obtain ⟨u, hu, ⟨l, rfl⟩, hn⟩ := withCountMm_count s i count c k (fun f hf => wf_not_addr16 s.mode i f hwf (hm f hf)) hc
  exact ⟨l, hb.trans hu, hn⟩

/-- The same of an `xmm/m128` operand, aligned where the rule is that of the legacy SSE2 rows. -/
theorem body_countXmm {s : State} {i : Instr} {c : Nat} {count : XmmRm} {k : Nat → State → Result}
    (hb : s.body i = s.withCountXmm i (alignRule i) count k) (hcls : i.row.cls ≠ .mmx) (hwf : i.wf s.mode = true)
    (hm : ∀ f, count = .mem f → memOperand i = some f) (hc : CountXmm s i (alignRule i == .sse16) c count) :
    ∃ l, s.body i = k c { s with deviceReads := l } ∧ ∀ t : State, t.deviceReads = l → CountNoted s t i 16 count := by
  obtain ⟨u, hu, ⟨l, rfl⟩, hn⟩ := withCountXmm_count s i (alignRule i) count c k (mt (alignRule_eq_mmx8 i).1 hcls)
    (fun f hf => wf_not_addr16 s.mode i f hwf (hm f hf)) hc
  exact ⟨l, hb.trans hu, hn⟩

theorem moved_xmmAt_setYmm (s : State) (i : Instr) (l : List DeviceRead) (d : BitVec 4) (y x : XmmWord) :
    ((s.setYmm d (y ++ x)).moved i l).xmmAt d = x := by
  rw [State.xmmAt, moved_ymmAt, ymmAt_setYmm, extractLsb'_low]

section
variable {s : State} {i : Instr} {w c : Nat} {l : List DeviceRead} (hwf : i.wf s.mode = true) (hw : NoWrap s i)
include hwf hw

theorem completesWith_mmShifted {d : BitVec 3} {x : MmWord} (hr : MmxReady s) (hc : i.row.cls = .mmx)
    (hn : i.row.needs = .mmx) (hx : ShiftedRight w c (s.mmAt d) x)
    (hb : s.body i = State.completeMmx (State.setMm { s with deviceReads := l } d x) i) :
    CompletesWith s i (MmShifted s · w c d) l := by
  refine completesWith_of_body (v := { s.setMm d x with x87 := (s.setMm d x).x87.afterMmx }) hwf
    (hr.passes hwf hc hn) hb hw ⟨?_, fun r hne => mmAt_setMm_other s d r x hne, rfl, afterMmx_marked s.x87 d⟩
  exact (mmAt_setMm s d x).symm ▸ hx

theorem completesWith_xmmShiftedKeep {d : BitVec 4} {x : XmmWord} (hr : Sse2Ready s) (hc : i.row.cls = .sse2)
    (hn : i.row.needs = .sse2) (hx : ShiftedRight w c (s.xmmAt d) x)
    (hb : s.body i = State.complete (State.setXmmKeep { s with deviceReads := l } d x) i) :
    CompletesWith s i (XmmShiftedKeep s · w c d) l := by
  refine completesWith_of_body (v := s.setXmmKeep d x) hwf (hr.passes hwf hc hn) hb hw ⟨?_, ?_, onlyVec_setYmm s i l d _⟩
  · rwa [setXmmKeep_eq, moved_xmmAt_setYmm]
  · rw [moved_ymmAt, setXmmKeep_eq, ymmAt_setYmm]
    exact getLsbD_keep (s.ymmAt d) x

theorem completesWith_xmmShiftedZero {d src : BitVec 4} {x : XmmWord} (hr : VexReady s i.row.needs)
    (hc : i.row.cls = .vex128) (hx : ShiftedRight w c (s.xmmAt src) x)
    (hb : s.body i = State.complete (State.setXmmZero { s with deviceReads := l } d x) i) :
    CompletesWith s i (XmmShiftedZero s · w c d src) l := by
  refine completesWith_of_body (v := s.setXmmZero d x) hwf (hr.passes hwf (.inl hc)) hb hw
    ⟨?_, ?_, onlyVec_setYmm s i l d _⟩
  · rwa [setXmmZero_eq, moved_xmmAt_setYmm]
  · rw [moved_ymmAt, setXmmZero_eq, ymmAt_setYmm]
    exact getLsbD_zero x

theorem completesWith_ymmShifted {d src : BitVec 4} {y : YmmWord} (hr : VexReady s i.row.needs)
    (hc : i.row.cls = .vex256) (hy : ShiftedRight w c (s.ymmAt src) y)
    (hb : s.body i = State.complete (State.setYmm { s with deviceReads := l } d y) i) :
    CompletesWith s i (YmmShifted s · w c d src) l := by
  refine completesWith_of_body (v := s.setYmm d y) hwf (hr.passes hwf (.inr hc)) hb hw ⟨?_, onlyVec_setYmm s i l d y⟩
  rwa [moved_ymmAt, ymmAt_setYmm]

end

/-! ### PSRAW and VPSRAW -/

/-- Settles O24: an MMX completion with no count operand. -/
theorem psrawMmImmShiftsWords : Obligations.PsrawMmImmShiftsWords := by
  intro s e d imm i hwf hr hw
  exact completesWith_mmShifted hwf hw hr rfl rfl (shiftedRight_sraWords _ _ (by decide)) rfl

/-- Settles O25: a legacy SSE2 completion with no count operand. -/
theorem psrawXmmImmShiftsWords : Obligations.PsrawXmmImmShiftsWords := by
  intro s e d imm i hwf hr hw
  exact completesWith_xmmShiftedKeep hwf hw hr rfl rfl (shiftedRight_sraWords _ _ (by decide)) rfl

/-- Settles O27: a VEX.128 completion with no count operand. -/
theorem vpsrawXmmImmShiftsWords : Obligations.VpsrawXmmImmShiftsWords := by
  intro s e d src imm i hwf hr hw
  exact completesWith_xmmShiftedZero hwf hw hr rfl (shiftedRight_sraWords _ _ (by decide)) rfl

/-- Settles O29: a VEX.256 completion with no count operand. -/
theorem vpsrawYmmImmShiftsWords : Obligations.VpsrawYmmImmShiftsWords := by
  intro s e d src imm i hwf hr hw
  exact completesWith_ymmShifted hwf hw hr rfl (shiftedRight_sraWords _ _ (by decide)) rfl

/-- Settles O22: the count is read, then the row completes as with that number. -/
theorem psrawMmShiftsWords : Obligations.PsrawMmShiftsWords := by
  intro s e d count c i hwf hr hc hw
  obtain ⟨l, hb, hnote⟩ := body_countMm (i := i) (by delta State.body; rfl) hwf (by rintro f rfl; rfl) hc
  exact (completesWith_mmShifted hwf hw hr rfl rfl (shiftedRight_sraWords _ _ (by decide)) hb).noted hnote

/-- Settles O23: the aligned count is read, then the row completes as with that number. -/
theorem psrawXmmShiftsWords : Obligations.PsrawXmmShiftsWords := by
  intro s e d count c i hwf hr hc hw
  obtain ⟨l, hb, hnote⟩ := body_countXmm (i := i) (by delta State.body; rfl) nofun hwf (by rintro f rfl; rfl) hc
  exact (completesWith_xmmShiftedKeep hwf hw hr rfl rfl (shiftedRight_sraWords _ _ (by decide)) hb).noted hnote

/-- Settles O26: the count is read at any alignment, then the row completes as with that number. -/
theorem vpsrawXmmShiftsWords : Obligations.VpsrawXmmShiftsWords := by
  intro s e d src count c i hwf hr hc hw
  obtain ⟨l, hb, hnote⟩ := body_countXmm (i := i) (by delta State.body; rfl) nofun hwf (by rintro f rfl; rfl) hc
  exact (completesWith_xmmShiftedZero hwf hw hr rfl (shiftedRight_sraWords _ _ (by decide)) hb).noted hnote

/-- Settles O28: the one count is read at any alignment, then the row completes as with that number. -/
theorem vpsrawYmmShiftsWords : Obligations.VpsrawYmmShiftsWords := by
  intro s e d src count c i hwf hr hc hw
  obtain ⟨l, hb, hnote⟩ := body_countXmm (i := i) (by delta State.body; rfl) nofun hwf (by rintro f rfl; rfl) hc
  exact (completesWith_ymmShifted hwf hw hr rfl (shiftedRight_sraWords _ _ (by decide)) hb).noted hnote

end Sys2Proof.Machine
end

section
/-! PSRAD and VPSRAD complete with their doublewords shifted (42_psrad.md R110 to R117): the completion lemma of each
class, taken with lanes of 32 bits. -/

namespace Sys2Proof.Machine

theorem shiftedRight_sraDwords {n : Nat} (x : BitVec n) (c : Nat) (hd : 32 ∣ n) : ShiftedRight 32 c x (sraDwords x c) :=
  shiftedRight_mapLanes _ x (by decide) hd fun y => sra32_eq_sshiftRight y c

/-! ### The count is the immediate -/

/-- Settles O32: an MMX completion with no count operand. -/
theorem psradMmImmShiftsDoublewords : Obligations.PsradMmImmShiftsDoublewords := by
  intro s e d imm i hwf hr hw
  exact completesWith_mmShifted hwf hw hr rfl rfl (shiftedRight_sraDwords _ _ (by decide)) rfl

/-- Settles O33: a legacy SSE2 completion with no count operand. -/
theorem psradXmmImmShiftsDoublewords : Obligations.PsradXmmImmShiftsDoublewords := by
  intro s e d imm i hwf hr hw
  exact completesWith_xmmShiftedKeep hwf hw hr rfl rfl (shiftedRight_sraDwords _ _ (by decide)) rfl

/-- Settles O35: a VEX.128 completion with no count operand. -/
theorem vpsradXmmImmShiftsDoublewords : Obligations.VpsradXmmImmShiftsDoublewords := by
  intro s e d src imm i hwf hr hw
  exact completesWith_xmmShiftedZero hwf hw hr rfl (shiftedRight_sraDwords _ _ (by decide)) rfl

/-- Settles O37: a VEX.256 completion with no count operand. -/
theorem vpsradYmmImmShiftsDoublewords : Obligations.VpsradYmmImmShiftsDoublewords := by
  intro s e d src imm i hwf hr hw
  exact completesWith_ymmShifted hwf hw hr rfl (shiftedRight_sraDwords _ _ (by decide)) rfl

/-! ### The count is an operand -/

/-- Settles O30: `body_countMm` reads the count, and the MMX row completes with that number. -/
theorem psradMmShiftsDoublewords : Obligations.PsradMmShiftsDoublewords := by
  intro s e d count c i hwf hr hc hw
  obtain ⟨l, hb, hnote⟩ := body_countMm (i := i) (by delta State.body; rfl) hwf (by rintro f rfl; rfl) hc
  exact (completesWith_mmShifted hwf hw hr rfl rfl (shiftedRight_sraDwords _ _ (by decide)) hb).noted hnote

/-- Settles O31: `body_countXmm` reads the count, aligned where it is in memory, and the legacy SSE2 row completes with
that number. -/
theorem psradXmmShiftsDoublewords : Obligations.PsradXmmShiftsDoublewords := by
  intro s e d count c i hwf hr hc hw
  obtain ⟨l, hb, hnote⟩ := body_countXmm (i := i) (by delta State.body; rfl) nofun hwf (by rintro f rfl; rfl) hc
  exact (completesWith_xmmShiftedKeep hwf hw hr rfl rfl (shiftedRight_sraDwords _ _ (by decide)) hb).noted hnote

/-- Settles O34: `body_countXmm` reads the count at any alignment, and the VEX.128 row completes with that number. -/
theorem vpsradXmmShiftsDoublewords : Obligations.VpsradXmmShiftsDoublewords := by
  intro s e d src count c i hwf hr hc hw
  obtain ⟨l, hb, hnote⟩ := body_countXmm (i := i) (by delta State.body; rfl) nofun hwf (by rintro f rfl; rfl) hc
  exact (completesWith_xmmShiftedZero hwf hw hr rfl (shiftedRight_sraDwords _ _ (by decide)) hb).noted hnote

/-- Settles O36: `body_countXmm` reads the one count at any alignment, and the VEX.256 row completes with that number. -/
theorem vpsradYmmShiftsDoublewords : Obligations.VpsradYmmShiftsDoublewords := by
  intro s e d src count c i hwf hr hc hw
  obtain ⟨l, hb, hnote⟩ := body_countXmm (i := i) (by delta State.body; rfl) nofun hwf (by rintro f rfl; rfl) hc
  exact (completesWith_ymmShifted hwf hw hr rfl (shiftedRight_sraDwords _ _ (by decide)) hb).noted hnote

end Sys2Proof.Machine
end

section
/-! The exceptions of an instruction (60_exceptions.md R120 to R134): which condition raises which, in the order of R129, which
faults a row can have at all, and that the privilege level enters through page protection and alignment checking alone. -/

namespace Sys2Proof.Machine

/-! ### Vectors and codes -/

/-- Settles O47: R120's table is the value of each exception. -/
theorem exceptionVectors : Obligations.ExceptionVectors :=
  ⟨rfl, rfl, rfl, rfl, fun _ _ => rfl, rfl, rfl⟩

/-- The outcome tells the exception: the vector tells the constructor, code and address tell two page faults apart. -/
theorem raise_inj (e e' : Exc) : raise e = raise e' ↔ e = e' := by
  refine ⟨fun h => ?_, fun h => h ▸ rfl⟩
  obtain ⟨hv, hc, ha⟩ : e.vector = e'.vector ∧ e.code = e'.code ∧ e.address = e'.address := by simpa [raise] using h
  cases e <;> cases e'
  case pf.pf => cases hc; cases ha; rfl
  all_goals simp [Exc.vector] at hv ⊢

/-! ### Precheck -/

/-- What `Precheck` finds on a well-formed instruction is the outcome of the instruction. -/
theorem exec_of_precheck {s : State} {i : Instr} {e : Exc} (hwf : i.wf s.mode = true) (h : s.precheck i = some e) :
    exec i s = raise e := by
  rw [exec_checked, checked_raises s i _ e (wf_not_reserved s.mode i hwf) h]

theorem precheck_ud {s : State} {i : Instr} (h : ¬ NoUd s i) : s.precheck i = some .ud := by
  rw [← udCond_eq_false, Bool.not_eq_false] at h
  exact if_pos h

theorem precheck_of_noUd {s : State} {i : Instr} (h : NoUd s i) :
    s.precheck i = if s.env.TS then some .nm else if i.row.cls = .mmx ∧ s.x87Pending then some .mf else none := by
  rw [State.precheck, (udCond_eq_false s i).2 h]
  rfl

/-- `Precheck` raises #UD or #NM, or #MF on an MMX row. -/
theorem precheck_cases {s : State} {i : Instr} {e : Exc} (h : s.precheck i = some e) :
    e = .ud ∨ e = .nm ∨ (e = .mf ∧ i.row.cls = .mmx) := by
  by_cases hud : NoUd s i
  · rw [precheck_of_noUd hud] at h
    split_ifs at h with hts hmf
    · exact .inr (.inl (Option.some.inj h).symm)
    · exact .inr (.inr ⟨(Option.some.inj h).symm, hmf.1⟩)
  · exact .inl (Option.some.inj ((precheck_ud hud).symm.trans h)).symm

/-- Settles O38: each condition of R121 contradicts `NoUd`. -/
theorem precheckRaisesUd : Obligations.PrecheckRaisesUd := by
  intro s i hwf h
  refine exec_of_precheck hwf (precheck_ud ?_)
  rintro ⟨hflag, hrow⟩
  rcases h with h | ⟨hc | hc, h⟩ | ⟨hc, h⟩ | ⟨hc, h⟩ | ⟨hc | hc, h | h⟩
  · simp [hflag] at h
  all_goals
    rw [hc] at hrow
    simp_all

/-- Settles O39: past the #UD conditions `Precheck` looks at TS first. -/
theorem taskSwitchedRaisesNm : Obligations.TaskSwitchedRaisesNm := by
  intro s i hwf hud hts
  exact exec_of_precheck hwf (by rw [precheck_of_noUd hud, hts]; rfl)

/-! ### A memory operand -/

/-- A byte outside its segment stops the read before any other check (R129). -/
theorem memRead_outside {s : State} {a : Access} {n : Nat} (al : AlignRule)
    (h : ∃ k < n, ¬ InSegment s a.seg (a.offset k)) : s.memRead a n al = .error (raise (segFault a.seg)) := by
  obtain ⟨k, hk, hout⟩ := h
  rw [← segOk_iff, Bool.not_eq_true] at hout
  exact if_pos (List.any_eq_true.2 ⟨k, List.mem_range.2 hk, by rw [hout]; rfl⟩)

theorem mem_failing (s : State) (a : Access) (n : Nat) (e : Exc) : e ∈ s.failing a n ↔
    ∃ k < n, ∃ code, s.pageFault (s.byteAddr a k) = some code ∧ e = .pf code (s.byteAddr a k) := by
  simp [State.failing, eq_comm]

/-- Whichever byte is picked for the report (log 9), it is one of the failing ones. -/
theorem getD_mod_mem (e : Exc) (es : List Exc) (j : Nat) : (e :: es).getD (j % (es.length + 1)) e ∈ e :: es := by
  have h : j % (es.length + 1) < (e :: es).length := Nat.mod_lt j (Nat.succ_pos _)
  rw [List.getD_eq_getElem _ _ h]
  exact List.getElem_mem h

/-- A byte whose translation fails stops the read of an operand that is inside its segment and aligned, with the page fault
of some such byte. -/
theorem memRead_unadmitted {s : State} {a : Access} {n : Nat} {al : AlignRule}
    (hin : ∀ k < n, InSegment s a.seg (a.offset k)) (h16 : al = .sse16 → (s.byteAddr a 0).toNat % 16 = 0)
    (h : ∃ k < n, ¬ Admitted s (s.byteAddr a k)) :
    ∃ k < n, ∃ code, ¬ Admitted s (s.byteAddr a k) ∧ IsPageFaultCode s (s.byteAddr a k) code ∧
      s.memRead a n al = .error (raise (.pf code (s.byteAddr a k))) := by
  have hs : ∀ k < n, s.segOk a.seg (a.offset k) = true := fun k hk => (segOk_iff s _ _).2 (hin k hk)
  unfold State.memRead
  rw [if_neg (by simpa using hs), if_neg (by rintro ⟨hal, hne⟩; exact hne (h16 hal))]
  cases hf : s.failing a n with
  | nil =>
    obtain ⟨k, hk, hna⟩ := h
    exact absurd ((pageFault_eq_none s _).1 ((failing_eq_nil s a n).1 hf k hk)) hna
  | cons e es =>
    have hmem := getD_mod_mem e es (Config.pageFaultPick (s.byteAddr a 0) (es.length + 1))
    rw [← hf] at hmem
    obtain ⟨k, hk, code, hcode, he⟩ := (mem_failing s a n _).1 hmem
    refine ⟨k, hk, code, ?_, pageFault_code s _ code hcode, by rw [← he, hf]⟩
    rw [← pageFault_eq_none, hcode]
    nofun

/-- A misaligned MMX operand: #AC, after segment and translation (R129). -/
theorem memRead_misaligned8 {s : State} {a : Access} {n : Nat} (hin : ∀ k < n, InSegment s a.seg (a.offset k))
    (hadm : ∀ k < n, Admitted s (s.byteAddr a k)) (hac : s.alignCheck = true)
    (h8 : (s.byteAddr a 0).toNat % 8 ≠ 0) : s.memRead a n .mmx8 = .error (raise .ac) := by
  have hs : ∀ k < n, s.segOk a.seg (a.offset k) = true := fun k hk => (segOk_iff s _ _).2 (hin k hk)
  have hp : s.failing a n = [] := (failing_eq_nil s a n).2 fun k hk => (pageFault_eq_none s _).2 (hadm k hk)
  rw [State.memRead, if_neg (by simpa using hs), if_neg (by simp), hp]
  exact if_pos ⟨rfl, hac, h8⟩

/-- Every check of a read passes (R124 to R127). -/
structure ReadPasses (s : State) (a : Access) (n : Nat) (al : AlignRule) : Prop where
  inside   : ∀ k < n, InSegment s a.seg (a.offset k)
  sse      : al = .sse16 → (s.byteAddr a 0).toNat % 16 = 0
  admitted : ∀ k < n, Admitted s (s.byteAddr a k)
  mmx      : al = .mmx8 → s.alignCheck = true → (s.byteAddr a 0).toNat % 8 = 0

/-- A read whose checks pass loads the bytes, or is stuck at one that is not there. -/
theorem ReadPasses.memRead {s : State} {a : Access} {n : Nat} {al : AlignRule} (h : ReadPasses s a n al) :
    s.memRead a n al = match s.load a 0 n with
      | .ok bs => .ok bs
      | .error b => .error (.fault (.stuckRead b)) :=
  memRead_passes s a n al (fun k hk => (segOk_iff s _ _).2 (h.inside k hk)) h.sse
    (fun k hk => (pageFault_eq_none s _).2 (h.admitted k hk)) h.mmx

/-- What a read can do: its checks pass, or it raises one of the memory exceptions. -/
theorem memRead_cases (s : State) (a : Access) (n : Nat) (al : AlignRule) :
    ReadPasses s a n al ∨ s.memRead a n al = .error (raise (segFault a.seg)) ∨ s.memRead a n al = .error (raise .gp) ∨
      (∃ code x, s.memRead a n al = .error (raise (.pf code x))) ∨
      (al = .mmx8 ∧ s.memRead a n al = .error (raise .ac)) := by
  by_cases hin : ∀ k < n, InSegment s a.seg (a.offset k)
  swap
  · exact .inr (.inl (memRead_outside al (by simpa using hin)))
  by_cases h16 : al = .sse16 → (s.byteAddr a 0).toNat % 16 = 0
  swap
  · obtain ⟨rfl, hne⟩ := Classical.not_imp.1 h16
    exact .inr (.inr (.inl (memRead_misaligned s a n hin hne)))
  by_cases hadm : ∀ k < n, Admitted s (s.byteAddr a k)
  swap
  · obtain ⟨k, -, code, -, -, h⟩ := memRead_unadmitted hin h16 (by simpa using hadm)
    exact .inr (.inr (.inr (.inl ⟨code, _, h⟩)))
  by_cases h8 : al = .mmx8 → s.alignCheck = true → (s.byteAddr a 0).toNat % 8 = 0
  swap
  · obtain ⟨rfl, h⟩ := Classical.not_imp.1 h8
    obtain ⟨hac, hne⟩ := Classical.not_imp.1 h
    exact .inr (.inr (.inr (.inr ⟨rfl, memRead_misaligned8 hin hadm hac hne⟩)))
  exact .inl ⟨hin, h16, hadm, h8⟩

theorem segFault_cases (g : SegSel) : segFault g = .ss ∨ segFault g = .gp := by
  unfold segFault
  split
  · exact .inl rfl
  · exact .inr rfl
  · exact ite_eq_or_eq _ _ _

theorem segFault_of_ne_ss {r : SegReg} (h : r ≠ .ss) : segFault (.seg r) = .gp := by
  cases r
  case ss => exact absurd rfl h
  all_goals rfl

/-- Settles O41: the read stops with the exception of the operand's segment. -/
theorem segmentViolationRaisesSsOrGp : Obligations.SegmentViolationRaisesSsOrGp := by
  intro s i f a h hout
  have hexec : exec i s = raise (segFault a.seg) := exec_of_memRead_error h (memRead_outside _ hout)
  refine ⟨fun hss => by rw [hexec, hss]; rfl, fun r hr hne => ?_, fun b _ => ?_⟩
  · rw [hexec, hr]
    exact congrArg raise (segFault_of_ne_ss hne)
  · rw [hexec]
    exact (segFault_cases a.seg).imp (congrArg raise) (congrArg raise)

/-- Settles O43: the read stops at some byte that fails, with the code of its page. -/
theorem translationFailureRaisesPf : Obligations.TranslationFailureRaisesPf := by
  intro s i f a h h16 hin hna
  obtain ⟨k, hk, code, hbad, hcode, hread⟩ :=
    memRead_unadmitted hin (fun he => h16 ((alignRule_eq_sse16 i).1 he)) hna
  exact ⟨k, hk, code, hbad, hcode, exec_of_memRead_error h hread⟩

/-! ### Every fault of a row -/

theorem complete_ne_fault (s : State) (i : Instr) (r : Fault) : s.complete i ≠ .fault r := by
  unfold State.complete
  split <;> nofun

theorem checked_fault {s : State} {i : Instr} {k : Result} {r : Fault} (h : s.checked i k = .fault r) :
    (∃ e, s.precheck i = some e ∧ Host.Outcome.fault r = raise e) ∨ k = .fault r := by
  unfold State.checked at h
  split at h
  · cases h
  split at h
  · next e he => exact .inl ⟨e, he, h.symm⟩
  · exact .inr h

theorem withMem_fault {s : State} {i : Instr} {f : MemForm} {n : Nat} {al : AlignRule} {k : List Byte → State → Result}
    {r : Fault} (h : s.withMem i f n al k = .fault r) :
    s.memRead (s.access i f) n al = .error (.fault r) ∨ ∃ bs u, k bs u = .fault r := by
  unfold State.withMem at h
  split at h
  · cases h
  split at h
  · exact .inr ⟨_, _, h⟩
  · next q hq => exact .inl (h ▸ hq)

/-- A fault of an instruction is one of `Precheck` or one of reading its memory operand: completion has none. -/
theorem exec_fault {s : State} {i : Instr} {r : Fault} (h : exec i s = .fault r) :
    (∃ e, s.precheck i = some e ∧ Host.Outcome.fault r = raise e) ∨
    ∃ f, memOperand i = some f ∧ s.memRead (s.access i f) (memBytes i) (alignRule i) = .error (.fault r) := by
  rw [exec_checked] at h
  refine (checked_fault h).imp_right fun hb => ?_
  cases hm : memOperand i with
  | none =>
    obtain ⟨u, hu, -⟩ := body_noMem s i hm
    exact absurd (hu.symm.trans hb) (complete_ne_fault u i r)
  | some f =>
    obtain ⟨k, hk, hcont⟩ := body_mem s i f hm
    rcases withMem_fault (hk.symm.trans hb) with hread | ⟨bs, t, ht⟩
    · exact ⟨f, rfl, hread⟩
    · obtain ⟨u, hu, -⟩ := hcont bs t
      exact absurd (hu.symm.trans ht) (complete_ne_fault u i r)

/-- How a read of an operand can end in a stop. -/
theorem memRead_error_cases {s : State} {a : Access} {n : Nat} {al : AlignRule} {q : Result}
    (h : s.memRead a n al = .error q) :
    q = raise .ss ∨ q = raise .gp ∨ (∃ code x, q = raise (.pf code x)) ∨ (al = .mmx8 ∧ q = raise .ac) ∨
      ∃ x, q = .fault (.stuckRead x) := by
  rcases memRead_cases s a n al with hp | hr | hr | ⟨code, x, hr⟩ | ⟨hal, hr⟩
  · have hload := hp.memRead.symm.trans h
    split at hload <;> cases hload
    exact .inr (.inr (.inr (.inr ⟨_, rfl⟩)))
  all_goals
    cases Except.error.inj (hr.symm.trans h)
  · rcases segFault_cases a.seg with he | he
    · exact .inl (congrArg raise he)
    · exact .inr (.inl (congrArg raise he))
  · exact .inr (.inl rfl)
  · exact .inr (.inr (.inl ⟨code, x, rfl⟩))
  · exact .inr (.inr (.inr (.inl ⟨hal, rfl⟩)))

/-- Settles O46: the faults of `Precheck`, and those of a read of the operand. -/
theorem rowsRaiseOnlyTheirExceptions : Obligations.RowsRaiseOnlyTheirExceptions := by
  intro s i r h
  rcases exec_fault h with ⟨e, he, hr⟩ | ⟨f, hf, hread⟩
  · rw [hr]
    rcases precheck_cases he with rfl | rfl | ⟨rfl, hc⟩
    · exact .inl rfl
    · exact .inr (.inl rfl)
    · exact .inr (.inr (.inl ⟨rfl, hc⟩))
  · refine .inr (.inr (.inr ⟨by rw [hf]; rfl, ?_⟩))
    rcases memRead_error_cases hread with h | h | h | ⟨hal, h⟩ | ⟨x, h⟩
    · exact .inl h
    · exact .inr (.inl h)
    · exact .inr (.inr (.inl h))
    · exact .inr (.inr (.inr (.inl ⟨h, (alignRule_eq_mmx8 i).1 hal⟩)))
    · exact .inr (.inr (.inr (.inr ⟨x, Host.Outcome.fault.inj h⟩)))

/-- The same of the exceptions: an instruction that raises `e` may raise it. -/
theorem exec_raise_cases {s : State} {i : Instr} {e : Exc} (h : exec i s = raise e) :
    e = .ud ∨ e = .nm ∨ (e = .mf ∧ i.row.cls = .mmx) ∨
    ((memOperand i).isSome = true ∧ (e = .ss ∨ e = .gp ∨ (∃ code a, e = .pf code a) ∨ (e = .ac ∧ i.row.cls = .mmx))) := by
  have hraise : Host.Outcome.fault (Fault.exception e.vector e.code e.address) = raise e := rfl
  have hf := rowsRaiseOnlyTheirExceptions s i _ h
  simpa only [hraise, raise_inj, reduceCtorEq, exists_false, or_false] using hf

theorem mmxRow_iff (i : Instr) : i.row.num ∈ [1, 3, 9, 11] ↔ i.row.cls = .mmx := by
  cases i <;> simp [Instr.row]

/-- The MMX rows with a memory operand are 1 and 9. -/
theorem mmxMemRow_num (i : Instr) (hc : i.row.cls = .mmx) (hm : (memOperand i).isSome = true) : i.row.num ∈ [1, 9] := by
  cases i <;> simp [Instr.row, memOperand] at hc hm ⊢

/-- Settles O40: `Precheck` finds #MF on an MMX row, and of the faults of O46 only an MMX row has #MF. -/
theorem pendingX87RaisesMf : Obligations.PendingX87RaisesMf := by
  intro s i hwf
  refine ⟨fun hn hud hts hx => exec_of_precheck hwf ?_, fun hn h => ?_⟩
  · rw [precheck_of_noUd hud, hts, if_neg Bool.false_ne_true, if_pos ⟨(mmxRow_iff i).1 hn, hx⟩]
  · have hc : i.row.cls = .mmx := by simpa using exec_raise_cases h
    exact hn ((mmxRow_iff i).2 hc)

/-- Settles O44: the read of an MMX operand ends in #AC, and of the faults of O46 only an MMX row with its count in memory
has #AC. -/
theorem misalignedMmxOperandRaisesAc : Obligations.MisalignedMmxOperandRaisesAc := by
  refine ⟨fun s i f a h hn hin hadm hac h8 => exec_of_memRead_error h ?_, fun s i hn h => ?_⟩
  · have hc : i.row.cls = .mmx := (mmxRow_iff i).1 (by simp at hn ⊢; omega)
    rw [(alignRule_eq_mmx8 i).2 hc, memBytes, if_pos hc]
    exact memRead_misaligned8 hin hadm hac h8
  · obtain ⟨hm, hc⟩ : (memOperand i).isSome = true ∧ i.row.cls = .mmx := by simpa using exec_raise_cases h
    exact hn (mmxMemRow_num i hc hm)

/-! ### The privilege level -/

/-- The state at another privilege level. -/
def State.atLevel (s : State) (c : BitVec 2) : State := { s with env := { s.env with CPL := c } }

/-- A next state of `r` is, at the other level, the next state of `r'`. -/
def NextAt (c : BitVec 2) (r r' : Result) : Prop := ∀ t : State, r = .next t → r' = .next (t.atLevel c)

/-- No listed page is a supervisor page, and EFLAGS.AC is 0: where neither page protection nor alignment checking looks at
the level. -/
structure LevelFree (s : State) : Prop where
  pages : ∀ p ∈ s.pages, ∀ r, p.status ≠ .present true r
  ac    : s.rflags.getLsbD 18 = false

theorem LevelFree.pageStatus {s : State} (h : LevelFree s) (a : Addr) (r : Bool) :
    s.pageStatus a ≠ .present true r := by
  unfold State.pageStatus
  split
  · next p hp => exact h.pages p (List.mem_of_find?_eq_some hp) r
  · nofun

theorem LevelFree.admitted {s : State} (h : LevelFree s) (c : BitVec 2) {a : Addr} (ha : Admitted s a) :
    Admitted (s.atLevel c) a := by
  obtain ⟨sup, hst, -⟩ := ha
  cases sup with
  | false => exact ⟨false, hst, nofun⟩
  | true => exact absurd hst (h.pageStatus a false)

theorem LevelFree.alignCheck {s : State} (h : LevelFree s) (c : BitVec 2) : (s.atLevel c).alignCheck = false := by
  have hac : (s.atLevel c).rflags.getLsbD 18 = false := h.ac
  rw [State.alignCheck, hac, Bool.and_false, Bool.false_and]

theorem LevelFree.readPasses {s : State} (h : LevelFree s) (c : BitVec 2) {a : Access} {n : Nat} {al : AlignRule}
    (hr : ReadPasses s a n al) : ReadPasses (s.atLevel c) a n al where
  inside   := hr.inside
  sse      := hr.sse
  admitted k hk := h.admitted c (hr.admitted k hk)
  mmx _ hac := by simp [h.alignCheck c] at hac

theorem load_atLevel (s : State) (c : BitVec 2) (a : Access) (k n : Nat) :
    (s.atLevel c).load a k n = s.load a k n := by
  induction n generalizing k with
  | zero => rfl
  | succ n ih =>
    simp only [State.load, ih]
    rfl

/-- A read that gives bytes passed every check. -/
theorem readPasses_of_ok {s : State} {a : Access} {n : Nat} {al : AlignRule} {bs : List Byte}
    (h : s.memRead a n al = .ok bs) : ReadPasses s a n al := by
  rcases memRead_cases s a n al with hp | hr | hr | ⟨_, _, hr⟩ | ⟨-, hr⟩
  · exact hp
  all_goals simp [hr] at h

theorem LevelFree.memRead {s : State} (h : LevelFree s) (c : BitVec 2) {a : Access} {n : Nat} {al : AlignRule}
    {bs : List Byte} (hr : s.memRead a n al = .ok bs) : (s.atLevel c).memRead a n al = .ok bs := by
  have hp := readPasses_of_ok hr
  rw [(h.readPasses c hp).memRead, load_atLevel, ← hp.memRead, hr]

theorem noteRead_atLevel (s : State) (c : BitVec 2) (a : Access) (n : Nat) :
    (s.atLevel c).noteRead a n = (s.noteRead a n).atLevel c := by
  unfold State.noteRead
  rw [apply_ite (State.atLevel · c)]
  rfl

theorem nextAt_complete (s : State) (c : BitVec 2) (i : Instr) : NextAt c (s.complete i) ((s.atLevel c).complete i) := by
  intro t h
  obtain ⟨hw, rfl⟩ := complete_inv s t i h
  exact complete_next (s.atLevel c) i hw

section
variable {s : State} {c : BitVec 2}

theorem nextAt_checked (i : Instr) {k k' : Result} (hk : NextAt c k k') :
    NextAt c (s.checked i k) ((s.atLevel c).checked i k') := by
  intro t h
  have hpre : (s.atLevel c).precheck i = s.precheck i := rfl
  unfold State.checked at h ⊢
  rw [hpre]
  split at h
  · cases h
  · next hres =>
    rw [if_neg hres]
    split at h
    · cases h
    · exact hk t h

theorem LevelFree.withMem (hs : LevelFree s) (i : Instr) (f : MemForm) (n : Nat) (al : AlignRule)
    {k k' : List Byte → State → Result} (hk : ∀ bs u, NextAt c (k bs u) (k' bs (u.atLevel c))) :
    NextAt c (s.withMem i f n al k) ((s.atLevel c).withMem i f n al k') := by
  intro t h
  obtain ⟨bs, hr, ht⟩ := withMem_next s t i f n al k h
  have ha : addr16 s.mode i.pfx = false := by
    by_contra ha
    rw [State.withMem, if_pos (Bool.not_eq_false _ ▸ ha)] at h
    cases h
  have hr' : (s.atLevel c).memRead ((s.atLevel c).access i f) n al = .ok bs := hs.memRead c hr
  have ha' : addr16 (s.atLevel c).mode i.pfx = false := ha
  rw [State.withMem, ha', hr']
  exact noteRead_atLevel s c _ n ▸ hk bs _ t ht

theorem LevelFree.withCountMm (hs : LevelFree s) (i : Instr) (count : MmRm) {k k' : Nat → State → Result}
    (hk : ∀ n u, NextAt c (k n u) (k' n (u.atLevel c))) :
    NextAt c (s.withCountMm i count k) ((s.atLevel c).withCountMm i count k') := by
  cases count with
  | reg r => exact hk _ s
  | mem f => exact hs.withMem i f 8 .mmx8 fun bs u => hk _ u

theorem LevelFree.withCountXmm (hs : LevelFree s) (i : Instr) (al : AlignRule) (count : XmmRm)
    {k k' : Nat → State → Result} (hk : ∀ n u, NextAt c (k n u) (k' n (u.atLevel c))) :
    NextAt c (s.withCountXmm i al count k) ((s.atLevel c).withCountXmm i al count k') := by
  cases count with
  | reg r => exact hk _ s
  | mem f => exact hs.withMem i f 16 al fun bs u => hk _ u

/-- An instruction that completes at one level completes at the other: the checks before it do not see the level, a read
that passes there passes here, and completion writes the same. -/
theorem LevelFree.exec (hs : LevelFree s) (i : Instr) : NextAt c (exec i s) (exec i (s.atLevel c)) := by
  rw [exec_checked, exec_checked]
  refine nextAt_checked i ?_
  cases i <;> dsimp only [State.body]
  case psrawMm | psradMm =>
    refine hs.withCountMm _ _ ?_
    exact fun n u => nextAt_complete _ c _
  case psrawXmm | psradXmm | vpsrawXmm | vpsradXmm | vpsrawYmm | vpsradYmm =>
    refine hs.withCountXmm _ _ _ ?_
    exact fun n u => nextAt_complete _ c _
  all_goals exact nextAt_complete _ c _

end

/-- Settles O57: its premises are `LevelFree`. -/
theorem privilegeLevelDoesNotMatter : Obligations.PrivilegeLevelDoesNotMatter := by
  intro i s t c hpages hac h
  exact LevelFree.exec ⟨hpages, hac⟩ i t h

end Sys2Proof.Machine
end

section
/-! The two enable states that 70_reset_and_hazards.md gives: a hardware reset enables no SIMD row but the MMX rows (R151), the
launch state enables every row (R150, R152). -/

namespace Sys2Proof.Machine

/-- Settles O48: OSFXSR is clear for a legacy SSE2 row, OSXSAVE for a VEX row, and R121 makes either one #UD. -/
theorem hardwareResetDisablesSimd : Obligations.HardwareResetDisablesSimd := by
  intro s i hwf henv hmmx
  have hosfxsr : s.env.OSFXSR = false := by rw [henv]; rfl
  have hosxsave : s.env.OSXSAVE = false := by rw [henv]; rfl
  refine precheckRaisesUd s i hwf ?_
  cases hc : i.row.cls with
  | mmx => exact absurd hc hmmx
  | sse2 => simp [hosfxsr]
  | vex128 | vex256 => simp [hosxsave]

theorem reset_inv : State.reset.Inv := ⟨rfl, by decide⟩

theorem mmxReady_reset : MmxReady State.reset := ⟨rfl, rfl, rfl, by decide⟩

theorem sse2Ready_reset : Sse2Ready State.reset := ⟨rfl, rfl, rfl, rfl⟩

/-- The launch state has every feature flag, so it is ready for the VEX rows of any of them. -/
theorem vexReady_reset (f : Feature) : VexReady State.reset f :=
  ⟨by cases f <;> rfl, rfl, rfl, rfl, rfl, rfl⟩

/-- Settles O60: the invariant and the premises of the four row classes, each read off the fields of the launch state. -/
theorem launchStateIsReady : Obligations.LaunchStateIsReady :=
  ⟨reset_inv, mmxReady_reset, sse2Ready_reset, vexReady_reset .avx, vexReady_reset .avx2⟩

end Sys2Proof.Machine
end
